-- ==== Sys2Proof/Word.lean ====
section
/-! DEFINITION. The word types of the block: registers are 32 bits wide (10_state.md R22), host
memory and A-law codes are bytes (20_memory.md R50), linear samples are 16-bit patterns. -/

namespace Sys2Proof

/-- A register, a command word, an INT (10_state.md R22, 92_eei_decisions.md D7). -/
abbrev Word := BitVec 32

/-- A byte of host memory, an A-law code. -/
abbrev Byte := BitVec 8

/-- A 16-bit sample pattern (00_scope.md R11). -/
abbrev Sample := BitVec 16

end Sys2Proof
end

