-- ==== Sys2Proof/Config.lean ====
section
/-! DEFINITION. The parameters of the block (00_scope.md R7) as plain data, their defaults, and the
one free value of the spec, the draw `FAIL_DRAW()` (60_exceptions.md R211). -/

namespace Sys2Proof

/-- `SAMPLE_ENDIAN` (20_memory.md R53): which byte of a sample lies at the lower address. -/
inductive Endian where
  /-- the byte at the lower address holds bits [7:0] -/
  | le
  /-- the byte at the lower address holds bits [15:8] -/
  | be
  deriving DecidableEq, Repr

/-- The direction of a memory access, the `dir` of `ADMITS(a, dir)` (20_memory.md R58). -/
inductive Dir where
  | read
  | write
  deriving DecidableEq, Repr

/-- A range of addresses the platform's memory refuses in one direction: `base .. base + size - 1`. -/
structure RefusedRange where
  base : Nat
  size : Nat
  dir : Dir
  deriving DecidableEq, Repr

/-- The parameters that are fixed for a given block (00_scope.md R7). The two slot counts of R7 are
the lengths of State's slot lists. `ADMITS` (20_memory.md R58) is the list of what the platform
refuses: over a finite address space every admission predicate is such a list. -/
structure Params where
  /-- `ADDR_WIDTH`, in 16..32 -/
  addrWidth : Nat
  /-- `SAMPLE_ENDIAN` -/
  sampleEndian : Endian
  /-- `CREATE_MAY_FAIL` -/
  createMayFail : Bool
  /-- `CODEC_BASE`, the address of the 64-byte register window -/
  codecBase : Nat
  /-- the accesses `ADMITS` refuses beside the window -/
  refused : List RefusedRange
  deriving DecidableEq, Repr

/-- The defaults of R7. `CODEC_BASE` and the empty refusal list are DESIGN CHOICE (log entry 2):
the spec leaves both to the platform. -/
def Params.default : Params where
  addrWidth := 32
  sampleEndian := .le
  createMayFail := false
  codecBase := 0xFFFF0000
  refused := []

/-- Default of `NUM_ENC_INST` and `NUM_DEC_INST` (R7, decision D5). -/
def Config.defaultSlots : Nat := 4

/-- `FAIL_DRAW()` (60_exceptions.md R211): a free Boolean. The argument numbers the draws of a run.
It has no body, so nothing can be proved of its value (log entry 13). -/
opaque Config.failDraw : Nat → Bool

end Sys2Proof
end

