-- ==== Sys2Proof/Machine/State.lean ====
section
/-! DEFINITION. The state of the block and of the world around it, as plain data (10_state.md), and
its value after reset (10_state.md R37). -/

namespace Sys2Proof.Machine

/-- The fault causes of 60_exceptions.md R201. They are the block's own faults: raising one is a next
state of the machine, with the cause readable in `STATUS`. -/
inductive Cause where
  /-- 1: the word written to `CMD` matches no command -/
  | illegalCommand
  /-- 2: a non-zero handle that names no live slot of the unit -/
  | deadHandle
  /-- 3: a decode result that does not fit INT -/
  | lengthOverflow
  /-- 4: a buffer that passes the top of the address space -/
  | addressRange
  /-- 5: the memory refused an access of the block -/
  | busError
  /-- 6: a host access the register window does not allow -/
  | hostProtocol
  deriving DecidableEq, Repr

/-- `PHASE` (10_state.md R21). The recorded cause stands with the phase `faulted`, because
`STATUS.CAUSE` is zero in every other phase (R26). -/
inductive Phase where
  | idle
  | busy
  | faulted (c : Cause)
  deriving DecidableEq, Repr

/-- An instance slot (10_state.md R30, R31): the two units' slots have an identical shape and differ
in the table's type `τ`. -/
structure Slot (τ : Type) where
  /-- the slot holds a created, not yet destroyed instance -/
  live : Bool
  /-- the INT given at creation -/
  sampleRate : Word
  /-- the INT given at creation -/
  channels : Word
  /-- the compression table (encoder) or expansion table (decoder) -/
  table : τ
  deriving DecidableEq, Repr

/-- The compression table: 16384 unsigned 8-bit codes (10_state.md R30). -/
abbrev CompressionTable := Vector Byte 16384

/-- The expansion table: 256 signed 16-bit values, as patterns (10_state.md R31). -/
abbrev ExpansionTable := Vector Sample 256

abbrev EncSlot := Slot CompressionTable
abbrev DecSlot := Slot ExpansionTable

/-- Host memory (20_memory.md R50): the bytes that are not zero, by strictly rising address. -/
abbrev Memory := List Host.Cell

/-- What the world outside does next at the block (10_state.md R20, R22, 30_encoding.md R86,
70_reset_and_hazards.md R240), and when the block itself moves between two such events (log entry 6). -/
inductive Input where
  /-- a host store of `size` bytes at an offset of the register window -/
  | write (size : Nat) (offset : Fin 64) (value : Word)
  /-- a host load of `size` bytes at an offset of the register window -/
  | read (size : Nat) (offset : Fin 64)
  /-- a host store of one byte of host memory -/
  | memWrite (a : Nat) (v : Byte)
  /-- a host load of one byte of host memory -/
  | memRead (a : Nat)
  /-- the script line `WAIT`: poll `STATUS` until `BUSY = 0` -/
  | wait
  /-- a 32-bit host store to `CMD` whose command runs as one atomic step (20_memory.md R68) -/
  | command (w : Word)
  /-- no access: the block makes one of its own steps -/
  | blockTurn
  /-- the reset input is asserted and released (log entry 26) -/
  | reset
  deriving DecidableEq, Repr

/-- The state. -/
structure State where
  /-- the parameters of this block (00_scope.md R7); no step writes them -/
  params : Params
  /-- `CMD` -/
  cmd : Word
  /-- `ARG0` -/
  arg0 : Word
  /-- `ARG1` -/
  arg1 : Word
  /-- `ARG2` -/
  arg2 : Word
  /-- `RESULT` -/
  result : Word
  /-- `PHASE` and the recorded cause; `STATUS` is computed from it -/
  phase : Phase
  /-- `LCMD` -/
  lcmd : Word
  /-- `LARG0` -/
  larg0 : Word
  /-- `LARG1` -/
  larg1 : Word
  /-- `LARG2` -/
  larg2 : Word
  /-- `K`, the index of the next element -/
  k : Nat
  /-- `N`, the element count of the transform in progress -/
  n : Nat
  /-- `E[1..NUM_ENC_INST]`; `E[h]` stands at position `h - 1` -/
  enc : List EncSlot
  /-- `D[1..NUM_DEC_INST]`; `D[h]` stands at position `h - 1` -/
  dec : List DecSlot
  /-- host memory -/
  mem : Memory
  /-- the model's own: what the world does next, the next event first (log entry 6) -/
  port : List Input
  /-- the model's own: the value the latest host load returned (log entry 14) -/
  readData : Word
  /-- the model's own: how many free draws have been made (log entry 13) -/
  draws : Nat
  deriving DecidableEq, Repr

/-- Why the model's step stops. None of these is a fault of the block or the outcome of a command:
each is a host access to host memory for which the spec fixes no outcome. -/
inductive Fault where
  /-- Raised by a host's memory access to a buffer byte of the command in flight: the race of
  20_memory.md R63. Safe: the model has no run for such a host (R68). -/
  | bufferRace (a : Nat)
  /-- Raised by a host's memory access at `2^ADDR_WIDTH` or above, where no byte exists
  (20_memory.md R50). Safe. -/
  | noSuchAddress (a : Nat)
  /-- Raised by a host's memory access that the platform refuses: the spec says what the block sees
  of a refusal (20_memory.md R58) and not what a host sees. Safe. -/
  | platformRefuses (a : Nat)
  deriving DecidableEq, Repr

/-- Why the model has no meaning for an instruction. No instruction of this model is refused. -/
inductive Refusal where
  /-- Raised by an arm of exec whose instruction has no meaning yet. Safe. -/
  | notModelled (mnemonic : String)
  deriving DecidableEq, Repr

/-- A free slot after reset (10_state.md R37): `live = 0`. The other fields are unspecified and never
read; the model names 0 (DESIGN CHOICE, log entry 4). -/
def Slot.free {τ : Type} (blank : τ) : Slot τ where
  live := false
  sampleRate := 0
  channels := 0
  table := blank

/-- A free encoder slot after reset. -/
def freeEncSlot : EncSlot := Slot.free (Vector.replicate 16384 0)

/-- A free decoder slot after reset. -/
def freeDecSlot : DecSlot := Slot.free (Vector.replicate 256 0)

/-- The state after reset of a block with the given parameters and slot counts (10_state.md R37). The
latches, `K` and `N` are unspecified there; the model names 0 (DESIGN CHOICE, log entry 3). -/
def State.afterReset (p : Params) (numEnc numDec : Nat) : State where
  params := p
  cmd := 0
  arg0 := 0
  arg1 := 0
  arg2 := 0
  result := 0
  phase := .idle
  lcmd := 0
  larg0 := 0
  larg1 := 0
  larg2 := 0
  k := 0
  n := 0
  enc := List.replicate numEnc freeEncSlot
  dec := List.replicate numDec freeDecSlot
  mem := []
  port := []
  readData := 0
  draws := 0

/-- The machine right after reset, with the default parameters of 00_scope.md R7 and an empty port. -/
def State.reset : State :=
  State.afterReset Params.default Config.defaultSlots Config.defaultSlots

end Sys2Proof.Machine
end

