-- ==== Sys2Proof/Machine/Ops.lean ====
section
/-! DEFINITION. The shared operations: host memory, the block's byte and sample accesses, starting a
command, ending it, raising a fault, leaving the fault state by reset. -/

namespace Sys2Proof

/-- The address lies in the 64-byte register window (10_state.md R22). -/
def Params.inWindow (p : Params) (a : Nat) : Bool :=
  p.codecBase ≤ a && a < p.codecBase + 64

/-- The range refuses an access at `a` in direction `d`. -/
def RefusedRange.covers (r : RefusedRange) (a : Nat) (d : Dir) : Bool :=
  r.dir == d && r.base ≤ a && a < r.base + r.size

/-- `ADMITS(a, dir)` (20_memory.md R58). The block's own register window is never admitted (R60). -/
def Params.admits (p : Params) (a : Nat) (d : Dir) : Bool :=
  !p.inWindow a && !p.refused.any (fun r => r.covers a d)

/-- The number of bytes of host memory, `2^ADDR_WIDTH` (20_memory.md R50). -/
def Params.memorySize (p : Params) : Nat := 2 ^ p.addrWidth

end Sys2Proof

namespace Sys2Proof.Machine

/-- What an address the memory list does not name reads as (log entry 5). -/
def blankByte : Byte := 0

/-- The byte at an address. -/
def Memory.read : Memory → Nat → Byte
  | [], _ => blankByte
  | (b, v) :: m, a => if b = a then v else Memory.read m a

/-- The memory with one byte changed, in canonical form. -/
def Memory.write : Memory → Nat → Byte → Memory
  | [], a, v => if v = blankByte then [] else [(a, v)]
  | (b, u) :: m, a, v =>
    if a < b then
      if v = blankByte then (b, u) :: m else (a, v) :: (b, u) :: m
    else if a = b then
      if v = blankByte then m else (a, v) :: m
    else
      (b, u) :: Memory.write m a v

/-- The canonical form: addresses strictly rising, no entry equal to what an unlisted address reads
as. -/
def Memory.wf : Memory → Bool
  | [] => true
  | (a, v) :: m => v != blankByte && m.all (fun c => a < c.1) && Memory.wf m

/-- Every listed address is one of the `size` addresses of the space. -/
def Memory.within (size : Nat) (m : Memory) : Bool := m.all (fun c => c.1 < size)

/-- A sample from the bytes at the lower and the higher address (20_memory.md R53, R54). -/
def joinSample : Endian → Byte → Byte → Sample
  | .le, b0, b1 => b1 ++ b0
  | .be, b0, b1 => b0 ++ b1

/-- The byte of a sample that lies at the lower address (20_memory.md R53). -/
def lowerByte : Endian → Sample → Byte
  | .le, p => p.extractLsb' 0 8
  | .be, p => p.extractLsb' 8 8

/-- The byte of a sample that lies at the higher address (20_memory.md R53). -/
def higherByte : Endian → Sample → Byte
  | .le, p => p.extractLsb' 8 8
  | .be, p => p.extractLsb' 0 8

/-- `raise Fault(cause)` (60_exceptions.md R203): the phase and the cause; nothing else changes. -/
def State.raise (c : Cause) (s : State) : State := { s with phase := .faulted c }

/-- `return r` (60_exceptions.md R200): the command ends, `RESULT` is written, the block is idle. -/
def State.complete (r : Word) (s : State) : State := { s with result := r, phase := .idle }

/-- The start of a command (10_state.md R23, R29): the word is stored in `CMD`, the operands are
latched, `K` is 0 and the block is busy. -/
def State.start (w : Word) (s : State) : State :=
  { s with
    cmd := w
    lcmd := w
    larg0 := s.arg0
    larg1 := s.arg1
    larg2 := s.arg2
    k := 0
    phase := .busy }

/-- Reset (70_reset_and_hazards.md R240), the only way out of the fault state (60_exceptions.md R204):
every register and slot goes to its reset value; host memory and the parameters stay. What else stays,
and the fields R37 leaves unspecified, are log entry 18. DESIGN CHOICE (log entry 26): the reset input
is asserted and released in this one event, so no host access lands while it is asserted. -/
def State.applyReset (s : State) : State :=
  { State.afterReset s.params s.enc.length s.dec.length with
    mem := s.mem
    port := s.port
    readData := s.readData
    draws := s.draws }

/-- A part of a command's pseudocode either leaves the command running or has ended it by raising a
fault (60_exceptions.md R203). -/
inductive Progress where
  /-- the command goes on from this state -/
  | running (s : State)
  /-- a fault was raised; this is the fault state -/
  | stopped (s : State)

/-- The state a part of the pseudocode leaves, whether or not the command goes on. -/
def Progress.state : Progress → State
  | .running s => s
  | .stopped s => s

/-- The next statement, reached only while the command is running. -/
def Progress.andThen (p : Progress) (f : State → Progress) : Progress :=
  match p with
  | .running s => f s
  | .stopped s => .stopped s

/-- `MemRead(a, 1)` (20_memory.md R52): the byte, or nothing where the memory refuses (R58). -/
def State.loadByte (s : State) (a : Nat) : Option Byte :=
  if s.params.admits a .read then some (s.mem.read a) else none

/-- `MemWrite(a, 1, v)` (20_memory.md R52); a refused write has no effect and raises `BUS_ERROR` (R58). -/
def State.storeByte (a : Nat) (v : Byte) (s : State) : Progress :=
  if s.params.admits a .write then .running { s with mem := s.mem.write a v }
  else .stopped (s.raise .busError)

/-- `Read16(a)` (20_memory.md R54): two byte reads, the lower address first. -/
def State.load16 (s : State) (a : Nat) : Option Sample :=
  match s.loadByte a with
  | none => none
  | some b0 =>
    match s.loadByte (a + 1) with
    | none => none
    | some b1 => some (joinSample s.params.sampleEndian b0 b1)

/-- `Write16(a, p)` (20_memory.md R54): two byte writes, the lower address first. -/
def State.store16 (a : Nat) (p : Sample) (s : State) : Progress :=
  (s.storeByte a (lowerByte s.params.sampleEndian p)).andThen
    (State.storeByte (a + 1) (higherByte s.params.sampleEndian p))

/-- The next element's index, `K + 1` (10_state.md R21). -/
def State.nextElement (s : State) : Progress := .running { s with k := s.k + 1 }

/-- The outcome of a transform's checks (60_exceptions.md R205): a fault, a result at once, or a loop
of `count` elements over a live slot, with the result it returns at its end. -/
inductive Plan (τ : Type) where
  | fault (c : Cause)
  | done (r : Word)
  | loop (slot : Slot τ) (count : Nat) (r : Word)

/-- `count` elements in order, until one raises a fault (20_memory.md R55, 60_exceptions.md R203). -/
def runElements (element : State → Progress) : Nat → State → Progress
  | 0, s => .running s
  | count + 1, s => (element s).andThen (runElements element count)

/-- A command whose loop has run: the result is returned unless a fault was raised. -/
def Progress.finish (r : Word) : Progress → State
  | .running s => s.complete r
  | .stopped s => s

/-- A transform as one atomic step (20_memory.md R68): `N <- count`, then `K` from 0 to `N - 1`. -/
def runPlan {τ : Type} (element : Slot τ → State → Progress) (p : Plan τ) (s : State) : State :=
  match p with
  | .fault c => s.raise c
  | .done r => s.complete r
  | .loop slot count r =>
    (runElements (element slot) count { s with n := count, k := 0 }).finish r

/-- One step of a transform that runs element by element: the checks have the same outcome at every
step, since nothing they read changes while the block is busy; then the element `K`, or the end when
`K = N` (10_state.md R21, log entry 11). -/
def stepPlan {τ : Type} (element : Slot τ → State → Progress) (p : Plan τ) (s : State) : State :=
  match p with
  | .fault c => s.raise c
  | .done r => s.complete r
  | .loop slot count r =>
    if s.k < count then (element slot { s with n := count }).state
    else ({ s with n := count } : State).complete r

end Sys2Proof.Machine
end

