-- ==== Sys2Proof/Machine/Operands.lean ====
section
/-! DEFINITION. The operands of a command (30_encoding.md R82, R83), the instance a handle names, the
frame-alignment rule (41_decoder.md R132) and the checks of a transform in their order
(60_exceptions.md R205). -/

namespace Sys2Proof.Machine

/-- `len = i32(LARG1)` of a transform (30_encoding.md R83). -/
def State.lengthOperand (s : State) : Int := s.larg1.toInt

/-- `in = zext(LARG0)` of a transform (30_encoding.md R83). -/
def State.inAddress (s : State) : Nat := s.larg0.toNat

/-- `out = zext(LARG2)` of a transform (30_encoding.md R83). -/
def State.outAddress (s : State) : Nat := s.larg2.toNat

/-- The result `-1` (60_exceptions.md R200). -/
def minusOne : Word := 0xFFFFFFFF

/-- What a handle names in a unit's slots (30_encoding.md R82, 60_exceptions.md R202). -/
inductive Named (τ : Type) where
  /-- the null instance, handle 0 -/
  | null
  /-- no slot, or a slot that is not live -/
  | dead
  /-- a live slot -/
  | live (slot : Slot τ)

/-- The instance of a handle: slot `h` stands at position `h - 1`. -/
def nameOf {τ : Type} (slots : List (Slot τ)) : Nat → Named τ
  | 0 => .null
  | i + 1 =>
    match slots[i]? with
    | none => .dead
    | some slot => if slot.live then .live slot else .dead

/-- The position of the lowest-numbered free slot (41_decoder.md R131: `min(free)`). -/
def firstFree {τ : Type} : List (Slot τ) → Option Nat
  | [] => none
  | slot :: slots => if slot.live then (firstFree slots).map (· + 1) else some 0

/-- `FRAME_LEN(len, ch)` (41_decoder.md R132). -/
def frameLen (len ch : Int) : Int :=
  if 0 < ch ∧ len % ch ≠ 0 ∧ len - len % ch ≥ ch then len - len % ch else len

/-- A buffer of `bytes` bytes at `base` lies in the address space (20_memory.md R57); an empty buffer
is not checked. -/
def inRange (p : Params) (base bytes : Nat) : Bool :=
  bytes == 0 || (base < p.memorySize && base + bytes - 1 ≤ p.memorySize - 1)

/-- The greatest element count whose doubled result fits INT (60_exceptions.md R207). -/
def maxDecodeCount : Nat := 0x3FFFFFFF

/-- A transform's invalid arguments beside a null instance (60_exceptions.md R200): a null buffer or
a length that is not positive. -/
def State.badArguments (s : State) : Bool :=
  s.inAddress == 0 || s.outAddress == 0 || s.lengthOperand ≤ 0

/-- The range checks, the input buffer first, then the loop (60_exceptions.md R205 point 6). -/
def State.planBuffers {τ : Type} (s : State) (slot : Slot τ) (inBytes outBytes count : Nat)
    (r : Word) : Plan τ :=
  if !inRange s.params s.inAddress inBytes then .fault .addressRange
  else if !inRange s.params s.outAddress outBytes then .fault .addressRange
  else .loop slot count r

/-- The checks of `ENC_ENCODE` (42_encoder.md R166). -/
def State.encodePlan (h : Nat) (s : State) : Plan CompressionTable :=
  match nameOf s.enc h with
  | .dead => .fault .deadHandle
  | .null => .done minusOne
  | .live slot =>
    if s.badArguments then .done minusOne
    else
      let n := (s.lengthOperand / 2).toNat
      s.planBuffers slot (2 * n) n n (BitVec.ofNat 32 n)

/-- The checks of `DEC_DECODE` (41_decoder.md R133). -/
def State.decodePlan (h : Nat) (s : State) : Plan ExpansionTable :=
  match nameOf s.dec h with
  | .dead => .fault .deadHandle
  | .null => .done minusOne
  | .live slot =>
    if s.badArguments then .done minusOne
    else
      let n := (frameLen s.lengthOperand slot.channels.toInt).toNat
      if maxDecodeCount < n then .fault .lengthOverflow
      else s.planBuffers slot n (2 * n) n (BitVec.ofNat 32 (2 * n))

/-- The free draw of a create (60_exceptions.md R211): it may fail only under `CREATE_MAY_FAIL`. -/
def State.drawFails (s : State) : Bool := s.params.createMayFail && Config.failDraw s.draws

/-- The state after a create's draw: a draw made is counted, so that the next one is another. -/
def State.afterDraw (s : State) : State :=
  if s.params.createMayFail then { s with draws := s.draws + 1 } else s

/-- The slot a create makes live (41_decoder.md R131, 42_encoder.md R165): the operands are stored
unchecked. -/
def State.newSlot {τ : Type} (s : State) (table : τ) : Slot τ where
  live := true
  sampleRate := s.larg0
  channels := s.larg1
  table := table

/-- The slots with the instance of handle `h` released (41_decoder.md R134): `live` is cleared. -/
def release {τ : Type} (slots : List (Slot τ)) (h : Nat) : List (Slot τ) :=
  slots.modify (h - 1) (fun slot => { slot with live := false })

end Sys2Proof.Machine
end

