-- ==== Sys2Proof/Machine/Tables.lean ====
section
/-! DEFINITION. The expansion primitive (40_expansion.md), the decoder's expansion table
(41_decoder.md R130) and the encoder's compression table (42_encoder.md R160-R164). -/

namespace Sys2Proof.Machine

/-- `EXPAND(a)` (40_expansion.md R110), the four steps as they stand there. -/
def expand (a : Byte) : Int :=
  let b := a ^^^ 0x55
  let t := (b &&& 0x0F).toNat
  let seg := ((b &&& 0x70) >>> (4 : Nat)).toNat
  let magnitude : Nat := if seg = 0 then (2 * t + 1) <<< 3 else (2 * t + 1 + 32) <<< (seg + 2)
  if b.getLsbD 7 then (magnitude : Int) else -(magnitude : Int)

/-- `s16(p)` (00_scope.md R11). -/
def s16 (p : Sample) : Int := p.toInt

/-- `u16(v)` (00_scope.md R11). -/
def u16 (v : Int) : Sample := BitVec.ofInt 16 v

/-- The expansion table (41_decoder.md R130): entry `c` is `u16(EXPAND(c))`. -/
def expansionTable : ExpansionTable :=
  ⟨⟨(List.range 256).map (fun c => u16 (expand (BitVec.ofNat 8 c)))⟩, by simp⟩

/-- The entry of a code. -/
def expansionOf (t : ExpansionTable) (c : Byte) : Sample := t.get c.toFin

/-- `IDX(p) = (s16(p) + 32768) >> 2` (42_encoder.md R160) is below 16384. -/
theorem compressionIndex_lt (p : Sample) : ((s16 p + 32768) >>> (2 : Nat)).toNat < 16384 := by
  have h := BitVec.toInt_lt (x := p)
  have h' := BitVec.le_toInt (x := p)
  simp only [s16]
  rw [Int.shiftRight_eq_div_pow]
  omega

/-- `IDX(p)` (42_encoder.md R160). -/
def compressionIndex (p : Sample) : Fin 16384 :=
  ⟨((s16 p + 32768) >>> (2 : Nat)).toNat, compressionIndex_lt p⟩

/-- The code of a sample in a compression table (42_encoder.md R166). -/
def compressionOf (t : CompressionTable) (p : Sample) : Byte := t.get (compressionIndex p)

/-- The code of magnitude code `i` on the positive side, `i ^ 0xD5` (42_encoder.md R161). -/
def positiveCode (i : Nat) : Byte := BitVec.ofNat 8 i ^^^ 0xD5

/-- The code of magnitude code `i` on the negative side, `i ^ 0x55` (42_encoder.md R161). -/
def negativeCode (i : Nat) : Byte := BitVec.ofNat 8 i ^^^ 0x55

/-- The boundary `v = (v1 + v2 + 4) >> 3` between magnitude codes `i` and `i + 1` (42_encoder.md R161). -/
def boundary (i : Nat) : Nat :=
  ((expand (positiveCode i) + expand (positiveCode (i + 1)) + 4) >>> (3 : Nat)).toNat

/-- The compression table while it is built outwards from its centre (42_encoder.md R161): the loop
variable `j`, the entries `T[8192 - j + 1 .. 8191]` in rising order, and the entries
`T[8192 .. 8192 + j - 1]` in falling order. -/
structure Build where
  j : Nat
  below : List Byte
  above : List Byte

/-- The seed `T[8192] <- 0xD5` and `j <- 1` (42_encoder.md R161, R162). -/
def Build.seed : Build := ⟨1, [], [0xD5]⟩

/-- One round of a fill loop: `T[8192 - j]` and `T[8192 + j]` are written and `j` advances. -/
def Build.fill (i : Nat) (b : Build) : Build :=
  ⟨b.j + 1, negativeCode i :: b.below, positiveCode i :: b.above⟩

/-- `rounds` rounds of a fill loop with magnitude code `i`. -/
def Build.fills (i : Nat) : Nat → Build → Build
  | 0, b => b
  | rounds + 1, b => Build.fills i rounds (b.fill i)

/-- `while j < limit`: a round each, `limit - j` of them. -/
def Build.fillTo (i limit : Nat) (b : Build) : Build := Build.fills i (limit - b.j) b

/-- `for i in 0 .. 126` (42_encoder.md R161). -/
def Build.codes (b : Build) : Build :=
  (List.range 127).foldl (fun b i => b.fillTo i (boundary i)) b

/-- The build before the fix-up; `while j <= 8191` includes 8191 (42_encoder.md R163). -/
def Build.whole : Build := Build.seed.codes.fillTo 127 8192

/-- The entries of the build, `T[0] <- T[1]` first (42_encoder.md R164). -/
def Build.entries (b : Build) : List Byte := b.below.take 1 ++ b.below ++ b.above.reverse

theorem Build.fills_j (i rounds : Nat) (b : Build) : (Build.fills i rounds b).j = b.j + rounds := by
  induction rounds generalizing b with
  | zero => rfl
  | succ rounds ih => simp only [Build.fills, ih, Build.fill]; omega

theorem Build.fills_below (i rounds : Nat) (b : Build) :
    (Build.fills i rounds b).below.length = b.below.length + rounds := by
  induction rounds generalizing b with
  | zero => rfl
  | succ rounds ih => simp only [Build.fills, ih, Build.fill, List.length_cons]; omega

theorem Build.fills_above (i rounds : Nat) (b : Build) :
    (Build.fills i rounds b).above.length = b.above.length + rounds := by
  induction rounds generalizing b with
  | zero => rfl
  | succ rounds ih => simp only [Build.fills, ih, Build.fill, List.length_cons]; omega

/-- What the loops keep: both sides hold exactly the entries that `j` counts. -/
abbrev Build.Counted (b : Build) : Prop := b.j = b.below.length + 1 ∧ b.j = b.above.length

theorem Build.fillTo_counted (i limit : Nat) (b : Build) (h : b.Counted) :
    (b.fillTo i limit).Counted := by
  simp only [Build.Counted, Build.fillTo, Build.fills_j, Build.fills_below,
    Build.fills_above] at *
  omega

theorem Build.fillTo_j (i limit : Nat) (b : Build) : (b.fillTo i limit).j = max b.j limit := by
  simp only [Build.fillTo, Build.fills_j]; omega

theorem Build.foldl_counted (l : List Nat) (b : Build) (h : b.Counted) :
    (l.foldl (fun b i => b.fillTo i (boundary i)) b).Counted := by
  induction l generalizing b with
  | nil => exact h
  | cons i l ih => exact ih _ (Build.fillTo_counted i (boundary i) b h)

theorem Build.foldl_j (l : List Nat) (b : Build) :
    (l.foldl (fun b i => b.fillTo i (boundary i)) b).j = (l.map boundary).foldl max b.j := by
  induction l generalizing b with
  | nil => rfl
  | cons i l ih =>
    simp only [List.foldl_cons, List.map_cons, ih, Build.fillTo_j]

/-- The boundaries end at 7936 (42_encoder.md R161). -/
theorem boundaries_max : ((List.range 127).map boundary).foldl max 1 = 7936 := by decide +kernel

theorem Build.whole_j : Build.whole.j = 8192 := by
  simp only [Build.whole, Build.fillTo_j, Build.codes, Build.foldl_j, Build.seed, boundaries_max]
  decide

theorem Build.whole_counted : Build.whole.Counted :=
  Build.fillTo_counted _ _ _ (Build.foldl_counted _ _ (by decide))

theorem Build.whole_length : Build.whole.entries.length = 16384 := by
  have h := Build.whole_counted
  have hj := Build.whole_j
  simp only [Build.Counted] at h
  simp only [Build.entries, List.length_append, List.length_take, List.length_reverse]
  omega

/-- The compression table `BUILD_CTABLE` leaves (42_encoder.md R161). -/
def compressionTable : CompressionTable := ⟨⟨Build.whole.entries⟩, Build.whole_length⟩

/-! The same algorithm as array writes, letter for letter as 42_encoder.md R161 gives it, with the
starting value of `j` and the array's earlier contents as arguments (R162). No command uses it: it is
what `compressionTable` is compared with. -/

/-- The two writes of one round. -/
def arrayRound (i j : Nat) (t : CompressionTable) : CompressionTable :=
  (t.setIfInBounds (8192 - j) (negativeCode i)).setIfInBounds (8192 + j) (positiveCode i)

/-- `rounds` rounds from `j` on. -/
def arrayRounds (i : Nat) : Nat → Nat → CompressionTable → CompressionTable
  | 0, _, t => t
  | rounds + 1, j, t => arrayRounds i rounds (j + 1) (arrayRound i j t)

/-- `while j < limit`, with the value of `j` it leaves. -/
def arrayFillTo (i limit : Nat) (x : Nat × CompressionTable) : Nat × CompressionTable :=
  (max x.1 limit, arrayRounds i (limit - x.1) x.1 x.2)

/-- `BUILD_CTABLE(T)` with `j <- start` (42_encoder.md R161, R162). -/
def buildCTable (start : Nat) (t : CompressionTable) : CompressionTable :=
  let seeded := (start, t.setIfInBounds 8192 0xD5)
  let filled := (List.range 127).foldl (fun x i => arrayFillTo i (boundary i) x) seeded
  let whole := (arrayFillTo 127 8192 filled).2
  whole.setIfInBounds 0 (whole.get 1)

end Sys2Proof.Machine
end

