-- ==== Sys2Proof/Machine/Decoder.lean ====
section
/-! DEFINITION. The decoder unit's commands (41_decoder.md R131-R134). -/

namespace Sys2Proof.Machine

/-- One element of `DEC_DECODE` (41_decoder.md R133, 20_memory.md R55): read the code at `in + K`,
write its sample at `out + 2K`. -/
def decodeElement (slot : DecSlot) (s : State) : Progress :=
  match s.loadByte (s.inAddress + s.k) with
  | none => .stopped (s.raise .busError)
  | some c =>
    (s.store16 (s.outAddress + 2 * s.k) (expansionOf slot.table c)).andThen State.nextElement

/-- `DEC_CREATE` (41_decoder.md R131): the lowest free slot, or result 0 without one. -/
def State.decCreate (s : State) : State :=
  match firstFree s.dec with
  | none => s.complete 0
  | some i =>
    if s.drawFails then s.afterDraw.complete 0
    else
      ({ s.afterDraw with dec := s.dec.set i (s.newSlot expansionTable) } : State).complete
        (BitVec.ofNat 32 (i + 1))

/-- `DEC_DESTROY` (41_decoder.md R134). -/
def State.decDestroy (h : Nat) (s : State) : State :=
  match nameOf s.dec h with
  | .null => s.complete 0
  | .dead => s.raise .deadHandle
  | .live _ => ({ s with dec := release s.dec h } : State).complete 0

/-- The meaning of `DEC_CREATE`. -/
def execDecCreate (s : State) : Host.Outcome State Fault Refusal := .next s.decCreate

/-- The meaning of `DEC_DECODE` (41_decoder.md R133). -/
def execDecDecode (h : Nat) (s : State) : Host.Outcome State Fault Refusal :=
  .next (runPlan decodeElement (s.decodePlan h) s)

/-- The meaning of `DEC_DESTROY`. -/
def execDecDestroy (h : Nat) (s : State) : Host.Outcome State Fault Refusal :=
  .next (s.decDestroy h)

end Sys2Proof.Machine
end

