-- ==== Sys2Proof/Machine/Encoder.lean ====
section
/-! DEFINITION. The encoder unit's commands (42_encoder.md R165-R167). -/

namespace Sys2Proof.Machine

/-- One element of `ENC_ENCODE` (42_encoder.md R166, 20_memory.md R55): read the sample at
`in + 2K`, write its code at `out + K`. -/
def encodeElement (slot : EncSlot) (s : State) : Progress :=
  match s.load16 (s.inAddress + 2 * s.k) with
  | none => .stopped (s.raise .busError)
  | some p =>
    (s.storeByte (s.outAddress + s.k) (compressionOf slot.table p)).andThen State.nextElement

/-- `ENC_CREATE` (42_encoder.md R165): the lowest free slot, or result 0 without one. -/
def State.encCreate (s : State) : State :=
  match firstFree s.enc with
  | none => s.complete 0
  | some i =>
    if s.drawFails then s.afterDraw.complete 0
    else
      ({ s.afterDraw with enc := s.enc.set i (s.newSlot compressionTable) } : State).complete
        (BitVec.ofNat 32 (i + 1))

/-- `ENC_DESTROY` (42_encoder.md R167). -/
def State.encDestroy (h : Nat) (s : State) : State :=
  match nameOf s.enc h with
  | .null => s.complete 0
  | .dead => s.raise .deadHandle
  | .live _ => ({ s with enc := release s.enc h } : State).complete 0

/-- The meaning of `ENC_CREATE`. -/
def execEncCreate (s : State) : Host.Outcome State Fault Refusal := .next s.encCreate

/-- The meaning of `ENC_ENCODE` (42_encoder.md R166). -/
def execEncEncode (h : Nat) (s : State) : Host.Outcome State Fault Refusal :=
  .next (runPlan encodeElement (s.encodePlan h) s)

/-- The meaning of `ENC_DESTROY`. -/
def execEncDestroy (h : Nat) (s : State) : Host.Outcome State Fault Refusal :=
  .next (s.encDestroy h)

end Sys2Proof.Machine
end

