-- ==== Sys2Proof/Syntax.lean ====
section
/-! DEFINITION. The six commands of the block (30_encoding.md R81), one constructor for each row of
the opcode table. -/

namespace Sys2Proof

/-- A command. A create carries no handle (its `HANDLE` field must be zero, R80); a transform and a
destroy name an instance by its handle, 0 being the null instance (R82). -/
inductive Instr where
  /-- `ENC_CREATE` (42_encoder.md R165) -/
  | encCreate
  /-- `ENC_ENCODE` (42_encoder.md R166) -/
  | encEncode (h : Nat)
  /-- `ENC_DESTROY` (42_encoder.md R167) -/
  | encDestroy (h : Nat)
  /-- `DEC_CREATE` (41_decoder.md R131) -/
  | decCreate
  /-- `DEC_DECODE` (41_decoder.md R133) -/
  | decDecode (h : Nat)
  /-- `DEC_DESTROY` (41_decoder.md R134) -/
  | decDestroy (h : Nat)
  deriving DecidableEq, Repr

end Sys2Proof
end

