-- ==== Sys2Proof/Machine/Dispatch.lean ====
section
/-! DEFINITION. The one dispatch: each command of the opcode table to its meaning. -/

namespace Sys2Proof.Machine

/-- A command, from the state its start leaves to the state its end leaves (20_memory.md R68). -/
def exec (i : Instr) (s : State) : Host.Outcome State Fault Refusal :=
  match i with
  | .encCreate => Sys2Proof.Machine.execEncCreate s
  | .encEncode h => Sys2Proof.Machine.execEncEncode h s
  | .encDestroy h => Sys2Proof.Machine.execEncDestroy h s
  | .decCreate => Sys2Proof.Machine.execDecCreate s
  | .decDecode h => Sys2Proof.Machine.execDecDecode h s
  | .decDestroy h => Sys2Proof.Machine.execDecDestroy h s

end Sys2Proof.Machine
end

