-- ==== Sys2Proof/Machine/Flags.lean ====
section
/-! DEFINITION. The flags of the block are the fields of `STATUS` (10_state.md R26, R35): their values
and the register window's view of the state (10_state.md R22). -/

namespace Sys2Proof.Machine

/-- The cause code of 60_exceptions.md R201. -/
def Cause.code : Cause → BitVec 4
  | .illegalCommand => 1
  | .deadHandle => 2
  | .lengthOverflow => 3
  | .addressRange => 4
  | .busError => 5
  | .hostProtocol => 6

/-- `STATUS.BUSY` (10_state.md R26). -/
def State.busyFlag (s : State) : Bool := s.phase == .busy

/-- `STATUS.FAULT` (10_state.md R26). -/
def State.faultFlag (s : State) : Bool :=
  match s.phase with
  | .idle => false
  | .busy => false
  | .faulted _ => true

/-- `STATUS.CAUSE` (10_state.md R26): 0 unless `FAULT = 1`. -/
def State.causeField (s : State) : BitVec 4 :=
  match s.phase with
  | .idle => 0
  | .busy => 0
  | .faulted c => c.code

/-- `STATUS` (10_state.md R26): `[31:8]` zero, `CAUSE` in [7:4], [3:2] zero, `FAULT`, `BUSY`. -/
def State.status (s : State) : Word :=
  (0 : BitVec 24) ++ s.causeField ++ (0 : BitVec 2) ++ BitVec.ofBool s.faultFlag ++
    BitVec.ofBool s.busyFlag

/-- The registers of the window (10_state.md R22). -/
inductive Reg where
  | cmd
  | arg0
  | arg1
  | arg2
  | result
  | status
  | reserved
  deriving DecidableEq, Repr

/-- The register at a 4-byte-aligned offset (10_state.md R22); `0x18` to `0x3C` are reserved. -/
def regAt (offset : Fin 64) : Reg :=
  match offset.val with
  | 0x00 => .cmd
  | 0x04 => .arg0
  | 0x08 => .arg1
  | 0x0C => .arg2
  | 0x10 => .result
  | 0x14 => .status
  | _ => .reserved

/-- The value a host load of a register returns (10_state.md R22-R27). -/
def State.regValue (s : State) : Reg → Word
  | .cmd => s.cmd
  | .arg0 => s.arg0
  | .arg1 => s.arg1
  | .arg2 => s.arg2
  | .result => s.result
  | .status => s.status
  | .reserved => 0

end Sys2Proof.Machine
end

