-- ==== Sys2Proof/WellFormed.lean ====
section
/-! DEFINITION. Which commands have a command word, and which parameters a block may be built with. -/

namespace Sys2Proof

/-- A handle fits the eight bits of the `HANDLE` field (30_encoding.md R80). -/
def handleFits (h : Nat) : Bool := h < 256

/-- A command is well formed when its handle fits its field. -/
def Instr.wf : Instr → Bool
  | .encCreate => true
  | .encEncode h => handleFits h
  | .encDestroy h => handleFits h
  | .decCreate => true
  | .decDecode h => handleFits h
  | .decDestroy h => handleFits h

/-- `ADDR_WIDTH` lies in 16..32 (00_scope.md R7, 30_encoding.md R83). -/
def Params.wf (p : Params) : Bool := 16 ≤ p.addrWidth && p.addrWidth ≤ 32

/-- A slot count lies in 1..255 (00_scope.md R7). -/
def slotCountFits (n : Nat) : Bool := 1 ≤ n && n ≤ 255

end Sys2Proof
end

