-- ==== Sys2Proof/Decode.lean ====
section
/-! DEFINITION. The command word (30_encoding.md R80-R85): the decoder, total on all 2^32 words and
rejecting by name, then the encoder, both written from the field table of R80. -/

namespace Sys2Proof

/-- Why a word is illegal (30_encoding.md R84). Whatever the reason, the block raises
`ILLEGAL_COMMAND` (60_exceptions.md R210). -/
inductive DecodeError where
  /-- `FN = 00` -/
  | reservedFn
  /-- a bit of [7:3] or of [31:16] is 1 -/
  | reservedBits
  /-- a create with a non-zero `HANDLE` -/
  | handleOnCreate
  deriving DecidableEq, Repr

/-- `FN`, bits [1:0] (R80). -/
def fieldFn (w : Word) : BitVec 2 := w.extractLsb' 0 2

/-- `UNIT`, bit [2] (R80): 0 encoder, 1 decoder. -/
def fieldUnit (w : Word) : BitVec 1 := w.extractLsb' 2 1

/-- Reserved bits [7:3] (R80). -/
def fieldLowReserved (w : Word) : BitVec 5 := w.extractLsb' 3 5

/-- `HANDLE`, bits [15:8] (R80). -/
def fieldHandle (w : Word) : Byte := w.extractLsb' 8 8

/-- Reserved bits [31:16] (R80). -/
def fieldHighReserved (w : Word) : BitVec 16 := w.extractLsb' 16 16

/-- A create is legal only with `HANDLE = 0x00` (R80, R84). -/
def decodeCreate (w : Word) (i : Instr) : Except DecodeError Instr :=
  if fieldHandle w = 0 then .ok i else .error .handleOnCreate

/-- The opcode map `{UNIT, FN}` of R81, for a word whose reserved bits are zero. -/
def decodeOpcode (w : Word) : Except DecodeError Instr :=
  let h := (fieldHandle w).toNat
  if fieldFn w = 0b01 then
    decodeCreate w (if fieldUnit w = 0 then .encCreate else .decCreate)
  else if fieldFn w = 0b10 then
    .ok (if fieldUnit w = 0 then .encEncode h else .decDecode h)
  else if fieldFn w = 0b11 then
    .ok (if fieldUnit w = 0 then .encDestroy h else .decDestroy h)
  else
    .error .reservedFn

/-- The decoder: every word is one of the six commands or illegal (R84). -/
def decode (w : Word) : Except DecodeError Instr :=
  if fieldLowReserved w = 0 ∧ fieldHighReserved w = 0 then decodeOpcode w
  else .error .reservedBits

/-- A word assembled from its fields (R80): `0000000000000000 hhhhhhhh 00000 u ff`. -/
def packWord (handle : Nat) (unit : BitVec 1) (fn : BitVec 2) : Word :=
  (0 : BitVec 16) ++ BitVec.ofNat 8 handle ++ (0 : BitVec 5) ++ unit ++ fn

/-- The encoder: the command word of each command (R81). -/
def encode : Instr → Word
  | .encCreate => packWord 0 0 0b01
  | .encEncode h => packWord h 0 0b10
  | .encDestroy h => packWord h 0 0b11
  | .decCreate => packWord 0 1 0b01
  | .decDecode h => packWord h 1 0b10
  | .decDestroy h => packWord h 1 0b11

/-- The decoder as a partial map, the reason for a rejection dropped. -/
def decodeOption (w : Word) : Option Instr :=
  match decode w with
  | .ok i => some i
  | .error _ => none

/-- The decoder on a word numbered as the opcode table numbers it; bits above `nbits` are 0.
A command is one 32-bit register value (R85), so no byte order enters. -/
def decodeTableWord (nbits w : Nat) : Option Instr :=
  decodeOption (BitVec.ofNat 32 (w % 2 ^ nbits))

/-- One row of the opcode table: a word `w` is the row's when `w &&& mask = pattern`. -/
structure OpcodeRow where
  mnemonic : String
  pattern : Word
  mask : Word
  deriving DecidableEq, Repr

/-- The opcode table (spec/opcode_table.json), as its rows stand there. -/
def opcodeTable : List OpcodeRow :=
  [⟨"ENC_CREATE", 0x00000001, 0xFFFFFFFF⟩,
   ⟨"ENC_ENCODE", 0x00000002, 0xFFFF00FF⟩,
   ⟨"ENC_DESTROY", 0x00000003, 0xFFFF00FF⟩,
   ⟨"DEC_CREATE", 0x00000005, 0xFFFFFFFF⟩,
   ⟨"DEC_DECODE", 0x00000006, 0xFFFF00FF⟩,
   ⟨"DEC_DESTROY", 0x00000007, 0xFFFF00FF⟩]

/-- A word is of a row. -/
def OpcodeRow.matches (r : OpcodeRow) (w : Word) : Bool := w &&& r.mask == r.pattern

/-- The table's name of a command. -/
def Instr.mnemonic : Instr → String
  | .encCreate => "ENC_CREATE"
  | .encEncode _ => "ENC_ENCODE"
  | .encDestroy _ => "ENC_DESTROY"
  | .decCreate => "DEC_CREATE"
  | .decDecode _ => "DEC_DECODE"
  | .decDestroy _ => "DEC_DESTROY"

end Sys2Proof
end

