-- ==== Sys2Proof/Machine/Sequencer.lean ====
section
/-! DEFINITION. The block's own steps while a command is in flight (10_state.md R21, R29): a command
runs element by element, so that a host access or a reset can land between two elements
(60_exceptions.md R203, 70_reset_and_hazards.md R240). -/

namespace Sys2Proof.Machine

/-- One block step of a command. A create and a destroy are one step; a transform has one step for
each element and one for its end. -/
def commandStep (i : Instr) (s : State) : State :=
  match i with
  | .encCreate => s.encCreate
  | .encEncode h => stepPlan encodeElement (s.encodePlan h) s
  | .encDestroy h => s.encDestroy h
  | .decCreate => s.decCreate
  | .decDecode h => stepPlan decodeElement (s.decodePlan h) s
  | .decDestroy h => s.decDestroy h

/-- One step of the block: while `BUSY` it carries on the command latched in `LCMD`, an illegal word
raising its fault before any other check (30_encoding.md R84); in the other phases it does nothing
(60_exceptions.md R204, R218). -/
def State.blockStep (s : State) : State :=
  match s.phase with
  | .idle => s
  | .faulted _ => s
  | .busy =>
    match decode s.lcmd with
    | .error _ => s.raise .illegalCommand
    | .ok i => commandStep i s

/-- `m` block steps. -/
def State.blockSteps : Nat → State → State
  | 0, s => s
  | m + 1, s => State.blockSteps m s.blockStep

/-- An address lies in a buffer. -/
def inBuffer (base bytes a : Nat) : Bool := base ≤ a && a < base + bytes

/-- The address is an input or output byte of the command in flight (20_memory.md R63). -/
def State.busyByte (s : State) (a : Nat) : Bool :=
  match s.phase, decode s.lcmd with
  | .busy, .ok (.encEncode h) =>
    match s.encodePlan h with
    | .loop _ n _ => inBuffer s.inAddress (2 * n) a || inBuffer s.outAddress n a
    | .fault _ => false
    | .done _ => false
  | .busy, .ok (.decDecode h) =>
    match s.decodePlan h with
    | .loop _ n _ => inBuffer s.inAddress n a || inBuffer s.outAddress (2 * n) a
    | .fault _ => false
    | .done _ => false
  | _, _ => false

end Sys2Proof.Machine
end

