-- ==== Sys2Proof/Machine/HostPort.lean ====
section
/-! DEFINITION. What a host access does: loads and stores in the register window (10_state.md R22-R28,
60_exceptions.md R204, R206) and in host memory (20_memory.md R50, R63). -/

namespace Sys2Proof.Machine

/-- A register access is a 32-bit access at a 4-byte-aligned offset (10_state.md R28). -/
def goodAccess (size : Nat) (offset : Fin 64) : Bool := size == 4 && offset.val % 4 == 0

/-- `Fault(HOST_PROTOCOL)` by a host access (60_exceptions.md R206); a block that is already faulted is
left as it is (10_state.md R28, 60_exceptions.md R204). -/
def State.protocolError (s : State) : State :=
  match s.phase with
  | .faulted _ => s
  | .idle => s.raise .hostProtocol
  | .busy => s.raise .hostProtocol

/-- A store to `CMD` (10_state.md R23). -/
def State.storeCmd (v : Word) (s : State) : State :=
  match s.phase with
  | .idle => s.start v
  | .busy => s.raise .hostProtocol
  | .faulted _ => s

/-- A store to an `ARG` register (10_state.md R24): `put` writes it, in the phase `IDLE` only. DESIGN
CHOICE (log entry 27): while `BUSY` the spec says only that the store raises `HOST_PROTOCOL`, and here the
register keeps its value. -/
def State.storeArg (put : State → State) (s : State) : State :=
  match s.phase with
  | .idle => put s
  | .busy => s.raise .hostProtocol
  | .faulted _ => s

/-- A 32-bit store to a register (10_state.md R22-R27): `RESULT`, `STATUS` and the reserved offsets
ignore it. -/
def State.storeReg (r : Reg) (v : Word) (s : State) : State :=
  match r with
  | .cmd => s.storeCmd v
  | .arg0 => s.storeArg (fun s => { s with arg0 := v })
  | .arg1 => s.storeArg (fun s => { s with arg1 := v })
  | .arg2 => s.storeArg (fun s => { s with arg2 := v })
  | .result => s
  | .status => s
  | .reserved => s

/-- A host store in the register window. DESIGN CHOICE (log entry 27): one of the wrong width or at a
misaligned offset, of which the spec says only that it raises `HOST_PROTOCOL`, writes no register. -/
def State.hostStore (size : Nat) (offset : Fin 64) (v : Word) (s : State) : State :=
  if goodAccess size offset then s.storeReg (regAt offset) v else s.protocolError

/-- A host load in the register window: it changes nothing of the block (10_state.md R28, 60_exceptions.md
R206). DESIGN CHOICE (log entry 14): the spec gives no value for a load of the wrong width or at a
misaligned offset, and here `readData` keeps the value of the load before it. -/
def State.hostLoad (size : Nat) (offset : Fin 64) (s : State) : State :=
  if goodAccess size offset then { s with readData := s.regValue (regAt offset) }
  else s.protocolError

/-- A host access to one byte of host memory, `go` being what it does there. A byte access that falls
in the register window is a register access of the wrong width (10_state.md R28, log entry 23): one that
loads leaves `readData` as it is (log entry 14), one that stores writes no register (log entry 27). The
three stops are those of log entries 9 and 10. -/
def State.hostByte (d : Dir) (a : Nat) (go : State → State) (s : State) :
    Host.Outcome State Fault Refusal :=
  if s.params.inWindow a then .next s.protocolError
  else if s.params.memorySize ≤ a then .fault (.noSuchAddress a)
  else if !s.params.admits a d then .fault (.platformRefuses a)
  else if s.busyByte a then .fault (.bufferRace a)
  else .next (go s)

/-- A host store of one byte. -/
def State.hostMemWrite (a : Nat) (v : Byte) (s : State) : Host.Outcome State Fault Refusal :=
  s.hostByte .write a (fun s => { s with mem := s.mem.write a v })

/-- A host load of one byte, its value zero-extended into the model's `readData`. -/
def State.hostMemRead (a : Nat) (s : State) : Host.Outcome State Fault Refusal :=
  s.hostByte .read a (fun s => { s with readData := (s.mem.read a).setWidth 32 })

/-- What is left of the port when a host program ends (30_encoding.md R87): the program's further lines
go; a reset, and what comes after it, still arrives (log entry 12). -/
def endProgram : List Input → List Input
  | [] => []
  | .reset :: rest => .reset :: rest
  | _ :: rest => endProgram rest

/-- One poll of `WAIT` (30_encoding.md R86, R87), `rest` being the port behind it. While `BUSY = 1` the
`WAIT` stays and the block moves; `FAULT = 1` ends the host program. -/
def State.poll (rest : List Input) (s : State) : State :=
  match s.phase with
  | .idle => { s with readData := s.status, port := rest }
  | .busy => State.blockStep { s with readData := s.status }
  | .faulted _ => { s with readData := s.status, port := endProgram rest }

end Sys2Proof.Machine
end

