-- ==== Sys2Proof/Machine/Command.lean ====
section
/-! DEFINITION. A command as one atomic step (20_memory.md R68), and one step of the whole system: the
next event at the port, or the block's own step when none is pending. -/

namespace Sys2Proof.Machine

/-- A started command runs to its end: the latched word is decoded and executed, or it is illegal and
raises its fault (30_encoding.md R84). -/
def State.runStarted (w : Word) (s : State) : Host.Outcome State Fault Refusal :=
  match decode w with
  | .error _ => .next (s.raise .illegalCommand)
  | .ok i => exec i s

/-- A store to `CMD` whose command, where the store starts one, runs as one atomic step. -/
def State.runCommand (w : Word) (s : State) : Host.Outcome State Fault Refusal :=
  match s.phase with
  | .idle => (s.start w).runStarted w
  | .busy => .next (s.raise .hostProtocol)
  | .faulted _ => .next s

/-- One event at the port; `s` is the state with the event taken off it. -/
def State.serve (s : State) : Input → Host.Outcome State Fault Refusal
  | .write size offset v => .next (s.hostStore size offset v)
  | .read size offset => .next (s.hostLoad size offset)
  | .memWrite a v => s.hostMemWrite a v
  | .memRead a => s.hostMemRead a
  | .wait => .next (State.poll s.port { s with port := .wait :: s.port })
  | .command w => s.runCommand w
  | .blockTurn => .next s.blockStep
  | .reset => .next s.applyReset

/-- One step of the system (log entry 6). -/
def State.advance (s : State) : Host.Outcome State Fault Refusal :=
  match s.port with
  | [] => .next s.blockStep
  | e :: rest => State.serve { s with port := rest } e

/-- The port with a command word as the next event, numbered as the opcode table numbers it. -/
def State.issueNext (nbits w : Nat) (s : State) : State :=
  { s with port := .command (BitVec.ofNat 32 (w % 2 ^ nbits)) :: s.port }

end Sys2Proof.Machine
end

