-- ==== Sys2Proof/Machine/Step.lean ====
section
/-! DEFINITION. The machine's step, and how one command word is made the next to run. -/

namespace Sys2Proof.Machine

/-- One step of the system. -/
def step (s : State) : Host.Outcome State Fault Refusal := s.advance

/-- The state whose next step runs the command with that word: the block fetches nothing (10_state.md
R21), so the word is put at the head of the port as a host's store to `CMD` (log entry 8). -/
def State.withFetchWord (s : State) (nbits w : Nat) : State := s.issueNext nbits w

end Sys2Proof.Machine
end

