-- ==== Sys2Proof/Machine/Script.lean ====
section
/-! DEFINITION. The host script (30_encoding.md R86, R87): its lines as port events, and the six
pseudo-instructions as the lines they expand to. -/

namespace Sys2Proof.Machine

/-- The offset of a register (10_state.md R22); `reserved` stands for the first reserved offset. -/
def Reg.offset : Reg → Fin 64
  | .cmd => 0x00
  | .arg0 => 0x04
  | .arg1 => 0x08
  | .arg2 => 0x0C
  | .result => 0x10
  | .status => 0x14
  | .reserved => 0x18

/-- A script's value as a register word (30_encoding.md R86): a negative decimal stands for its 32-bit
two's-complement pattern. DESIGN CHOICE (log entry 25): the rule gives no pattern for a value that 32
bits do not hold, above `0xFFFFFFFF` or below `-2^31`, and here it is taken modulo `2^32`. -/
def scriptValue (v : Int) : Word := BitVec.ofInt 32 v

/-- `WRITE <reg>, <value>` (30_encoding.md R86). -/
def lineWrite (r : Reg) (v : Word) : Input := .write 4 r.offset v

/-- `READ <reg>` (30_encoding.md R86). -/
def lineRead (r : Reg) : Input := .read 4 r.offset

/-- The word `(h << 8) | op` of a pseudo-instruction (30_encoding.md R87). -/
def handleWord (h : Nat) (op : Word) : Word := (BitVec.ofNat 32 h <<< 8) ||| op

/-- `ENC_CREATE rate, ch` (30_encoding.md R87). -/
def scriptEncCreate (rate ch : Word) : List Input :=
  [lineWrite .arg0 rate, lineWrite .arg1 ch, lineWrite .cmd 0x00000001, .wait, lineRead .result]

/-- `ENC_ENCODE h, in, len, out` (30_encoding.md R87). -/
def scriptEncEncode (h : Nat) (inp len out : Word) : List Input :=
  [lineWrite .arg0 inp, lineWrite .arg1 len, lineWrite .arg2 out,
    lineWrite .cmd (handleWord h 0x02), .wait, lineRead .result]

/-- `ENC_DESTROY h` (30_encoding.md R87). -/
def scriptEncDestroy (h : Nat) : List Input := [lineWrite .cmd (handleWord h 0x03), .wait]

/-- `DEC_CREATE rate, ch` (30_encoding.md R87). -/
def scriptDecCreate (rate ch : Word) : List Input :=
  [lineWrite .arg0 rate, lineWrite .arg1 ch, lineWrite .cmd 0x00000005, .wait, lineRead .result]

/-- `DEC_DECODE h, in, len, out` (30_encoding.md R87). -/
def scriptDecDecode (h : Nat) (inp len out : Word) : List Input :=
  [lineWrite .arg0 inp, lineWrite .arg1 len, lineWrite .arg2 out,
    lineWrite .cmd (handleWord h 0x06), .wait, lineRead .result]

/-- `DEC_DESTROY h` (30_encoding.md R87). -/
def scriptDecDestroy (h : Nat) : List Input := [lineWrite .cmd (handleWord h 0x07), .wait]

end Sys2Proof.Machine
end

