-- ==== Sys2Proof/Safety.lean ====
section
/-! DEFINITION. The terms in which claims are stated: what a handle names, the invariant of a state,
what a safe run is, and the spec's own closed forms for what a transform leaves in memory. -/

namespace Sys2Proof.Machine

/-! ## Illegal words and handles -/

/-- A command word is illegal (30_encoding.md R84), by the bits of the word. -/
def illegalWord (w : Word) : Prop :=
  w.extractLsb' 0 2 = 0 ∨ w.extractLsb' 3 5 ≠ 0 ∨ w.extractLsb' 16 16 ≠ 0 ∨
    (w.extractLsb' 0 2 = 1 ∧ w.extractLsb' 8 8 ≠ 0)

/-- The slot a handle names, whether live or not (30_encoding.md R82). -/
def slotOf {τ : Type} (slots : List (Slot τ)) (h : Nat) : Option (Slot τ) :=
  if h = 0 then none else slots[h - 1]?

/-- The handle names this live slot. -/
def LiveAt {τ : Type} (slots : List (Slot τ)) (h : Nat) (x : Slot τ) : Prop :=
  slotOf slots h = some x ∧ x.live = true

/-- The handle is dead for the unit (60_exceptions.md R202): it is not zero, and it exceeds the slot
count or names a slot that is not live. -/
def DeadAt {τ : Type} (slots : List (Slot τ)) (h : Nat) : Prop :=
  h ≠ 0 ∧ (slots.length < h ∨ ∃ x, slotOf slots h = some x ∧ x.live = false)

/-- The handle is the lowest-numbered free slot of the unit (41_decoder.md R131). -/
def LowestFree {τ : Type} (slots : List (Slot τ)) (h : Nat) : Prop :=
  (∃ x, slotOf slots h = some x ∧ x.live = false) ∧
    ∀ h', 1 ≤ h' → h' < h → ∃ x, LiveAt slots h' x

/-- A command of the encoder unit (`UNIT = 0`, 30_encoding.md R81). -/
def isEncoderCommand : Instr → Bool
  | .encCreate => true
  | .encEncode _ => true
  | .encDestroy _ => true
  | .decCreate => false
  | .decDecode _ => false
  | .decDestroy _ => false

/-- A transform (`FN = 10`, 30_encoding.md R81). -/
def isTransform : Instr → Bool
  | .encCreate => false
  | .encEncode _ => true
  | .encDestroy _ => false
  | .decCreate => false
  | .decDecode _ => true
  | .decDestroy _ => false

/-- The next step runs this command: its word is at the head of an idle block's port, to run as one
atomic step, or the block is busy with it. -/
def RunsNow (i : Instr) (s : State) : Prop :=
  (∃ w, s.port.head? = some (.command w) ∧ s.phase = .idle ∧ decode w = .ok i) ∨
    (s.phase = .busy ∧ decode s.lcmd = .ok i)

/-- The next event is a host access that `HOST_PROTOCOL` is for (60_exceptions.md R206): a store to
`CMD` or an `ARG` register (offsets below `0x10`) while `BUSY`, or an access to the register window
that is not a 32-bit access at a 4-byte-aligned offset. -/
def ViolatesProtocol (s : State) : Prop :=
  match s.port.head? with
  | some (.write size offset _) =>
    ¬ (size = 4 ∧ offset.val % 4 = 0) ∨ (s.phase = .busy ∧ offset.val < 0x10)
  | some (.read size offset) => ¬ (size = 4 ∧ offset.val % 4 = 0)
  | some (.command _) => s.phase = .busy
  | some (.memRead a) => s.params.inWindow a = true
  | some (.memWrite a _) => s.params.inWindow a = true
  | some .wait => False
  | some .blockTurn => False
  | some .reset => False
  | none => False

/-- Two states that differ at most in what 10_state.md R33 says no operation reads: the stored sample
rates, and the encoder slots' channel counts. -/
def SameButUnread (s t : State) : Prop :=
  t = { s with enc := t.enc, dec := t.dec } ∧
    List.Forall₂ (fun x y => x.live = y.live ∧ x.table = y.table) s.enc t.enc ∧
    List.Forall₂ (fun x y => x.live = y.live ∧ x.channels = y.channels ∧ x.table = y.table)
      s.dec t.dec

/-! ## The invariant -/

/-- Host memory is in canonical form and lists only addresses that exist (20_memory.md R50). -/
def MemoryInv (s : State) : Prop :=
  s.mem.wf = true ∧ s.mem.within s.params.memorySize = true

/-- Every live slot holds the table its create built (41_decoder.md R130, 42_encoder.md R160). -/
def TablesInv (s : State) : Prop :=
  (∀ x ∈ s.enc, x.live = true → x.table = compressionTable) ∧
    ∀ x ∈ s.dec, x.live = true → x.table = expansionTable

/-- `K` and `N` are 32-bit counts (10_state.md R21). -/
def CountersInv (s : State) : Prop := s.k < 2 ^ 32 ∧ s.n < 2 ^ 32

/-- The parameters are those a block can have (00_scope.md R7). -/
def ParamsInv (s : State) : Prop :=
  s.params.wf = true ∧ slotCountFits s.enc.length = true ∧ slotCountFits s.dec.length = true

/-- The invariant of the machine. -/
structure State.Inv (s : State) : Prop where
  memory : MemoryInv s
  tables : TablesInv s
  counters : CountersInv s
  params : ParamsInv s

/-! ## Safe runs -/

/-- No fault is recorded (10_state.md R26). -/
def NotFaulted (s : State) : Prop := ∀ c, s.phase ≠ .faulted c

/-- A safe run of `m` steps: the step never stops, and no fault is recorded on the way. A claim about
a host program must show that it is safe (60_exceptions.md, opening). -/
def SafeRun : Nat → State → Prop
  | 0, s => NotFaulted s
  | m + 1, s => NotFaulted s ∧ ∃ t, step s = .next t ∧ SafeRun m t

/-! ## What a transform leaves in memory, element by element (20_memory.md R55) -/

/-- The sample at an address of a memory (20_memory.md R54). -/
def sampleAt (e : Endian) (m : Memory) (a : Nat) : Sample := joinSample e (m.read a) (m.read (a + 1))

/-- Host memory after the first elements of an encode (42_encoder.md R166): `K = 0, 1, ..`, the read
before the write. -/
def encodedUpTo (t : CompressionTable) (s : State) : Nat → Memory
  | 0 => s.mem
  | k + 1 =>
    (encodedUpTo t s k).write (s.outAddress + k)
      (compressionOf t
        (sampleAt s.params.sampleEndian (encodedUpTo t s k) (s.inAddress + 2 * k)))

/-- The code element `k` of a decode reads (41_decoder.md R136), given the memory it finds. -/
def codeRead (s : State) (m : Memory) (k : Nat) : Byte := m.read (s.inAddress + k)

/-- Host memory after the first elements of a decode (41_decoder.md R133). -/
def decodedUpTo (t : ExpansionTable) (s : State) : Nat → Memory
  | 0 => s.mem
  | k + 1 =>
    let m := decodedUpTo t s k
    let p := expansionOf t (codeRead s m k)
    (m.write (s.outAddress + 2 * k) (lowerByte s.params.sampleEndian p)).write
      (s.outAddress + 2 * k + 1) (higherByte s.params.sampleEndian p)

/-- The element count of an encode, `len / 2` (42_encoder.md R166). -/
def encodeCount (s : State) : Nat := (s.lengthOperand / 2).toNat

/-- The element count of a decode, `FRAME_LEN(len, channels)` (41_decoder.md R133). -/
def decodeCount (x : DecSlot) (s : State) : Nat :=
  (frameLen s.lengthOperand x.channels.toInt).toNat

/-- The memory admits every access of one element of an encode (20_memory.md R55, R58). -/
def EncodeElementAdmitted (s : State) (k : Nat) : Prop :=
  s.params.admits (s.inAddress + 2 * k) .read = true ∧
    s.params.admits (s.inAddress + 2 * k + 1) .read = true ∧
    s.params.admits (s.outAddress + k) .write = true

/-- The memory admits every access of one element of a decode. -/
def DecodeElementAdmitted (s : State) (k : Nat) : Prop :=
  s.params.admits (s.inAddress + k) .read = true ∧
    s.params.admits (s.outAddress + 2 * k) .write = true ∧
    s.params.admits (s.outAddress + 2 * k + 1) .write = true

/-- The arguments of a transform are valid (60_exceptions.md R200): no null buffer, a positive length. -/
def GoodArguments (s : State) : Prop :=
  s.inAddress ≠ 0 ∧ s.outAddress ≠ 0 ∧ 0 < s.lengthOperand

/-- A buffer lies below `2^ADDR_WIDTH` (20_memory.md R57). -/
def BufferFits (s : State) (base bytes : Nat) : Prop := base + bytes ≤ 2 ^ s.params.addrWidth

/-- The address is an input or output byte of an encode (20_memory.md R63). -/
def InEncodeBuffers (s : State) (a : Nat) : Prop :=
  (s.inAddress ≤ a ∧ a < s.inAddress + 2 * encodeCount s) ∨
    (s.outAddress ≤ a ∧ a < s.outAddress + encodeCount s)

/-- The address is an input or output byte of a decode with that slot (20_memory.md R63). -/
def InDecodeBuffers (x : DecSlot) (s : State) (a : Nat) : Prop :=
  (s.inAddress ≤ a ∧ a < s.inAddress + decodeCount x s) ∨
    (s.outAddress ≤ a ∧ a < s.outAddress + 2 * decodeCount x s)

/-- The block is busy with a transform of a live instance, and the address is one of its input or output
bytes: the bytes that 20_memory.md R63 forbids the hosts. -/
def InBusyBuffers (s : State) (a : Nat) : Prop :=
  s.phase = .busy ∧
    ((∃ h x, decode s.lcmd = .ok (.encEncode h) ∧ LiveAt s.enc h x ∧ InEncodeBuffers s a) ∨
      ∃ h x, decode s.lcmd = .ok (.decDecode h) ∧ LiveAt s.dec h x ∧ InDecodeBuffers x s a)

/-- The next step is a step of the block's own: no event is pending, or the next one is its turn. -/
def BlockMovesNext (s : State) : Prop := s.port = [] ∨ s.port.head? = some .blockTurn

/-! ## The spec's closed form of the compression table (42_encoder.md R168) -/

/-- `mag(i)` of a magnitude code `i` (40_expansion.md R111, R113). -/
def magnitude (i : Nat) : Nat :=
  if i / 16 = 0 then (2 * (i % 16) + 1) * 8 else (2 * (i % 16) + 33) * 2 ^ (i / 16 + 2)

/-- `V[i] = (mag(i) + mag(i + 1) + 4) >> 3`. -/
def boundaryV (i : Nat) : Nat := (magnitude i + magnitude (i + 1) + 4) / 8

/-- `I(j)`: `c` is the least `i` in `0..126` with `j < V[i]`, or 127 when there is none. -/
def IsMagnitudeCode (j c : Nat) : Prop :=
  c ≤ 127 ∧ (∀ i, i < c → boundaryV i ≤ j) ∧ (c < 127 → j < boundaryV c)

/-- The encoder's code of a sample, `ENC(s)` (42_encoder.md R169). -/
def encodeSample (p : Sample) : Byte := compressionOf compressionTable p

/-- The segment of a code, `(a ^ 0x55)[6:4]` (40_expansion.md R110). -/
def segmentOf (a : Byte) : Nat := ((a ^^^ 0x55).extractLsb' 4 3).toNat

/-- The mantissa of a code, `(a ^ 0x55)[3:0]` (40_expansion.md R110). -/
def mantissaOf (a : Byte) : Nat := ((a ^^^ 0x55).extractLsb' 0 4).toNat

/-- The magnitude code of a code, `(a ^ 0x55)[6:0]` (40_expansion.md R113). -/
def magnitudeCodeOf (a : Byte) : Nat := ((a ^^^ 0x55).extractLsb' 0 7).toNat

/-- The largest round-trip error of each segment (42_encoder.md R169). -/
def largestError : Nat → Nat
  | 0 => 11
  | 1 => 11
  | 2 => 23
  | 3 => 47
  | 4 => 95
  | 5 => 191
  | 6 => 383
  | _ => 515

end Sys2Proof.Machine
end

