-- ==== Sys2Proof/Certificates/Slice0/Obligations.lean ====
section
/-! DEFINITION. The statements for the provers. Each docstring names the rules of the spec it rests
on; OBLIGATIONS.json gives each its number, tier and basis. -/

open Sys2Proof Sys2Proof.Machine

/-! ## The command word -/

/-- The encoder loses nothing: every command comes back from its own word, with its handle at every
value the field admits (30_encoding.md R80, R81). -/
def Obligations.EveryCommandDecodesFromItsWord : Prop :=
  ∀ i : Instr, i.wf = true → decode (encode i) = .ok i

/-- The decoder ignores no bit: a word that decodes is the encoding of what it decodes to
(30_encoding.md R80, R84). -/
def Obligations.DecodedWordIsItsEncoding : Prop :=
  ∀ (w : Word) (i : Instr), decode w = .ok i → i.wf = true ∧ encode i = w

/-- 30_encoding.md R84 and 60_exceptions.md R210: which words are illegal; every other word is of
exactly one row of the opcode table; an illegal word written to `CMD` starts the command sequence and
raises `ILLEGAL_COMMAND`, whether the command runs as one step or by block steps. -/
def Obligations.IllegalWordsFaultAndOthersAreOneCommand : Prop :=
  (∀ w, illegalWord w ↔ ∃ e, decode w = .error e) ∧
  (∀ w, ¬ illegalWord w → ∃ r ∈ opcodeTable, r.matches w = true ∧
    ∀ r' ∈ opcodeTable, r'.matches w = true → r' = r) ∧
  (∀ w, illegalWord w → ∀ r ∈ opcodeTable, r.matches w = false) ∧
  ∀ (s : State) (w : Word) (rest : List Input), s.phase = .idle → illegalWord w →
    step { s with port := .command w :: rest } =
      .next { s with port := rest, cmd := w, lcmd := w, larg0 := s.arg0, larg1 := s.arg1,
                     larg2 := s.arg2, k := 0, phase := .faulted .illegalCommand } ∧
    ∃ t, step { s with port := .write 4 0 w :: .blockTurn :: rest } = .next t ∧
      t.phase = .busy ∧
      step t =
        .next { s with port := rest, cmd := w, lcmd := w, larg0 := s.arg0, larg1 := s.arg1,
                       larg2 := s.arg2, k := 0, phase := .faulted .illegalCommand }

/-- 30_encoding.md R81: a word is of a row of the opcode table exactly when it decodes to that row's
command. -/
def Obligations.DecoderAgreesWithTheOpcodeTable : Prop :=
  ∀ (w : Word) (r : OpcodeRow), r ∈ opcodeTable →
    (r.matches w = true ↔ ∃ i, decode w = .ok i ∧ i.mnemonic = r.mnemonic)

/-- Words written out from the format of 30_encoding.md R80 and R81, one for each command, and the
illegal words of the test vectors F-1 to F-4. -/
def Obligations.WrittenOutWordsDecode : Prop :=
  decode 0b00000000000000000000000000000001 = .ok .encCreate ∧
  decode 0b00000000000000001010000100000010 = .ok (.encEncode 0xA1) ∧
  decode 0b00000000000000000000001000000011 = .ok (.encDestroy 2) ∧
  decode 0b00000000000000000000000000000101 = .ok .decCreate ∧
  decode 0b00000000000000001111111100000110 = .ok (.decDecode 255) ∧
  decode 0b00000000000000000000000100000111 = .ok (.decDestroy 1) ∧
  decode 0x00000000 = .error .reservedFn ∧
  decode 0x0000000A = .error .reservedBits ∧
  decode 0x00000101 = .error .handleOnCreate ∧
  decode 0x00010002 = .error .reservedBits

/-! ## Steps -/

/-- A step runs the decoded command: a command word at the head of an idle block's port starts (R29:
the latches, `K = 0`, `BUSY`) and `exec` gives the step's outcome (20_memory.md R68). The port and the
atomic step are the model's form (log entries 6, 7 and 8). -/
def Obligations.StepRunsDecodedCommand : Prop :=
  (∀ (s : State) (w : Word) (i : Instr) (rest : List Input), s.phase = .idle →
    s.port = .command w :: rest → decode w = .ok i →
    step s = exec i { s with port := rest, cmd := w, lcmd := w, larg0 := s.arg0, larg1 := s.arg1,
                             larg2 := s.arg2, k := 0, phase := .busy }) ∧
  ∀ (s : State) (w : Word) (i : Instr), s.phase = .idle → decode w = .ok i →
    step (s.withFetchWord 32 w.toNat) =
      exec i { s with cmd := w, lcmd := w, larg0 := s.arg0, larg1 := s.arg1, larg2 := s.arg2,
                      k := 0, phase := .busy }

/-- 10_state.md R23: a 32-bit store to offset 0 starts a command in the phase `IDLE`, raises
`HOST_PROTOCOL` in `BUSY` and is ignored in `FAULTED`; and no other event makes an idle block busy. -/
def Obligations.OnlyACmdStoreStartsACommand : Prop :=
  (∀ (s : State) (w : Word) (rest : List Input), s.port = .write 4 0 w :: rest →
    (s.phase = .idle →
      step s = .next { s with port := rest, cmd := w, lcmd := w, larg0 := s.arg0, larg1 := s.arg1,
                              larg2 := s.arg2, k := 0, phase := .busy }) ∧
    (s.phase = .busy → step s = .next { s with port := rest, phase := .faulted .hostProtocol }) ∧
    (∀ c, s.phase = .faulted c → step s = .next { s with port := rest })) ∧
  ∀ s t : State, s.phase = .idle → step s = .next t → t.phase = .busy →
    ∃ w rest, s.port = .write 4 0 w :: rest ∧ t.cmd = w

/-- 20_memory.md R68 with 10_state.md R21 and 70_reset_and_hazards.md R250: a command run element by
element, with no host access in between, reaches the state the one atomic step reaches, and stays
there; it takes one step to start, one for each element and one to end (log entry 11). For a create, a
destroy and a transform stopped at its checks, which are one block step each, `t.n` is the `N` of an
earlier command, and the bound is loose. -/
def Obligations.ElementStepsReachTheAtomicResult : Prop :=
  ∀ (s : State) (w : Word), s.phase = .idle → s.port = [] →
    ∃ t, step { s with port := [.command w] } = .next t ∧
      ∀ m, t.n + 2 ≤ m → Sys2Proof.core.run m { s with port := [.write 4 0 w] } = .next t

/-- 60_exceptions.md R200, R203: a command ends. Either the block is idle, or a fault of the command is
recorded, `RESULT` keeps its value and no slot has changed. -/
def Obligations.CommandEndsIdleOrFaulted : Prop :=
  ∀ (i : Instr) (s : State), ∃ t, exec i s = .next t ∧
    (t.phase = .idle ∨
      ∃ c, t.phase = .faulted c ∧ c ≠ .hostProtocol ∧ c ≠ .illegalCommand ∧
        t.result = s.result ∧ t.enc = s.enc ∧ t.dec = s.dec)

/-! ## Invariants and rules of the whole machine -/

/-- The reset state satisfies the invariant. -/
def Obligations.ResetSatisfiesTheInvariant : Prop := State.reset.Inv

/-- Every step keeps the invariant: memory canonical and inside the address space (20_memory.md R50,
R57), live slots with the table of their unit (41_decoder.md R130, 42_encoder.md R160), 32-bit
counters (10_state.md R21), legal parameters (00_scope.md R7). -/
def Obligations.StepKeepsTheInvariant : Prop :=
  ∀ s t : State, s.Inv → step s = .next t → t.Inv

/-- The parameters and the slot counts are fixed for a block (00_scope.md R7, 20_memory.md R53); the
model holds them in State (log entry 1). -/
def Obligations.StepKeepsTheParameters : Prop :=
  ∀ s t : State, step s = .next t →
    t.params = s.params ∧ t.enc.length = s.enc.length ∧ t.dec.length = s.dec.length

/-- 60_exceptions.md R204: in the fault state every write to the register window is ignored, a read
returns the register's value, no command starts and the block changes no memory; only reset leaves
the state. (A host's own access to host memory is not the block's.) -/
def Obligations.FaultStateIsSticky : Prop :=
  ∀ (s : State) (c : Cause), s.phase = .faulted c →
    (∀ t, step s = .next t → s.port.head? ≠ some .reset →
      t = { s with port := t.port, readData := t.readData, mem := t.mem } ∧
      ((∀ a v, s.port.head? ≠ some (.memWrite a v)) → t.mem = s.mem)) ∧
    (∀ (offset : Fin 64) (rest : List Input), offset.val % 4 = 0 → s.port = .read 4 offset :: rest →
      step s = .next { s with port := rest, readData := s.regValue (regAt offset) }) ∧
    ∀ rest, s.port = .reset :: rest → ∃ t, step s = .next t ∧ t.phase = .idle

/-- 10_state.md R32: a live instance is immutable. Whatever the step, short of reset, the slot is the
same after it, or its own destroy has run and `live` is cleared. That a destroyed slot keeps its other
fields is the model's choice (log entry 20; R37 leaves them unspecified). -/
def Obligations.LiveInstancesAreImmutable : Prop :=
  ∀ (s t : State) (h : Nat), step s = .next t → s.port.head? ≠ some .reset →
    (∀ x, LiveAt s.enc h x → LiveAt t.enc h x ∨
      (slotOf t.enc h = some { x with live := false } ∧ RunsNow (.encDestroy h) s)) ∧
    ∀ x, LiveAt s.dec h x → LiveAt t.dec h x ∨
      (slotOf t.dec h = some { x with live := false } ∧ RunsNow (.decDestroy h) s)

/-- 20_memory.md R50: a create and a destroy neither read nor write host memory. -/
def Obligations.OnlyTransformsTouchMemory : Prop :=
  ∀ (i : Instr) (s t : State) (m : Memory), isTransform i = false → exec i s = .next t →
    exec i { s with mem := m } = .next { t with mem := m }

/-- 30_encoding.md R82, 10_state.md R32: the units are separate. An encoder command neither reads nor
writes a decoder slot, and the other way round. -/
def Obligations.UnitsAreSeparate : Prop :=
  ∀ (i : Instr) (s t : State), exec i s = .next t →
    (isEncoderCommand i = true → ∀ d, exec i { s with dec := d } = .next { t with dec := d }) ∧
    (isEncoderCommand i = false → ∀ e, exec i { s with enc := e } = .next { t with enc := e })

/-- 60_exceptions.md R200: `-1` is the only negative result any command produces, and only a transform
produces it. -/
def Obligations.MinusOneIsTheOnlyNegativeResult : Prop :=
  ∀ (i : Instr) (s t : State), s.Inv → exec i s = .next t → t.phase = .idle → t.result.toInt < 0 →
    t.result = 0xFFFFFFFF ∧ isTransform i = true

/-- 10_state.md R33: no operation reads a stored `sample_rate` or an encoder's `channels`. Two states
that differ in nothing else take the same step and still differ in nothing else. -/
def Obligations.SampleRatesAreNeverRead : Prop :=
  ∀ s s' : State, SameButUnread s s' →
    (∀ t, step s = .next t → ∃ t', step s' = .next t' ∧ SameButUnread t t') ∧
    ∀ f, step s = .fault f → step s' = .fault f

/-! ## Creates and destroys -/

/-- 42_encoder.md R165, 41_decoder.md R131: a create takes the lowest free slot, stores its operands
unchecked, builds the table, makes the slot live and returns the handle; nothing else changes. -/
def Obligations.CreateTakesTheLowestFreeSlot : Prop :=
  (∀ (s : State) (h : Nat), s.params.createMayFail = false → LowestFree s.enc h →
    exec .encCreate s = .next { s with
      enc := s.enc.set (h - 1)
        { live := true, sampleRate := s.larg0, channels := s.larg1, table := compressionTable }
      result := BitVec.ofNat 32 h
      phase := .idle }) ∧
  ∀ (s : State) (h : Nat), s.params.createMayFail = false → LowestFree s.dec h →
    exec .decCreate s = .next { s with
      dec := s.dec.set (h - 1)
        { live := true, sampleRate := s.larg0, channels := s.larg1, table := expansionTable }
      result := BitVec.ofNat 32 h
      phase := .idle }

/-- 60_exceptions.md R211: a create fails with result 0 and no state change when no slot is free; under
`CREATE_MAY_FAIL`, with a free slot, it fails so on the free draw and else creates; and a transform given
the handle 0 returns `-1`. That the draw is `Config.failDraw` of the counter `draws`, and that a draw
advances the counter, is the model's form of it (log entry 13). -/
def Obligations.CreateFailsWithResultZero : Prop :=
  (∀ s : State, (∀ x ∈ s.enc, x.live = true) →
    exec .encCreate s = .next { s with result := 0, phase := .idle }) ∧
  (∀ s : State, (∀ x ∈ s.dec, x.live = true) →
    exec .decCreate s = .next { s with result := 0, phase := .idle }) ∧
  (∀ (s : State) (h : Nat), s.params.createMayFail = true → LowestFree s.enc h →
    exec .encCreate s = .next (
      if Config.failDraw s.draws then
        { s with result := 0, phase := .idle, draws := s.draws + 1 }
      else
        { s with
          enc := s.enc.set (h - 1)
            { live := true, sampleRate := s.larg0, channels := s.larg1, table := compressionTable }
          result := BitVec.ofNat 32 h
          phase := .idle
          draws := s.draws + 1 })) ∧
  (∀ (s : State) (h : Nat), s.params.createMayFail = true → LowestFree s.dec h →
    exec .decCreate s = .next (
      if Config.failDraw s.draws then
        { s with result := 0, phase := .idle, draws := s.draws + 1 }
      else
        { s with
          dec := s.dec.set (h - 1)
            { live := true, sampleRate := s.larg0, channels := s.larg1, table := expansionTable }
          result := BitVec.ofNat 32 h
          phase := .idle
          draws := s.draws + 1 })) ∧
  ∀ s : State,
    exec (.encEncode 0) s = .next { s with result := 0xFFFFFFFF, phase := .idle } ∧
    exec (.decDecode 0) s = .next { s with result := 0xFFFFFFFF, phase := .idle }

/-- 41_decoder.md R134, 42_encoder.md R167: a destroy clears `live` of its slot and returns 0; the null
instance is a no-op with result 0; every other slot and all else is unchanged. That the destroyed slot keeps
its other fields is the model's choice (log entry 20). -/
def Obligations.DestroyClearsLive : Prop :=
  (∀ (s : State) (h : Nat) (x : EncSlot), LiveAt s.enc h x →
    exec (.encDestroy h) s = .next { s with
      enc := s.enc.set (h - 1) { x with live := false }
      result := 0
      phase := .idle }) ∧
  (∀ (s : State) (h : Nat) (x : DecSlot), LiveAt s.dec h x →
    exec (.decDestroy h) s = .next { s with
      dec := s.dec.set (h - 1) { x with live := false }
      result := 0
      phase := .idle }) ∧
  ∀ s : State,
    exec (.encDestroy 0) s = .next { s with result := 0, phase := .idle } ∧
    exec (.decDestroy 0) s = .next { s with result := 0, phase := .idle }

/-- 60_exceptions.md R202: a transform or a destroy with a dead handle raises `DEAD_HANDLE`, whatever
its other operands, and changes nothing else. -/
def Obligations.DeadHandleFaults : Prop :=
  (∀ (s : State) (h : Nat), DeadAt s.enc h →
    exec (.encEncode h) s = .next { s with phase := .faulted .deadHandle } ∧
    exec (.encDestroy h) s = .next { s with phase := .faulted .deadHandle }) ∧
  ∀ (s : State) (h : Nat), DeadAt s.dec h →
    exec (.decDecode h) s = .next { s with phase := .faulted .deadHandle } ∧
    exec (.decDestroy h) s = .next { s with phase := .faulted .deadHandle }

/-! ## Transforms -/

/-- 42_encoder.md R166, 41_decoder.md R133: with a live handle and a null buffer or a length that is
not positive a transform returns `-1` and writes nothing. -/
def Obligations.InvalidArgumentsReturnMinusOne : Prop :=
  (∀ (s : State) (h : Nat) (x : EncSlot), LiveAt s.enc h x →
    (s.larg0 = 0 ∨ s.larg2 = 0 ∨ s.larg1.toInt ≤ 0) →
    exec (.encEncode h) s = .next { s with result := 0xFFFFFFFF, phase := .idle }) ∧
  ∀ (s : State) (h : Nat) (x : DecSlot), LiveAt s.dec h x →
    (s.larg0 = 0 ∨ s.larg2 = 0 ∨ s.larg1.toInt ≤ 0) →
    exec (.decDecode h) s = .next { s with result := 0xFFFFFFFF, phase := .idle }

/-- 42_encoder.md R166, 20_memory.md R55: an encode of valid arguments whose buffers fit and whose
accesses are admitted completes with `n = len / 2` elements in order and result `n`; only memory,
`RESULT`, the phase, `K` and `N` change. `n = 0` checks no range. The hidden `K` and `N` are as log
entry 16 says. -/
def Obligations.EncodeCompletes : Prop :=
  ∀ (s : State) (h : Nat) (x : EncSlot), LiveAt s.enc h x → GoodArguments s →
    (encodeCount s = 0 ∨ BufferFits s s.inAddress (2 * encodeCount s) ∧
      BufferFits s s.outAddress (encodeCount s)) →
    (∀ k, k < encodeCount s → EncodeElementAdmitted s k) →
    exec (.encEncode h) s = .next { s with
      mem := encodedUpTo x.table s (encodeCount s)
      result := BitVec.ofNat 32 (encodeCount s)
      phase := .idle
      k := encodeCount s
      n := encodeCount s }

/-- 41_decoder.md R133, 20_memory.md R55: a decode of valid arguments whose buffers fit and whose
accesses are admitted completes with `n = FRAME_LEN(len, channels)` elements in order and result
`2n`; only memory, `RESULT`, the phase, `K` and `N` change (the hidden `K` and `N`: log entry 16). -/
def Obligations.DecodeCompletes : Prop :=
  ∀ (s : State) (h : Nat) (x : DecSlot), LiveAt s.dec h x → GoodArguments s →
    decodeCount x s ≤ 0x3FFFFFFF → BufferFits s s.inAddress (decodeCount x s) →
    BufferFits s s.outAddress (2 * decodeCount x s) →
    (∀ k, k < decodeCount x s → DecodeElementAdmitted s k) →
    exec (.decDecode h) s = .next { s with
      mem := decodedUpTo x.table s (decodeCount x s)
      result := BitVec.ofNat 32 (2 * decodeCount x s)
      phase := .idle
      k := decodeCount x s
      n := decodeCount x s }

/-- 42_encoder.md R166, 20_memory.md R55: where the output does not start inside the input (in place
counts as not inside), the output bytes of an encode are the codes of the samples that the input held
at the command's start. -/
def Obligations.EncodeWritesTheCodesOfItsSamples : Prop :=
  ∀ (s : State) (h : Nat) (x : EncSlot), s.Inv → LiveAt s.enc h x → GoodArguments s →
    BufferFits s s.inAddress (2 * encodeCount s) → BufferFits s s.outAddress (encodeCount s) →
    (∀ k, k < encodeCount s → EncodeElementAdmitted s k) →
    (s.outAddress ≤ s.inAddress ∨ s.inAddress + 2 * encodeCount s ≤ s.outAddress) →
    ∃ t, exec (.encEncode h) s = .next t ∧ t.phase = .idle ∧
      t.result = BitVec.ofNat 32 (encodeCount s) ∧
      ∀ k, k < encodeCount s →
        t.mem.read (s.outAddress + k) =
          encodeSample (sampleAt s.params.sampleEndian s.mem (s.inAddress + 2 * k))

/-- 41_decoder.md R136: output sample `k` of a decode is `EXPAND(c_k)`, where `c_k` is the byte at
`in + k` when element `k` reads it; for disjoint buffers that is the byte the input held at the
command's start. -/
def Obligations.DecodeWritesTheExpansionsOfItsCodes : Prop :=
  ∀ (s : State) (h : Nat) (x : DecSlot), s.Inv → LiveAt s.dec h x → GoodArguments s →
    decodeCount x s ≤ 0x3FFFFFFF → BufferFits s s.inAddress (decodeCount x s) →
    BufferFits s s.outAddress (2 * decodeCount x s) →
    (∀ k, k < decodeCount x s → DecodeElementAdmitted s k) →
    ∃ t, exec (.decDecode h) s = .next t ∧ t.phase = .idle ∧
      ∀ k, k < decodeCount x s →
        (sampleAt s.params.sampleEndian t.mem (s.outAddress + 2 * k)).toInt =
          expand (codeRead s (decodedUpTo x.table s k) k) ∧
        (s.inAddress + decodeCount x s ≤ s.outAddress ∨
            s.outAddress + 2 * decodeCount x s ≤ s.inAddress →
          codeRead s (decodedUpTo x.table s k) k = s.mem.read (s.inAddress + k))

/-- The frame of `ENC_ENCODE`: nothing but memory, `RESULT`, the phase, `K` and `N` changes, and of
memory no byte outside the `len / 2` bytes at `out`, however the command ends. -/
def Obligations.EncodeFrame : Prop :=
  ∀ (h : Nat) (s t : State), exec (.encEncode h) s = .next t →
    t = { s with mem := t.mem, result := t.result, phase := t.phase, k := t.k, n := t.n } ∧
    ∀ a, ¬ (s.outAddress ≤ a ∧ a < s.outAddress + encodeCount s) →
      t.mem.read a = s.mem.read a

/-- The frame of `DEC_DECODE`: nothing but memory, `RESULT`, the phase, `K` and `N` changes, and of
memory no byte outside the `2 * FRAME_LEN(len, channels)` bytes at `out`, however the command ends;
without a live instance, no byte at all. -/
def Obligations.DecodeFrame : Prop :=
  ∀ (h : Nat) (s t : State), exec (.decDecode h) s = .next t →
    t = { s with mem := t.mem, result := t.result, phase := t.phase, k := t.k, n := t.n } ∧
    ∀ a, (∀ x, LiveAt s.dec h x →
        ¬ (s.outAddress ≤ a ∧ a < s.outAddress + 2 * decodeCount x s)) →
      t.mem.read a = s.mem.read a

/-- 60_exceptions.md R203, 20_memory.md R58: an encode whose element `j` is the first with a refused
access stops there with `BUS_ERROR`: the elements before it (42_encoder.md R166, 20_memory.md R55) are
written, it has no effect, `RESULT` is kept. The hidden `K` and `N` are as log entry 16 says. -/
def Obligations.EncodeBusErrorIsPrecise : Prop :=
  ∀ (s : State) (h : Nat) (x : EncSlot) (j : Nat), LiveAt s.enc h x → GoodArguments s →
    BufferFits s s.inAddress (2 * encodeCount s) → BufferFits s s.outAddress (encodeCount s) →
    j < encodeCount s → (∀ k, k < j → EncodeElementAdmitted s k) → ¬ EncodeElementAdmitted s j →
    exec (.encEncode h) s = .next { s with
      mem := encodedUpTo x.table s j
      phase := .faulted .busError
      k := j
      n := encodeCount s }

/-- 60_exceptions.md R203, 20_memory.md R58: the same for a decode (41_decoder.md R133, 20_memory.md
R55); where only the second byte of the element's sample is refused, its first byte is written. The
hidden `K` and `N` are as log entry 16 says. -/
def Obligations.DecodeBusErrorIsPrecise : Prop :=
  ∀ (s : State) (h : Nat) (x : DecSlot) (j : Nat), LiveAt s.dec h x → GoodArguments s →
    decodeCount x s ≤ 0x3FFFFFFF → BufferFits s s.inAddress (decodeCount x s) →
    BufferFits s s.outAddress (2 * decodeCount x s) →
    j < decodeCount x s → (∀ k, k < j → DecodeElementAdmitted s k) → ¬ DecodeElementAdmitted s j →
    exec (.decDecode h) s = .next { s with
      mem :=
        if s.params.admits (s.inAddress + j) .read = true ∧
            s.params.admits (s.outAddress + 2 * j) .write = true then
          (decodedUpTo x.table s j).write (s.outAddress + 2 * j)
            (lowerByte s.params.sampleEndian
              (expansionOf x.table (codeRead s (decodedUpTo x.table s j) j)))
        else decodedUpTo x.table s j
      phase := .faulted .busError
      k := j
      n := decodeCount x s }

/-- 10_state.md R21 with 70_reset_and_hazards.md R240 and R243: one step of the block in a transform in
flight is one element. `K` advances by exactly 1, memory has that element's writes and no other,
`RESULT` keeps the previous command's value and the block stays busy; the step at `K = N` writes the
result and ends the command; an element with a refused access raises `BUS_ERROR` and leaves `K`, and only
where the second byte of a decode's sample is the refused one is its first byte written (60_exceptions.md
R203). The granularity of a step, and `N` written at each, are log entry 11. -/
def Obligations.OneElementIsOneBlockStep : Prop :=
  (∀ (s : State) (h : Nat) (x : EncSlot), BlockMovesNext s →
    s.phase = .busy → decode s.lcmd = .ok (.encEncode h) → LiveAt s.enc h x → GoodArguments s →
    (encodeCount s = 0 ∨ BufferFits s s.inAddress (2 * encodeCount s) ∧
      BufferFits s s.outAddress (encodeCount s)) →
    (s.k < encodeCount s → EncodeElementAdmitted s s.k →
      step s = .next { s with
        port := s.port.tail
        mem := s.mem.write (s.outAddress + s.k) (compressionOf x.table
          (sampleAt s.params.sampleEndian s.mem (s.inAddress + 2 * s.k)))
        k := s.k + 1
        n := encodeCount s }) ∧
    (s.k < encodeCount s → ¬ EncodeElementAdmitted s s.k →
      step s = .next { s with
        port := s.port.tail
        n := encodeCount s
        phase := .faulted .busError }) ∧
    (s.k = encodeCount s →
      step s = .next { s with
        port := s.port.tail
        n := encodeCount s
        result := BitVec.ofNat 32 (encodeCount s)
        phase := .idle })) ∧
  ∀ (s : State) (h : Nat) (x : DecSlot), BlockMovesNext s →
    s.phase = .busy → decode s.lcmd = .ok (.decDecode h) → LiveAt s.dec h x → GoodArguments s →
    decodeCount x s ≤ 0x3FFFFFFF → BufferFits s s.inAddress (decodeCount x s) →
    BufferFits s s.outAddress (2 * decodeCount x s) →
    (s.k < decodeCount x s → DecodeElementAdmitted s s.k →
      step s = .next { s with
        port := s.port.tail
        mem := (s.mem.write (s.outAddress + 2 * s.k) (lowerByte s.params.sampleEndian
            (expansionOf x.table (codeRead s s.mem s.k)))).write (s.outAddress + 2 * s.k + 1)
          (higherByte s.params.sampleEndian (expansionOf x.table (codeRead s s.mem s.k)))
        k := s.k + 1
        n := decodeCount x s }) ∧
    (s.k < decodeCount x s → ¬ DecodeElementAdmitted s s.k →
      step s = .next { s with
        port := s.port.tail
        mem :=
          if s.params.admits (s.inAddress + s.k) .read = true ∧
              s.params.admits (s.outAddress + 2 * s.k) .write = true then
            s.mem.write (s.outAddress + 2 * s.k) (lowerByte s.params.sampleEndian
              (expansionOf x.table (codeRead s s.mem s.k)))
          else s.mem
        n := decodeCount x s
        phase := .faulted .busError }) ∧
    (s.k = decodeCount x s →
      step s = .next { s with
        port := s.port.tail
        n := decodeCount x s
        result := BitVec.ofNat 32 (2 * decodeCount x s)
        phase := .idle })

/-- 60_exceptions.md R208, 20_memory.md R57: a transform with a buffer that passes the top of the
address space raises `ADDRESS_RANGE` before any access: nothing is written. -/
def Obligations.AddressRangeIsCheckedBeforeAnyAccess : Prop :=
  (∀ (s : State) (h : Nat) (x : EncSlot), LiveAt s.enc h x → GoodArguments s → 0 < encodeCount s →
    (2 ^ s.params.addrWidth - 1 < s.inAddress + 2 * encodeCount s - 1 ∨
      2 ^ s.params.addrWidth - 1 < s.outAddress + encodeCount s - 1) →
    exec (.encEncode h) s = .next { s with phase := .faulted .addressRange }) ∧
  ∀ (s : State) (h : Nat) (x : DecSlot), LiveAt s.dec h x → GoodArguments s →
    decodeCount x s ≤ 0x3FFFFFFF →
    (2 ^ s.params.addrWidth - 1 < s.inAddress + decodeCount x s - 1 ∨
      2 ^ s.params.addrWidth - 1 < s.outAddress + 2 * decodeCount x s - 1) →
    exec (.decDecode h) s = .next { s with phase := .faulted .addressRange }

/-- 60_exceptions.md R207: `DEC_DECODE` raises `LENGTH_OVERFLOW` when its count exceeds `0x3FFFFFFF`, and
no other command does, nor `DEC_DECODE` otherwise; and a step of the machine raises it only where it
runs a `DEC_DECODE`. -/
def Obligations.LengthOverflowIsTheDecodersAlone : Prop :=
  (∀ (s : State) (h : Nat) (x : DecSlot), LiveAt s.dec h x → GoodArguments s →
    0x3FFFFFFF < decodeCount x s →
    exec (.decDecode h) s = .next { s with phase := .faulted .lengthOverflow }) ∧
  (∀ (i : Instr) (s t : State), exec i s = .next t → t.phase = .faulted .lengthOverflow →
    ∃ h x, i = .decDecode h ∧ LiveAt s.dec h x ∧ GoodArguments s ∧
      0x3FFFFFFF < decodeCount x s) ∧
  ∀ s t : State, NotFaulted s → step s = .next t → t.phase = .faulted .lengthOverflow →
    ∃ h, RunsNow (.decDecode h) s

/-- 41_decoder.md R132: `FRAME_LEN(len, ch)` for `len > 0`. -/
def Obligations.FrameLenDropsATrailingPartialFrame : Prop :=
  ∀ len ch : Int, 0 < len →
    (1 ≤ frameLen len ch ∧ frameLen len ch ≤ len) ∧
    (0 < ch → ch ≤ len → ch ∣ frameLen len ch ∧ ∀ m, ch ∣ m → m ≤ len → m ≤ frameLen len ch) ∧
    (0 < ch → len < ch → frameLen len ch = len) ∧
    (ch ≤ 0 ∨ ch = 1 → frameLen len ch = len)

/-- 20_memory.md R53, R54: the byte order of a stored sample, and that it reads back. -/
def Obligations.SampleBytesAreInTheBlocksOrder : Prop :=
  ∀ (s : State) (a : Nat) (p : Sample), s.mem.wf = true →
    s.params.admits a .write = true → s.params.admits (a + 1) .write = true →
    ∃ t, s.store16 a p = .running t ∧
      (s.params.sampleEndian = .le →
        t.mem.read a = p.extractLsb' 0 8 ∧ t.mem.read (a + 1) = p.extractLsb' 8 8) ∧
      (s.params.sampleEndian = .be →
        t.mem.read a = p.extractLsb' 8 8 ∧ t.mem.read (a + 1) = p.extractLsb' 0 8) ∧
      sampleAt s.params.sampleEndian t.mem a = p

/-! ## The expansion primitive and the two tables -/

/-- 40_expansion.md R111: the range of `EXPAND`, its magnitude by segment and mantissa, and the table
of the segments' ends and steps. -/
def Obligations.ExpansionMagnitudes : Prop :=
  (∀ a : Byte, -32768 < expand a ∧ expand a ≤ 32767 ∧ expand a ≠ 0 ∧
    8 ≤ (expand a).natAbs ∧ (expand a).natAbs ≤ 32256 ∧
    (expand a).natAbs =
      if segmentOf a = 0 then (2 * mantissaOf a + 1) * 2 ^ 3
      else (2 * mantissaOf a + 33) * 2 ^ (segmentOf a + 2)) ∧
  ∀ row ∈ [(0, 8, 248, 16), (1, 264, 504, 16), (2, 528, 1008, 32), (3, 1056, 2016, 64),
      (4, 2112, 4032, 128), (5, 4224, 8064, 256), (6, 8448, 16128, 512), (7, 16896, 32256, 1024)],
    ∀ a : Byte, segmentOf a = row.1 →
      (mantissaOf a = 0 → (expand a).natAbs = row.2.1) ∧
      (mantissaOf a = 15 → (expand a).natAbs = row.2.2.1) ∧
      (expand a).natAbs = row.2.1 + row.2.2.2 * mantissaOf a

/-- 40_expansion.md R112: the sign of `EXPAND` is the code's own bit 7. -/
def Obligations.ExpansionSignIsBitSeven : Prop :=
  ∀ a : Byte, (a ^^^ 0x55).getLsbD 7 = a.getLsbD 7 ∧
    (0x80 ≤ a.toNat → 0 < expand a) ∧ (a.toNat ≤ 0x7F → expand a < 0)

/-- 40_expansion.md R113: `|EXPAND|` is strictly increasing in the magnitude code, a magnitude code and
a sign determine the code, and the two codes of a magnitude code. -/
def Obligations.MagnitudeCodesAreOrdered : Prop :=
  (∀ a b : Byte, magnitudeCodeOf a < magnitudeCodeOf b → (expand a).natAbs < (expand b).natAbs) ∧
  (∀ a b : Byte, magnitudeCodeOf a = magnitudeCodeOf b → a.getLsbD 7 = b.getLsbD 7 → a = b) ∧
  ∀ i, i < 128 →
    expand (BitVec.ofNat 8 i ^^^ 0xD5) = magnitude i ∧
    expand (BitVec.ofNat 8 i ^^^ 0x55) = -(magnitude i : Int)

/-- 40_expansion.md R114: `EXPAND` as combinational logic (the rule's width remark is log entry 24). -/
def Obligations.ExpansionAsCombinationalLogic : Prop :=
  ∀ a : Byte,
    let seg : BitVec 3 := a.extractLsb' 4 3 ^^^ 0b101
    let m : BitVec 4 := a.extractLsb' 0 4 ^^^ 0b0101
    let mag : Nat :=
      if seg = 0 then (m ++ (1 : BitVec 1) ++ (0 : BitVec 3)).toNat
      else ((1 : BitVec 1) ++ m ++ (1 : BitVec 1)).toNat * 2 ^ (seg.toNat + 2)
    expand a = if a.getLsbD 7 then (mag : Int) else -(mag : Int)

/-- 41_decoder.md R130: the table of a live decoder slot holds `u16(EXPAND(c))` for every code, the
16-bit pattern of that value. -/
def Obligations.LiveDecoderTableIsTheExpansion : Prop :=
  ∀ (s : State) (h : Nat) (x : DecSlot), s.Inv → LiveAt s.dec h x →
    ∀ c : Byte, expansionOf x.table c = u16 (expand c) ∧ (expansionOf x.table c).toInt = expand c

/-- 42_encoder.md R168: the closed form of the table of a live encoder slot. -/
def Obligations.LiveEncoderTableIsTheClosedForm : Prop :=
  ∀ (s : State) (h : Nat) (x : EncSlot), s.Inv → LiveAt s.enc h x →
    ∀ k : Fin 16384, ∃ c,
      IsMagnitudeCode (if 8192 ≤ k.val then k.val - 8192 else 8192 - k.val) c ∧
      x.table.get k =
        BitVec.ofNat 8 c ^^^ (if 8192 ≤ k.val then (0xD5 : Byte) else (0x55 : Byte))

/-- 42_encoder.md R161, R162: the table is the one that the array writes of `BUILD_CTABLE` leave,
whatever the array held before, with `j` starting at 1 or at 0. So the model's two lists in place of
array writes (log entry 17) make no difference. -/
def Obligations.TableBuildAgreesWithArrayWrites : Prop :=
  ∀ t : CompressionTable, buildCTable 1 t = compressionTable ∧ buildCTable 0 t = compressionTable

/-- 42_encoder.md R163, R164 and the seed of R161: the ends and the centre of the table. -/
def Obligations.TableEndsAndCentre : Prop :=
  compressionTable.get 0 = 0x2A ∧ compressionTable.get 1 = 0x2A ∧
    compressionTable.get 16383 = 0xAA ∧ compressionTable.get 8192 = 0xD5

/-- 42_encoder.md R169: a decode followed by an encode returns the code unchanged. -/
def Obligations.DecodeThenEncodeIsTheIdentity : Prop :=
  ∀ c : Byte, encodeSample (expansionOf expansionTable c) = c

/-- 42_encoder.md R169: `EXPAND(ENC(s))` never decreases as `s` increases. -/
def Obligations.CompandingIsMonotone : Prop :=
  ∀ p q : Sample, p.toInt ≤ q.toInt → expand (encodeSample p) ≤ expand (encodeSample q)

/-- 42_encoder.md R169: the round-trip error is at most the largest error of the code's segment. -/
def Obligations.RoundTripErrorIsBounded : Prop :=
  ∀ p : Sample,
    (expand (encodeSample p) - p.toInt).natAbs ≤ largestError (segmentOf (encodeSample p))

/-- 42_encoder.md R169: each of the 256 codes is the value of exactly one contiguous run of indices. -/
def Obligations.EachCodeIsOneRunOfIndices : Prop :=
  (∀ c : Byte, ∃ k, compressionTable.get k = c) ∧
  ∀ i j k : Fin 16384, i ≤ j → j ≤ k → compressionTable.get i = compressionTable.get k →
    compressionTable.get j = compressionTable.get i

/-- 42_encoder.md R170: silence encodes to `0xD5`, which decodes to 8; `0x55` is the code of the samples
`-12 .. -1` exactly, and decodes to -8. -/
def Obligations.SilenceEncodesToD5 : Prop :=
  encodeSample 0 = 0xD5 ∧ expand 0xD5 = 8 ∧ expand 0x55 = -8 ∧
    ∀ p : Sample, encodeSample p = 0x55 ↔ -12 ≤ p.toInt ∧ p.toInt ≤ -1

/-! ## The register window -/

/-- 10_state.md R26: the fields of `STATUS` and the cause codes of 60_exceptions.md R201; `BUSY` and
`FAULT` are never both 1; host writes are ignored; once `FAULT` is set, `STATUS` stays until reset. -/
def Obligations.StatusFields : Prop :=
  (∀ s : State,
    (s.status.getLsbD 0 = true ↔ s.phase = .busy) ∧
    (s.status.getLsbD 1 = true ↔ ∃ c, s.phase = .faulted c) ∧
    s.status.extractLsb' 2 2 = 0 ∧ s.status.extractLsb' 8 24 = 0 ∧
    ¬ (s.status.getLsbD 0 = true ∧ s.status.getLsbD 1 = true) ∧
    s.status.extractLsb' 4 4 =
      (match s.phase with
        | .idle => 0
        | .busy => 0
        | .faulted .illegalCommand => 1
        | .faulted .deadHandle => 2
        | .faulted .lengthOverflow => 3
        | .faulted .addressRange => 4
        | .faulted .busError => 5
        | .faulted .hostProtocol => 6)) ∧
  (∀ (s : State) (v : Word) (rest : List Input), s.port = .write 4 0x14 v :: rest →
    step s = .next { s with port := rest }) ∧
  ∀ s t : State, step s = .next t → s.port.head? ≠ some .reset → s.status.getLsbD 1 = true →
    t.status = s.status

/-- 10_state.md R27: the reserved offsets read as zero and ignore writes, in every phase. -/
def Obligations.ReservedOffsetsReadAsZero : Prop :=
  ∀ (s : State) (offset : Fin 64) (v : Word) (rest : List Input),
    0x18 ≤ offset.val → offset.val % 4 = 0 →
    step { s with port := .read 4 offset :: rest } =
      .next { s with port := rest, readData := 0 } ∧
    step { s with port := .write 4 offset v :: rest } = .next { s with port := rest }

/-- 10_state.md R22, 60_exceptions.md R206: a load returns the register at its offset in every phase,
and changes nothing of the block. `readData` is the model's own (log entry 14). -/
def Obligations.RegisterLoadsFollowTheMap : Prop :=
  ∀ (s : State) (rest : List Input),
    step { s with port := .read 4 0x00 :: rest } = .next { s with port := rest, readData := s.cmd } ∧
    step { s with port := .read 4 0x04 :: rest } = .next { s with port := rest, readData := s.arg0 } ∧
    step { s with port := .read 4 0x08 :: rest } = .next { s with port := rest, readData := s.arg1 } ∧
    step { s with port := .read 4 0x0C :: rest } = .next { s with port := rest, readData := s.arg2 } ∧
    step { s with port := .read 4 0x10 :: rest } =
      .next { s with port := rest, readData := s.result } ∧
    step { s with port := .read 4 0x14 :: rest } =
      .next { s with port := rest, readData := s.status }

/-- 10_state.md R24, R25: a store to an `ARG` register writes it in `IDLE`, raises `HOST_PROTOCOL` in
`BUSY` and is ignored in `FAULTED`; a store to `RESULT` is ignored; no command writes `CMD`, an `ARG`
register or a latch. That the register keeps its value where the store raises the fault is the model's
choice (log entry 27). -/
def Obligations.ArgRegistersBelongToTheHost : Prop :=
  (∀ (s : State) (v : Word) (rest : List Input), s.phase = .idle →
    step { s with port := .write 4 0x04 v :: rest } = .next { s with port := rest, arg0 := v } ∧
    step { s with port := .write 4 0x08 v :: rest } = .next { s with port := rest, arg1 := v } ∧
    step { s with port := .write 4 0x0C v :: rest } = .next { s with port := rest, arg2 := v }) ∧
  (∀ (s : State) (v : Word) (rest : List Input) (offset : Fin 64),
    offset = 0x04 ∨ offset = 0x08 ∨ offset = 0x0C →
    (s.phase = .busy → step { s with port := .write 4 offset v :: rest } =
      .next { s with port := rest, phase := .faulted .hostProtocol }) ∧
    ∀ c, s.phase = .faulted c → step { s with port := .write 4 offset v :: rest } =
      .next { s with port := rest }) ∧
  (∀ (s : State) (v : Word) (rest : List Input),
    step { s with port := .write 4 0x10 v :: rest } = .next { s with port := rest }) ∧
  ∀ (i : Instr) (s t : State), exec i s = .next t →
    t.cmd = s.cmd ∧ t.arg0 = s.arg0 ∧ t.arg1 = s.arg1 ∧ t.arg2 = s.arg2 ∧
    t.lcmd = s.lcmd ∧ t.larg0 = s.larg0 ∧ t.larg1 = s.larg1 ∧ t.larg2 = s.larg2

/-- 60_exceptions.md R206: `HOST_PROTOCOL` is raised by the accesses the rule names, and by nothing
else. That a host's byte access which falls in the window is a register access of the wrong width is
the model's reading (log entry 23). -/
def Obligations.HostProtocolIsRaisedExactlyByItsAccesses : Prop :=
  ∀ s t : State, NotFaulted s → step s = .next t →
    (t.phase = .faulted .hostProtocol ↔ ViolatesProtocol s)

/-- 10_state.md R28: a register access that is not a 32-bit access at a 4-byte-aligned offset, read or
write, raises `HOST_PROTOCOL`, and has no effect on a block that is already faulted. That `readData`
keeps its value where such a load returns, and that such a store writes no register, are the model's
choices (log entries 14 and 27). -/
def Obligations.OddRegisterAccessesFault : Prop :=
  ∀ (s : State) (size : Nat) (offset : Fin 64) (v : Word) (rest : List Input),
    ¬ (size = 4 ∧ offset.val % 4 = 0) →
    (NotFaulted s →
      step { s with port := .read size offset :: rest } =
        .next { s with port := rest, phase := .faulted .hostProtocol } ∧
      step { s with port := .write size offset v :: rest } =
        .next { s with port := rest, phase := .faulted .hostProtocol }) ∧
    ∀ c, s.phase = .faulted c →
      step { s with port := .read size offset :: rest } = .next { s with port := rest } ∧
      step { s with port := .write size offset v :: rest } = .next { s with port := rest }

/-! ## Reset, polling, host memory -/

/-- 10_state.md R37 for the values it gives, of a block with any parameters and slot counts. -/
def Obligations.ResetStateIsAsTheSpecSays : Prop :=
  (∀ (p : Params) (ne nd : Nat), let s := State.afterReset p ne nd
    s.phase = .idle ∧ s.cmd = 0 ∧ s.arg0 = 0 ∧ s.arg1 = 0 ∧ s.arg2 = 0 ∧ s.result = 0 ∧
    s.status = 0 ∧ s.enc.length = ne ∧ s.dec.length = nd ∧
    (∀ x ∈ s.enc, x.live = false) ∧ ∀ x ∈ s.dec, x.live = false) ∧
  State.reset = State.afterReset Params.default 4 4 ∧
  Params.default.addrWidth = 32 ∧ Params.default.sampleEndian = .le ∧
  Params.default.createMayFail = false

/-- 70_reset_and_hazards.md R240, R241: reset, whatever the phase, gives every register its reset
value, clears the fault state, frees every slot, so that every handle is dead, and leaves host memory
as it is (what else it leaves: log entry 18). -/
def Obligations.ResetInputFreesEverySlot : Prop :=
  ∀ (s : State) (rest : List Input), s.port = .reset :: rest →
    ∃ t, step s = .next t ∧ t.phase = .idle ∧ t.status = 0 ∧
      t.cmd = 0 ∧ t.arg0 = 0 ∧ t.arg1 = 0 ∧ t.arg2 = 0 ∧ t.result = 0 ∧
      t.mem = s.mem ∧ t.params = s.params ∧ t.port = rest ∧
      ∀ h, h ≠ 0 → DeadAt t.enc h ∧ DeadAt t.dec h

/-- 30_encoding.md R86, R87: a `WAIT` ends when it reads `BUSY = 0`; while `BUSY = 1` it stays and the
block moves; one that reads `FAULT = 1` ends the host program (what is left of the port after that is
log entry 12). -/
def Obligations.WaitPollsUntilNotBusy : Prop :=
  ∀ (s : State) (rest : List Input), s.port = .wait :: rest →
    (s.phase = .idle → step s = .next { s with port := rest, readData := s.status }) ∧
    (s.phase = .busy → ∃ t, step s = .next t ∧ t.port = s.port ∧ t.readData = s.status ∧
      t = State.blockStep { s with readData := s.status }) ∧
    ∀ c, s.phase = .faulted c →
      step s = .next { s with port := endProgram rest, readData := s.status }

/-- 30_encoding.md R87: the script lines of a command, `WRITE CMD`, `WAIT`, `READ RESULT`, return the
result of the command run as one atomic step, and leave its state; where the command faults, the
`WAIT` ends the program (what is left of the port then: log entry 12). -/
def Obligations.ScriptReturnsTheCommandsResult : Prop :=
  ∀ (s t : State) (w : Word) (rest : List Input), s.phase = .idle →
    step { s with port := .command w :: rest } = .next t →
    (t.phase = .idle → ∃ m,
      Sys2Proof.core.run m { s with port := lineWrite .cmd w :: .wait :: lineRead .result :: rest } =
        .next { t with readData := t.result }) ∧
    ∀ c, t.phase = .faulted c → ∃ m,
      Sys2Proof.core.run m { s with port := lineWrite .cmd w :: .wait :: lineRead .result :: rest } =
        .next { t with readData := t.status, port := endProgram rest }

/-- 20_memory.md R62, R63: in every phase, a host's access to an admitted byte of host memory that is
not an input or output byte of the command in flight goes on, and a byte it stores is there for every
later read. An access to such an input or output byte, of an encode or of a decode, is a race, on which
this model stops (log entry 9). That a loaded byte is zero-extended into `readData` is the model's form
(log entry 14). -/
def Obligations.HostMemoryAccesses : Prop :=
  (∀ (s : State) (a : Nat) (v : Byte) (rest : List Input), s.mem.wf = true → ¬ InBusyBuffers s a →
    a < 2 ^ s.params.addrWidth → s.params.admits a .write = true →
    ∃ t, step { s with port := .memWrite a v :: rest } = .next t ∧
      t = { s with port := rest, mem := t.mem } ∧
      t.mem.read a = v ∧ ∀ b, b ≠ a → t.mem.read b = s.mem.read b) ∧
  (∀ (s : State) (a : Nat) (rest : List Input), ¬ InBusyBuffers s a →
    a < 2 ^ s.params.addrWidth → s.params.admits a .read = true →
    step { s with port := .memRead a :: rest } =
      .next { s with port := rest, readData := (s.mem.read a).setWidth 32 }) ∧
  (∀ (s : State) (h : Nat) (x : EncSlot) (a : Nat) (v : Byte) (rest : List Input),
    s.phase = .busy → decode s.lcmd = .ok (.encEncode h) → LiveAt s.enc h x → GoodArguments s →
    BufferFits s s.inAddress (2 * encodeCount s) → BufferFits s s.outAddress (encodeCount s) →
    InEncodeBuffers s a → s.params.admits a .read = true → s.params.admits a .write = true →
    step { s with port := .memRead a :: rest } = .fault (.bufferRace a) ∧
    step { s with port := .memWrite a v :: rest } = .fault (.bufferRace a)) ∧
  ∀ (s : State) (h : Nat) (x : DecSlot) (a : Nat) (v : Byte) (rest : List Input),
    s.phase = .busy → decode s.lcmd = .ok (.decDecode h) → LiveAt s.dec h x → GoodArguments s →
    decodeCount x s ≤ 0x3FFFFFFF → BufferFits s s.inAddress (decodeCount x s) →
    BufferFits s s.outAddress (2 * decodeCount x s) →
    InDecodeBuffers x s a → s.params.admits a .read = true → s.params.admits a .write = true →
    step { s with port := .memRead a :: rest } = .fault (.bufferRace a) ∧
    step { s with port := .memWrite a v :: rest } = .fault (.bufferRace a)
end

