-- ==== Sys2Proof/Laws/State.lean ====
section
/-! SUPPORT. One lemma per field per update of State, so that no proof unfolds a record update. -/

namespace Sys2Proof.Machine

/-! ## `raise` -/

@[simp] theorem State.raise_params (c : Cause) (s : State) :
    (s.raise c).params = s.params := rfl
@[simp] theorem State.raise_cmd (c : Cause) (s : State) :
    (s.raise c).cmd = s.cmd := rfl
@[simp] theorem State.raise_arg0 (c : Cause) (s : State) :
    (s.raise c).arg0 = s.arg0 := rfl
@[simp] theorem State.raise_arg1 (c : Cause) (s : State) :
    (s.raise c).arg1 = s.arg1 := rfl
@[simp] theorem State.raise_arg2 (c : Cause) (s : State) :
    (s.raise c).arg2 = s.arg2 := rfl
@[simp] theorem State.raise_result (c : Cause) (s : State) :
    (s.raise c).result = s.result := rfl
@[simp] theorem State.raise_phase (c : Cause) (s : State) :
    (s.raise c).phase = .faulted c := rfl
@[simp] theorem State.raise_lcmd (c : Cause) (s : State) :
    (s.raise c).lcmd = s.lcmd := rfl
@[simp] theorem State.raise_larg0 (c : Cause) (s : State) :
    (s.raise c).larg0 = s.larg0 := rfl
@[simp] theorem State.raise_larg1 (c : Cause) (s : State) :
    (s.raise c).larg1 = s.larg1 := rfl
@[simp] theorem State.raise_larg2 (c : Cause) (s : State) :
    (s.raise c).larg2 = s.larg2 := rfl
@[simp] theorem State.raise_k (c : Cause) (s : State) :
    (s.raise c).k = s.k := rfl
@[simp] theorem State.raise_n (c : Cause) (s : State) :
    (s.raise c).n = s.n := rfl
@[simp] theorem State.raise_enc (c : Cause) (s : State) :
    (s.raise c).enc = s.enc := rfl
@[simp] theorem State.raise_dec (c : Cause) (s : State) :
    (s.raise c).dec = s.dec := rfl
@[simp] theorem State.raise_mem (c : Cause) (s : State) :
    (s.raise c).mem = s.mem := rfl
@[simp] theorem State.raise_port (c : Cause) (s : State) :
    (s.raise c).port = s.port := rfl
@[simp] theorem State.raise_readData (c : Cause) (s : State) :
    (s.raise c).readData = s.readData := rfl
@[simp] theorem State.raise_draws (c : Cause) (s : State) :
    (s.raise c).draws = s.draws := rfl

/-! ## `complete` -/

@[simp] theorem State.complete_params (r : Word) (s : State) :
    (s.complete r).params = s.params := rfl
@[simp] theorem State.complete_cmd (r : Word) (s : State) :
    (s.complete r).cmd = s.cmd := rfl
@[simp] theorem State.complete_arg0 (r : Word) (s : State) :
    (s.complete r).arg0 = s.arg0 := rfl
@[simp] theorem State.complete_arg1 (r : Word) (s : State) :
    (s.complete r).arg1 = s.arg1 := rfl
@[simp] theorem State.complete_arg2 (r : Word) (s : State) :
    (s.complete r).arg2 = s.arg2 := rfl
@[simp] theorem State.complete_result (r : Word) (s : State) :
    (s.complete r).result = r := rfl
@[simp] theorem State.complete_phase (r : Word) (s : State) :
    (s.complete r).phase = .idle := rfl
@[simp] theorem State.complete_lcmd (r : Word) (s : State) :
    (s.complete r).lcmd = s.lcmd := rfl
@[simp] theorem State.complete_larg0 (r : Word) (s : State) :
    (s.complete r).larg0 = s.larg0 := rfl
@[simp] theorem State.complete_larg1 (r : Word) (s : State) :
    (s.complete r).larg1 = s.larg1 := rfl
@[simp] theorem State.complete_larg2 (r : Word) (s : State) :
    (s.complete r).larg2 = s.larg2 := rfl
@[simp] theorem State.complete_k (r : Word) (s : State) :
    (s.complete r).k = s.k := rfl
@[simp] theorem State.complete_n (r : Word) (s : State) :
    (s.complete r).n = s.n := rfl
@[simp] theorem State.complete_enc (r : Word) (s : State) :
    (s.complete r).enc = s.enc := rfl
@[simp] theorem State.complete_dec (r : Word) (s : State) :
    (s.complete r).dec = s.dec := rfl
@[simp] theorem State.complete_mem (r : Word) (s : State) :
    (s.complete r).mem = s.mem := rfl
@[simp] theorem State.complete_port (r : Word) (s : State) :
    (s.complete r).port = s.port := rfl
@[simp] theorem State.complete_readData (r : Word) (s : State) :
    (s.complete r).readData = s.readData := rfl
@[simp] theorem State.complete_draws (r : Word) (s : State) :
    (s.complete r).draws = s.draws := rfl

/-! ## `start` -/

@[simp] theorem State.start_params (w : Word) (s : State) :
    (s.start w).params = s.params := rfl
@[simp] theorem State.start_cmd (w : Word) (s : State) :
    (s.start w).cmd = w := rfl
@[simp] theorem State.start_arg0 (w : Word) (s : State) :
    (s.start w).arg0 = s.arg0 := rfl
@[simp] theorem State.start_arg1 (w : Word) (s : State) :
    (s.start w).arg1 = s.arg1 := rfl
@[simp] theorem State.start_arg2 (w : Word) (s : State) :
    (s.start w).arg2 = s.arg2 := rfl
@[simp] theorem State.start_result (w : Word) (s : State) :
    (s.start w).result = s.result := rfl
@[simp] theorem State.start_phase (w : Word) (s : State) :
    (s.start w).phase = .busy := rfl
@[simp] theorem State.start_lcmd (w : Word) (s : State) :
    (s.start w).lcmd = w := rfl
@[simp] theorem State.start_larg0 (w : Word) (s : State) :
    (s.start w).larg0 = s.arg0 := rfl
@[simp] theorem State.start_larg1 (w : Word) (s : State) :
    (s.start w).larg1 = s.arg1 := rfl
@[simp] theorem State.start_larg2 (w : Word) (s : State) :
    (s.start w).larg2 = s.arg2 := rfl
@[simp] theorem State.start_k (w : Word) (s : State) :
    (s.start w).k = 0 := rfl
@[simp] theorem State.start_n (w : Word) (s : State) :
    (s.start w).n = s.n := rfl
@[simp] theorem State.start_enc (w : Word) (s : State) :
    (s.start w).enc = s.enc := rfl
@[simp] theorem State.start_dec (w : Word) (s : State) :
    (s.start w).dec = s.dec := rfl
@[simp] theorem State.start_mem (w : Word) (s : State) :
    (s.start w).mem = s.mem := rfl
@[simp] theorem State.start_port (w : Word) (s : State) :
    (s.start w).port = s.port := rfl
@[simp] theorem State.start_readData (w : Word) (s : State) :
    (s.start w).readData = s.readData := rfl
@[simp] theorem State.start_draws (w : Word) (s : State) :
    (s.start w).draws = s.draws := rfl

/-! ## `applyReset` -/

@[simp] theorem State.applyReset_params (s : State) :
    (s.applyReset).params = s.params := rfl
@[simp] theorem State.applyReset_cmd (s : State) :
    (s.applyReset).cmd = 0 := rfl
@[simp] theorem State.applyReset_arg0 (s : State) :
    (s.applyReset).arg0 = 0 := rfl
@[simp] theorem State.applyReset_arg1 (s : State) :
    (s.applyReset).arg1 = 0 := rfl
@[simp] theorem State.applyReset_arg2 (s : State) :
    (s.applyReset).arg2 = 0 := rfl
@[simp] theorem State.applyReset_result (s : State) :
    (s.applyReset).result = 0 := rfl
@[simp] theorem State.applyReset_phase (s : State) :
    (s.applyReset).phase = .idle := rfl
@[simp] theorem State.applyReset_lcmd (s : State) :
    (s.applyReset).lcmd = 0 := rfl
@[simp] theorem State.applyReset_larg0 (s : State) :
    (s.applyReset).larg0 = 0 := rfl
@[simp] theorem State.applyReset_larg1 (s : State) :
    (s.applyReset).larg1 = 0 := rfl
@[simp] theorem State.applyReset_larg2 (s : State) :
    (s.applyReset).larg2 = 0 := rfl
@[simp] theorem State.applyReset_k (s : State) :
    (s.applyReset).k = 0 := rfl
@[simp] theorem State.applyReset_n (s : State) :
    (s.applyReset).n = 0 := rfl
@[simp] theorem State.applyReset_enc (s : State) :
    (s.applyReset).enc = List.replicate s.enc.length freeEncSlot := rfl
@[simp] theorem State.applyReset_dec (s : State) :
    (s.applyReset).dec = List.replicate s.dec.length freeDecSlot := rfl
@[simp] theorem State.applyReset_mem (s : State) :
    (s.applyReset).mem = s.mem := rfl
@[simp] theorem State.applyReset_port (s : State) :
    (s.applyReset).port = s.port := rfl
@[simp] theorem State.applyReset_readData (s : State) :
    (s.applyReset).readData = s.readData := rfl
@[simp] theorem State.applyReset_draws (s : State) :
    (s.applyReset).draws = s.draws := rfl

/-! ## `afterDraw`: only the draw counter can change -/

@[simp] theorem State.afterDraw_params (s : State) : s.afterDraw.params = s.params := by
  unfold State.afterDraw; split <;> rfl
@[simp] theorem State.afterDraw_cmd (s : State) : s.afterDraw.cmd = s.cmd := by
  unfold State.afterDraw; split <;> rfl
@[simp] theorem State.afterDraw_arg0 (s : State) : s.afterDraw.arg0 = s.arg0 := by
  unfold State.afterDraw; split <;> rfl
@[simp] theorem State.afterDraw_arg1 (s : State) : s.afterDraw.arg1 = s.arg1 := by
  unfold State.afterDraw; split <;> rfl
@[simp] theorem State.afterDraw_arg2 (s : State) : s.afterDraw.arg2 = s.arg2 := by
  unfold State.afterDraw; split <;> rfl
@[simp] theorem State.afterDraw_result (s : State) : s.afterDraw.result = s.result := by
  unfold State.afterDraw; split <;> rfl
@[simp] theorem State.afterDraw_phase (s : State) : s.afterDraw.phase = s.phase := by
  unfold State.afterDraw; split <;> rfl
@[simp] theorem State.afterDraw_lcmd (s : State) : s.afterDraw.lcmd = s.lcmd := by
  unfold State.afterDraw; split <;> rfl
@[simp] theorem State.afterDraw_larg0 (s : State) : s.afterDraw.larg0 = s.larg0 := by
  unfold State.afterDraw; split <;> rfl
@[simp] theorem State.afterDraw_larg1 (s : State) : s.afterDraw.larg1 = s.larg1 := by
  unfold State.afterDraw; split <;> rfl
@[simp] theorem State.afterDraw_larg2 (s : State) : s.afterDraw.larg2 = s.larg2 := by
  unfold State.afterDraw; split <;> rfl
@[simp] theorem State.afterDraw_k (s : State) : s.afterDraw.k = s.k := by
  unfold State.afterDraw; split <;> rfl
@[simp] theorem State.afterDraw_n (s : State) : s.afterDraw.n = s.n := by
  unfold State.afterDraw; split <;> rfl
@[simp] theorem State.afterDraw_enc (s : State) : s.afterDraw.enc = s.enc := by
  unfold State.afterDraw; split <;> rfl
@[simp] theorem State.afterDraw_dec (s : State) : s.afterDraw.dec = s.dec := by
  unfold State.afterDraw; split <;> rfl
@[simp] theorem State.afterDraw_mem (s : State) : s.afterDraw.mem = s.mem := by
  unfold State.afterDraw; split <;> rfl
@[simp] theorem State.afterDraw_port (s : State) : s.afterDraw.port = s.port := by
  unfold State.afterDraw; split <;> rfl
@[simp] theorem State.afterDraw_readData (s : State) : s.afterDraw.readData = s.readData := by
  unfold State.afterDraw; split <;> rfl

theorem State.afterDraw_eq (s : State) : s.afterDraw = { s with draws := s.afterDraw.draws } := by
  unfold State.afterDraw; split <;> rfl

@[simp] theorem State.afterDraw_of_not (s : State) (h : s.params.createMayFail = false) :
    s.afterDraw = s := by simp [State.afterDraw, h]

@[simp] theorem State.drawFails_of_not (s : State) (h : s.params.createMayFail = false) :
    s.drawFails = false := by simp [State.drawFails, h]

/-! ## Operands read only the latches -/

@[simp] theorem State.inAddress_raise (c : Cause) (s : State) : (s.raise c).inAddress = s.inAddress := rfl
@[simp] theorem State.outAddress_raise (c : Cause) (s : State) : (s.raise c).outAddress = s.outAddress := rfl

/-! ## `Progress` -/

@[simp] theorem Progress.state_running (s : State) : (Progress.running s).state = s := rfl
@[simp] theorem Progress.state_stopped (s : State) : (Progress.stopped s).state = s := rfl
@[simp] theorem Progress.andThen_running (s : State) (f : State → Progress) :
    (Progress.running s).andThen f = f s := rfl
@[simp] theorem Progress.andThen_stopped (s : State) (f : State → Progress) :
    (Progress.stopped s).andThen f = .stopped s := rfl
@[simp] theorem Progress.finish_running (r : Word) (s : State) :
    (Progress.running s).finish r = s.complete r := rfl
@[simp] theorem Progress.finish_stopped (r : Word) (s : State) :
    (Progress.stopped s).finish r = s := rfl

end Sys2Proof.Machine
end

