-- ==== Sys2Proof/Laws/Access.lean ====
section
/-! SUPPORT. The block's memory accesses and one element of each transform: everything each can do. -/

namespace Sys2Proof.Machine

theorem State.loadByte_admitted (s : State) (a : Nat) (h : s.params.admits a .read = true) :
    s.loadByte a = some (s.mem.read a) := by simp [State.loadByte, h]

theorem State.loadByte_refused (s : State) (a : Nat) (h : ¬ s.params.admits a .read = true) :
    s.loadByte a = none := by simp [State.loadByte, h]

theorem State.storeByte_admitted (s : State) (a : Nat) (v : Byte)
    (h : s.params.admits a .write = true) :
    s.storeByte a v = .running { s with mem := s.mem.write a v } := by simp [State.storeByte, h]

theorem State.storeByte_refused (s : State) (a : Nat) (v : Byte)
    (h : ¬ s.params.admits a .write = true) :
    s.storeByte a v = .stopped (s.raise .busError) := by simp [State.storeByte, h]

theorem State.load16_admitted (s : State) (a : Nat) (h0 : s.params.admits a .read = true)
    (h1 : s.params.admits (a + 1) .read = true) :
    s.load16 a = some (sampleAt s.params.sampleEndian s.mem a) := by
  simp [State.load16, State.loadByte_admitted _ _ h0, State.loadByte_admitted _ _ h1, sampleAt]

theorem State.load16_refused (s : State) (a : Nat)
    (h : ¬ (s.params.admits a .read = true ∧ s.params.admits (a + 1) .read = true)) :
    s.load16 a = none := by
  by_cases h0 : s.params.admits a .read = true
  · simp [State.load16, State.loadByte_admitted _ _ h0,
      State.loadByte_refused s (a + 1) fun h1 => h ⟨h0, h1⟩]
  · simp [State.load16, State.loadByte_refused _ _ h0]

/-- An element of an encode whose accesses are all admitted. -/
theorem encodeElement_admitted (slot : EncSlot) (s : State) (h : EncodeElementAdmitted s s.k) :
    encodeElement slot s = .running { s with
      mem := s.mem.write (s.outAddress + s.k) (compressionOf slot.table
        (sampleAt s.params.sampleEndian s.mem (s.inAddress + 2 * s.k)))
      k := s.k + 1 } := by
  obtain ⟨h0, h1, h2⟩ := h
  simp [encodeElement, State.load16_admitted _ _ h0 h1, State.storeByte_admitted _ _ _ h2,
    State.nextElement]

/-- An element of an encode with a refused access: it has no effect but the fault. -/
theorem encodeElement_refused (slot : EncSlot) (s : State) (h : ¬ EncodeElementAdmitted s s.k) :
    encodeElement slot s = .stopped (s.raise .busError) := by
  by_cases hr : s.params.admits (s.inAddress + 2 * s.k) .read = true ∧
      s.params.admits (s.inAddress + 2 * s.k + 1) .read = true
  · have hw : ¬ s.params.admits (s.outAddress + s.k) .write = true := fun hw =>
      h ⟨hr.1, hr.2, hw⟩
    simp [encodeElement, State.load16_admitted _ _ hr.1 hr.2, State.storeByte_refused _ _ _ hw]
  · simp [encodeElement, State.load16_refused _ _ hr]

/-- An element of a decode whose accesses are all admitted. -/
theorem decodeElement_admitted (slot : DecSlot) (s : State) (h : DecodeElementAdmitted s s.k) :
    decodeElement slot s = .running { s with
      mem := (s.mem.write (s.outAddress + 2 * s.k) (lowerByte s.params.sampleEndian
          (expansionOf slot.table (codeRead s s.mem s.k)))).write (s.outAddress + 2 * s.k + 1)
          (higherByte s.params.sampleEndian (expansionOf slot.table (codeRead s s.mem s.k)))
      k := s.k + 1 } := by
  obtain ⟨h0, h1, h2⟩ := h
  simp [decodeElement, State.loadByte_admitted _ _ h0, State.store16,
    State.storeByte, h1, h2, State.nextElement, codeRead]

/-- An element of a decode whose read or first write is refused: no effect but the fault. -/
theorem decodeElement_refused (slot : DecSlot) (s : State)
    (h : ¬ (s.params.admits (s.inAddress + s.k) .read = true ∧
      s.params.admits (s.outAddress + 2 * s.k) .write = true)) :
    decodeElement slot s = .stopped (s.raise .busError) := by
  by_cases hr : s.params.admits (s.inAddress + s.k) .read = true
  · have hw : ¬ s.params.admits (s.outAddress + 2 * s.k) .write = true := fun hw => h ⟨hr, hw⟩
    simp [decodeElement, State.loadByte_admitted _ _ hr, State.store16,
      State.storeByte_refused _ _ _ hw]
  · simp [decodeElement, State.loadByte_refused _ _ hr]

/-- An element of a decode whose second write is refused: the first byte is written
(60_exceptions.md R203). -/
theorem decodeElement_half (slot : DecSlot) (s : State)
    (h0 : s.params.admits (s.inAddress + s.k) .read = true)
    (h1 : s.params.admits (s.outAddress + 2 * s.k) .write = true)
    (h2 : ¬ s.params.admits (s.outAddress + 2 * s.k + 1) .write = true) :
    decodeElement slot s = .stopped (State.raise .busError { s with
      mem := s.mem.write (s.outAddress + 2 * s.k) (lowerByte s.params.sampleEndian
          (expansionOf slot.table (codeRead s s.mem s.k))) }) := by
  simp [decodeElement, State.loadByte_admitted _ _ h0, State.store16,
    State.storeByte, h1, h2, codeRead]

end Sys2Proof.Machine
end

