-- ==== Sys2Proof/Laws/Memory.lean ====
section
/-! SUPPORT. Host memory: a read after a write, the canonical form, equal memories are equal lists. -/

namespace Sys2Proof.Machine

@[simp] theorem Memory.read_nil (a : Nat) : Memory.read [] a = blankByte := rfl

theorem Memory.read_cons (b : Nat) (v : Byte) (m : Memory) (a : Nat) :
    Memory.read ((b, v) :: m) a = if b = a then v else Memory.read m a := rfl

theorem Memory.wf_cons (a : Nat) (v : Byte) (m : Memory) :
    Memory.wf ((a, v) :: m) = true ↔ v ≠ blankByte ∧ (∀ c ∈ m, a < c.1) ∧ Memory.wf m = true := by
  simp [Memory.wf, and_assoc]

/-- An address below every listed one reads as blank. -/
theorem Memory.read_of_lt (m : Memory) (a : Nat) (h : ∀ c ∈ m, a < c.1) :
    Memory.read m a = blankByte := by
  induction m with
  | nil => rfl
  | cons c m ih =>
    obtain ⟨b, v⟩ := c
    have hb : a < b := h (b, v) (by simp)
    rw [Memory.read_cons, if_neg (by omega)]
    exact ih fun c hc => h c (by simp [hc])

/-- A write leaves every other address alone. -/
theorem Memory.read_write_ne (m : Memory) (a b : Nat) (v : Byte) (h : b ≠ a) :
    Memory.read (Memory.write m a v) b = Memory.read m b := by
  induction m with
  | nil =>
    unfold Memory.write
    split
    · rfl
    · rw [Memory.read_cons, if_neg (Ne.symm h)]
  | cons c m ih =>
    obtain ⟨d, u⟩ := c
    unfold Memory.write
    split
    · split
      · rfl
      · rw [Memory.read_cons, if_neg (Ne.symm h)]
    · split
      · next _ hd =>
        subst hd
        split
        · rw [Memory.read_cons, if_neg (Ne.symm h)]
        · rw [Memory.read_cons, Memory.read_cons, if_neg (Ne.symm h), if_neg (Ne.symm h)]
      · rw [Memory.read_cons, Memory.read_cons, ih]

/-- A read of the written address gives the value written. -/
theorem Memory.read_write_same (m : Memory) (a : Nat) (v : Byte) (h : Memory.wf m = true) :
    Memory.read (Memory.write m a v) a = v := by
  induction m with
  | nil =>
    unfold Memory.write
    split
    · next hv => exact hv.symm
    · rw [Memory.read_cons, if_pos rfl]
  | cons c m ih =>
    obtain ⟨d, u⟩ := c
    obtain ⟨_, hlt, hm⟩ := (Memory.wf_cons d u m).1 h
    unfold Memory.write
    split
    · next had =>
      split
      · next hv =>
        rw [hv]
        refine Memory.read_of_lt _ _ fun c hc => ?_
        rcases List.mem_cons.1 hc with rfl | hc
        · exact had
        · exact lt_trans had (hlt c hc)
      · rw [Memory.read_cons, if_pos rfl]
    · split
      · next _ hd =>
        subst hd
        split
        · next hv => rw [hv]; exact Memory.read_of_lt _ _ hlt
        · rw [Memory.read_cons, if_pos rfl]
      · next h1 h2 => rw [Memory.read_cons, if_neg (by omega)]; exact ih hm

/-- Every address a write leaves listed is the written one or was listed. -/
theorem Memory.mem_write (m : Memory) (a : Nat) (v : Byte) (c : Host.Cell)
    (h : c ∈ Memory.write m a v) : c.1 = a ∨ c ∈ m := by
  induction m with
  | nil =>
    unfold Memory.write at h
    split at h
    · simp at h
    · simp only [List.mem_singleton] at h; left; rw [h]
  | cons d m ih =>
    obtain ⟨b, u⟩ := d
    unfold Memory.write at h
    split at h
    · split at h
      · right; exact h
      · rcases List.mem_cons.1 h with rfl | h
        · left; rfl
        · right; exact h
    · split at h
      · split at h
        · right; exact List.mem_cons_of_mem _ h
        · rcases List.mem_cons.1 h with rfl | h
          · left; rfl
          · right; exact List.mem_cons_of_mem _ h
      · rcases List.mem_cons.1 h with rfl | h
        · right; simp
        · rcases ih h with h | h
          · left; exact h
          · right; exact List.mem_cons_of_mem _ h

/-- A write keeps the canonical form. -/
theorem Memory.write_wf (m : Memory) (a : Nat) (v : Byte) (h : Memory.wf m = true) :
    Memory.wf (Memory.write m a v) = true := by
  induction m with
  | nil =>
    unfold Memory.write
    split
    · rfl
    · next hv => exact (Memory.wf_cons _ _ _).2 ⟨hv, by simp, rfl⟩
  | cons c m ih =>
    obtain ⟨b, u⟩ := c
    obtain ⟨hu, hlt, hm⟩ := (Memory.wf_cons b u m).1 h
    unfold Memory.write
    split
    · next hab =>
      split
      · exact h
      · next hv =>
        refine (Memory.wf_cons _ _ _).2 ⟨hv, fun c hc => ?_, h⟩
        rcases List.mem_cons.1 hc with rfl | hc
        · exact hab
        · exact lt_trans hab (hlt c hc)
    · split
      · next _ hab =>
        subst hab
        split
        · exact hm
        · next hv => exact (Memory.wf_cons _ _ _).2 ⟨hv, hlt, hm⟩
      · refine (Memory.wf_cons _ _ _).2 ⟨hu, fun c hc => ?_, ih hm⟩
        rcases Memory.mem_write m a v c hc with hc | hc
        · rw [hc]; omega
        · exact hlt c hc

theorem Memory.within_iff (size : Nat) (m : Memory) :
    Memory.within size m = true ↔ ∀ c ∈ m, c.1 < size := by
  simp [Memory.within]

/-- A write inside the space keeps every listed address inside it. -/
theorem Memory.write_within (size : Nat) (m : Memory) (a : Nat) (v : Byte) (ha : a < size)
    (h : Memory.within size m = true) : Memory.within size (Memory.write m a v) = true := by
  rw [Memory.within_iff] at *
  intro c hc
  rcases Memory.mem_write m a v c hc with hc | hc
  · rw [hc]; exact ha
  · exact h c hc

theorem Memory.read_ne_of_mem (m : Memory) (a : Nat) (v : Byte) (h : Memory.wf m = true)
    (hm : (a, v) ∈ m) : Memory.read m a = v ∧ v ≠ blankByte := by
  induction m with
  | nil => simp at hm
  | cons c m ih =>
    obtain ⟨b, u⟩ := c
    obtain ⟨hu, hlt, hwf⟩ := (Memory.wf_cons b u m).1 h
    rw [Memory.read_cons]
    rcases List.mem_cons.1 hm with hm | hm
    · injection hm with h1 h2
      subst h1; subst h2
      exact ⟨if_pos rfl, hu⟩
    · have := hlt _ hm
      rw [if_neg (by simp at this; omega)]
      exact ih hwf hm

/-- Equal memories are equal data: two memories in canonical form that read alike are one list. -/
theorem Memory.eq_of_read_eq (m m' : Memory) (h : Memory.wf m = true) (h' : Memory.wf m' = true)
    (hr : ∀ a, Memory.read m a = Memory.read m' a) : m = m' := by
  induction m generalizing m' with
  | nil =>
    cases m' with
    | nil => rfl
    | cons c m' =>
      obtain ⟨a, v⟩ := c
      have h1 := Memory.read_ne_of_mem _ a v h' (by simp)
      exact absurd (h1.1.symm.trans (hr a).symm) h1.2
  | cons c m ih =>
    obtain ⟨a, v⟩ := c
    have h1 := Memory.read_ne_of_mem _ a v h (by simp)
    cases m' with
    | nil => exact absurd (h1.1.symm.trans (hr a)) h1.2
    | cons c' m' =>
      obtain ⟨b, u⟩ := c'
      have h2 := Memory.read_ne_of_mem _ b u h' (by simp)
      obtain ⟨_, hlt, hm⟩ := (Memory.wf_cons a v m).1 h
      obtain ⟨_, hlt', hm'⟩ := (Memory.wf_cons b u m').1 h'
      have hab : a = b := by
        rcases lt_trichotomy a b with hab | hab | hab
        · have := Memory.read_of_lt ((b, u) :: m') a fun c hc => by
            rcases List.mem_cons.1 hc with rfl | hc
            · exact hab
            · exact lt_trans hab (hlt' c hc)
          exact absurd (h1.1.symm.trans ((hr a).trans this)) h1.2
        · exact hab
        · have := Memory.read_of_lt ((a, v) :: m) b fun c hc => by
            rcases List.mem_cons.1 hc with rfl | hc
            · exact hab
            · exact lt_trans hab (hlt c hc)
          exact absurd (h2.1.symm.trans ((hr b).symm.trans this)) h2.2
      subst hab
      have hvu : v = u := h1.1.symm.trans ((hr a).trans h2.1)
      subst hvu
      rw [ih m' hm hm' fun x => ?_]
      by_cases hx : a = x
      · subst hx
        rw [Memory.read_of_lt m _ hlt, Memory.read_of_lt m' _ hlt']
      · have := hr x
        rwa [Memory.read_cons, Memory.read_cons, if_neg hx, if_neg hx] at this

/-- The memory of the reset state is in canonical form. -/
theorem State.reset_mem_wf : State.reset.mem.wf = true := rfl

end Sys2Proof.Machine
end

