-- ==== Sys2Proof/Laws/Buffers.lean ====
section
/-! SUPPORT. What a transform leaves in memory, read byte by byte: the small lemmas of `encodedUpTo`,
`decodedUpTo` and `sampleAt`. -/

namespace Sys2Proof.Machine

/-- A sample comes back from its two bytes, in either byte order. -/
theorem joinSample_bytes (e : Endian) (p : Sample) :
    joinSample e (lowerByte e p) (higherByte e p) = p := by
  cases e <;> simp only [joinSample, lowerByte, higherByte] <;>
    (apply BitVec.eq_of_getLsbD_eq
     intro i hi
     simp only [BitVec.getLsbD_append, BitVec.getLsbD_extractLsb']
     interval_cases i <;> simp)

theorem encodedUpTo_wf (t : CompressionTable) (s : State) (h : s.mem.wf = true) (k : Nat) :
    (encodedUpTo t s k).wf = true := by
  induction k with
  | zero => exact h
  | succ k ih => exact Memory.write_wf _ _ _ ih

theorem decodedUpTo_wf (t : ExpansionTable) (s : State) (h : s.mem.wf = true) (k : Nat) :
    (decodedUpTo t s k).wf = true := by
  induction k with
  | zero => exact h
  | succ k ih => exact Memory.write_wf _ _ _ (Memory.write_wf _ _ _ ih)

/-- Outside the output bytes of the first `k` elements an encode changes nothing. -/
theorem encodedUpTo_other (t : CompressionTable) (s : State) (k a : Nat)
    (h : a < s.outAddress ∨ s.outAddress + k ≤ a) : (encodedUpTo t s k).read a = s.mem.read a := by
  induction k with
  | zero => rfl
  | succ k ih => rw [encodedUpTo, Memory.read_write_ne _ _ _ _ (by omega), ih (by omega)]

/-- Outside the output bytes of the first `k` elements a decode changes nothing. -/
theorem decodedUpTo_other (t : ExpansionTable) (s : State) (k a : Nat)
    (h : a < s.outAddress ∨ s.outAddress + 2 * k ≤ a) :
    (decodedUpTo t s k).read a = s.mem.read a := by
  induction k with
  | zero => rfl
  | succ k ih =>
    simp only [decodedUpTo]
    rw [Memory.read_write_ne _ _ _ _ (by omega), Memory.read_write_ne _ _ _ _ (by omega),
      ih (by omega)]

/-- Output byte `k` of an encode is written by element `k` and by no later one. -/
theorem encodedUpTo_out (t : CompressionTable) (s : State) (hw : s.mem.wf = true) (n k : Nat)
    (h : k < n) :
    (encodedUpTo t s n).read (s.outAddress + k) =
      compressionOf t
        (sampleAt s.params.sampleEndian (encodedUpTo t s k) (s.inAddress + 2 * k)) := by
  induction n with
  | zero => omega
  | succ n ih =>
    rw [encodedUpTo]
    by_cases hk : k = n
    · subst hk
      rw [Memory.read_write_same _ _ _ (encodedUpTo_wf t s hw k)]
    · rw [Memory.read_write_ne _ _ _ _ (by omega), ih (by omega)]

/-- Output sample `k` of a decode is written by element `k` and by no later one. -/
theorem decodedUpTo_out (t : ExpansionTable) (s : State) (hw : s.mem.wf = true) (n k : Nat)
    (h : k < n) :
    sampleAt s.params.sampleEndian (decodedUpTo t s n) (s.outAddress + 2 * k) =
      expansionOf t (codeRead s (decodedUpTo t s k) k) := by
  induction n with
  | zero => omega
  | succ n ih =>
    simp only [decodedUpTo]
    by_cases hk : k = n
    · subst hk
      rw [sampleAt, Memory.read_write_ne _ _ _ _ (by omega),
        Memory.read_write_same _ _ _ (decodedUpTo_wf t s hw k),
        Memory.read_write_same _ _ _ (Memory.write_wf _ _ _ (decodedUpTo_wf t s hw k)),
        joinSample_bytes]
    · rw [← ih (by omega), sampleAt, sampleAt, Memory.read_write_ne _ _ _ _ (by omega),
        Memory.read_write_ne _ _ _ _ (by omega), Memory.read_write_ne _ _ _ _ (by omega),
        Memory.read_write_ne _ _ _ _ (by omega)]

/-- The expansion table, entry by entry. -/
theorem expansionOf_expansionTable : ∀ c : Byte, expansionOf expansionTable c = u16 (expand c) := by
  decide +kernel

/-- A live slot is one of the unit's slots. -/
theorem LiveAt.mem {τ : Type} {slots : List (Slot τ)} {h : Nat} {x : Slot τ}
    (hx : LiveAt slots h x) : x ∈ slots := by
  obtain ⟨hs, _⟩ := hx
  cases h with
  | zero => cases hs
  | succ i => exact List.mem_of_getElem? hs

end Sys2Proof.Machine
end

