-- ==== Sys2Proof/Laws/Operands.lean ====
section
/-! SUPPORT. What a handle names, the lowest free slot, releasing a slot, the range check and the
outcome of a transform's checks: one lemma each, in the terms of Safety. -/

namespace Sys2Proof.Machine

variable {τ : Type}

@[simp] theorem slotOf_zero (slots : List (Slot τ)) : slotOf slots 0 = none := rfl
@[simp] theorem slotOf_succ (slots : List (Slot τ)) (i : Nat) : slotOf slots (i + 1) = slots[i]? := rfl

@[simp] theorem nameOf_zero (slots : List (Slot τ)) : nameOf slots 0 = .null := rfl

theorem nameOf_live (slots : List (Slot τ)) (h : Nat) (x : Slot τ) (hx : LiveAt slots h x) :
    nameOf slots h = .live x := by
  obtain ⟨hs, hl⟩ := hx
  cases h with
  | zero => simp at hs
  | succ i => simp [nameOf, show slots[i]? = some x from hs, hl]

theorem nameOf_dead (slots : List (Slot τ)) (h : Nat) (hd : DeadAt slots h) :
    nameOf slots h = .dead := by
  obtain ⟨h0, hd⟩ := hd
  cases h with
  | zero => exact absurd rfl h0
  | succ i =>
    rcases hd with hd | ⟨x, hs, hl⟩
    · simp [nameOf, List.getElem?_eq_none_iff.2 (show slots.length ≤ i by omega)]
    · simp [nameOf, show slots[i]? = some x from hs, hl]

/-- The three cases a handle can be in. -/
theorem handle_cases (slots : List (Slot τ)) (h : Nat) :
    h = 0 ∨ DeadAt slots h ∨ ∃ x, LiveAt slots h x := by
  cases h with
  | zero => left; rfl
  | succ i =>
    right
    cases hs : slots[i]? with
    | none =>
      left
      exact ⟨by omega, .inl (by have := List.getElem?_eq_none_iff.1 hs; omega)⟩
    | some x =>
      cases hl : x.live with
      | false => left; exact ⟨by omega, .inr ⟨x, hs, hl⟩⟩
      | true => right; exact ⟨x, hs, hl⟩

theorem nameOf_live_iff (slots : List (Slot τ)) (h : Nat) (x : Slot τ) :
    nameOf slots h = .live x ↔ LiveAt slots h x := by
  constructor
  · intro hn
    rcases handle_cases slots h with rfl | hd | ⟨y, hy⟩
    · simp at hn
    · rw [nameOf_dead _ _ hd] at hn; cases hn
    · rw [nameOf_live _ _ _ hy] at hn
      injection hn with hn
      exact hn ▸ hy
  · exact nameOf_live _ _ _

/-- Below a live head, the lowest free slot is the tail's. -/
theorem lowestFree_cons_live (y : Slot τ) (slots : List (Slot τ)) (i : Nat)
    (h : LowestFree (y :: slots) (i + 2)) : y.live = true ∧ LowestFree slots (i + 1) := by
  obtain ⟨⟨x, hx, hl⟩, hb⟩ := h
  refine ⟨?_, ⟨x, by simpa using hx, hl⟩, fun h' h1 h2 => ?_⟩
  · obtain ⟨z, hz, hzl⟩ := hb 1 (by omega) (by omega)
    have hy : y = z := by simpa using hz
    rw [hy]; exact hzl
  · obtain ⟨j, rfl⟩ : ∃ j, h' = j + 1 := ⟨h' - 1, by omega⟩
    obtain ⟨z, hz, hzl⟩ := hb (j + 2) (by omega) (by omega)
    exact ⟨z, by simpa using hz, hzl⟩

/-- `firstFree` finds the lowest-numbered free slot. -/
theorem firstFree_lowest (slots : List (Slot τ)) (i : Nat) (h : LowestFree slots (i + 1)) :
    firstFree slots = some i := by
  induction slots generalizing i with
  | nil => obtain ⟨⟨x, hx, _⟩, _⟩ := h; simp at hx
  | cons y slots ih =>
    cases i with
    | zero =>
      obtain ⟨⟨x, hx, hl⟩, _⟩ := h
      have hy : y = x := by simpa using hx
      simp [firstFree, hy, hl]
    | succ i =>
      obtain ⟨hy, ht⟩ := lowestFree_cons_live y slots i h
      simp [firstFree, hy, ih i ht]

/-- What `firstFree` finds is free, and everything before it is live. -/
theorem lowest_of_firstFree (slots : List (Slot τ)) (i : Nat) (h : firstFree slots = some i) :
    LowestFree slots (i + 1) := by
  induction slots generalizing i with
  | nil => simp [firstFree] at h
  | cons y slots ih =>
    unfold firstFree at h
    split at h
    · next hy =>
      obtain ⟨j, hj, rfl⟩ := Option.map_eq_some_iff.1 h
      obtain ⟨⟨x, hx, hl⟩, hb⟩ := ih j hj
      refine ⟨⟨x, by simpa using hx, hl⟩, fun h' h1 h2 => ?_⟩
      obtain ⟨h', rfl⟩ : ∃ n, h' = n + 1 := ⟨h' - 1, by omega⟩
      cases h' with
      | zero => exact ⟨y, by simp, hy⟩
      | succ h' =>
        obtain ⟨z, hz, hzl⟩ := hb (h' + 1) (by omega) (by omega)
        exact ⟨z, by simpa using hz, hzl⟩
    · next hy =>
      simp only [Option.some.injEq] at h
      subst h
      exact ⟨⟨y, by simp, by simpa using hy⟩, fun h' h1 h2 => by omega⟩

theorem firstFree_none_iff (slots : List (Slot τ)) :
    firstFree slots = none ↔ ∀ x ∈ slots, x.live = true := by
  induction slots with
  | nil => simp [firstFree]
  | cons y slots ih => by_cases hy : y.live <;> simp [firstFree, hy, ih]

/-- Releasing a live slot sets it, with `live` cleared. -/
theorem release_eq_set (slots : List (Slot τ)) (h : Nat) (x : Slot τ)
    (hx : slotOf slots h = some x) :
    release slots h = slots.set (h - 1) { x with live := false } := by
  cases h with
  | zero => simp at hx
  | succ i =>
    rw [slotOf_succ] at hx
    obtain ⟨hi, hxi⟩ := List.getElem?_eq_some_iff.1 hx
    simp only [release, Nat.add_sub_cancel]
    rw [List.modify_eq_set_getElem? ]
    simp [hx]

theorem inRange_iff (p : Params) (base bytes : Nat) :
    inRange p base bytes = true ↔ bytes = 0 ∨ base + bytes ≤ 2 ^ p.addrWidth := by
  have := Nat.two_pow_pos p.addrWidth
  generalize hm : 2 ^ p.addrWidth = m at *
  have hm' : p.memorySize = m := hm
  simp only [inRange, hm', Bool.or_eq_true, beq_iff_eq, Bool.and_eq_true, decide_eq_true_eq]
  omega

theorem badArguments_of_good (s : State) (h : GoodArguments s) : s.badArguments = false := by
  obtain ⟨h0, h1, h2⟩ := h
  simp [State.badArguments, h0, h1, h2]

theorem badArguments_of_not_good (s : State) (h : ¬ GoodArguments s) : s.badArguments = true := by
  simp only [GoodArguments] at h
  simp only [State.badArguments, Bool.or_eq_true, beq_iff_eq, decide_eq_true_eq]
  omega

/-- The checks of an encode that lets its loop run. -/
theorem encodePlan_loop (s : State) (h : Nat) (x : EncSlot) (hx : LiveAt s.enc h x)
    (hg : GoodArguments s)
    (hin : encodeCount s = 0 ∨ BufferFits s s.inAddress (2 * encodeCount s))
    (hout : encodeCount s = 0 ∨ BufferFits s s.outAddress (encodeCount s)) :
    s.encodePlan h = .loop x (encodeCount s) (BitVec.ofNat 32 (encodeCount s)) := by
  have h1 : inRange s.params s.inAddress (2 * encodeCount s) = true :=
    (inRange_iff _ _ _).2 (hin.imp (by omega) id)
  have h2 : inRange s.params s.outAddress (encodeCount s) = true := (inRange_iff _ _ _).2 hout
  unfold encodeCount at *
  simp [State.encodePlan, nameOf_live _ _ _ hx, badArguments_of_good s hg, State.planBuffers, h1, h2]

/-- The checks of a decode that lets its loop run. -/
theorem decodePlan_loop (s : State) (h : Nat) (x : DecSlot) (hx : LiveAt s.dec h x)
    (hg : GoodArguments s) (hn : decodeCount x s ≤ 0x3FFFFFFF)
    (hin : BufferFits s s.inAddress (decodeCount x s))
    (hout : BufferFits s s.outAddress (2 * decodeCount x s)) :
    s.decodePlan h = .loop x (decodeCount x s) (BitVec.ofNat 32 (2 * decodeCount x s)) := by
  simp only [State.decodePlan, nameOf_live _ _ _ hx, badArguments_of_good s hg, decodeCount,
    BufferFits] at *
  simp [State.planBuffers, maxDecodeCount, Nat.not_lt.2 hn, (inRange_iff _ _ _).2 (.inr hin),
    (inRange_iff _ _ _).2 (.inr hout)]

/-- The loop of an encode: the slot is live and the count is `len / 2`. -/
theorem encodePlan_loop_inv (s : State) (h : Nat) (x : EncSlot) (m : Nat) (r : Word)
    (hp : s.encodePlan h = .loop x m r) :
    LiveAt s.enc h x ∧ GoodArguments s ∧ m = encodeCount s ∧ r = BitVec.ofNat 32 m ∧
      (m = 0 ∨ BufferFits s s.inAddress (2 * m) ∧ BufferFits s s.outAddress m) := by
  rcases handle_cases s.enc h with rfl | hd | ⟨y, hy⟩
  · simp [State.encodePlan] at hp
  · simp [State.encodePlan, nameOf_dead _ _ hd] at hp
  · by_cases hg : GoodArguments s
    · by_cases h1 : inRange s.params s.inAddress (2 * encodeCount s) = true
      · by_cases h2 : inRange s.params s.outAddress (encodeCount s) = true
        · have hp' : s.encodePlan h =
              .loop y (encodeCount s) (BitVec.ofNat 32 (encodeCount s)) := by
            unfold encodeCount at *
            simp [State.encodePlan, nameOf_live _ _ _ hy, badArguments_of_good s hg,
              State.planBuffers, h1, h2]
          rw [hp'] at hp
          injection hp with e1 e2 e3
          rw [inRange_iff] at h1 h2
          refine ⟨e1 ▸ hy, hg, e2.symm, e2 ▸ e3.symm, ?_⟩
          unfold BufferFits
          omega
        · unfold encodeCount at *
          simp [State.encodePlan, nameOf_live _ _ _ hy, badArguments_of_good s hg,
            State.planBuffers, h1, h2] at hp
      · unfold encodeCount at *
        simp [State.encodePlan, nameOf_live _ _ _ hy, badArguments_of_good s hg,
          State.planBuffers, h1] at hp
    · simp [State.encodePlan, nameOf_live _ _ _ hy, badArguments_of_not_good s hg] at hp

/-- The loop of a decode: the slot is live and the count is `FRAME_LEN(len, channels)`. -/
theorem decodePlan_loop_inv (s : State) (h : Nat) (x : DecSlot) (m : Nat) (r : Word)
    (hp : s.decodePlan h = .loop x m r) :
    LiveAt s.dec h x ∧ GoodArguments s ∧ m = decodeCount x s ∧ r = BitVec.ofNat 32 (2 * m) ∧
      m ≤ 0x3FFFFFFF ∧
      (m = 0 ∨ BufferFits s s.inAddress m ∧ BufferFits s s.outAddress (2 * m)) := by
  rcases handle_cases s.dec h with rfl | hd | ⟨y, hy⟩
  · simp [State.decodePlan] at hp
  · simp [State.decodePlan, nameOf_dead _ _ hd] at hp
  · by_cases hg : GoodArguments s
    · by_cases h0 : maxDecodeCount < decodeCount y s
      · unfold decodeCount at *
        simp [State.decodePlan, nameOf_live _ _ _ hy, badArguments_of_good s hg, h0] at hp
      by_cases h1 : inRange s.params s.inAddress (decodeCount y s) = true
      · by_cases h2 : inRange s.params s.outAddress (2 * decodeCount y s) = true
        · have hp' : s.decodePlan h =
              .loop y (decodeCount y s) (BitVec.ofNat 32 (2 * decodeCount y s)) := by
            unfold decodeCount at *
            simp [State.decodePlan, nameOf_live _ _ _ hy, badArguments_of_good s hg,
              State.planBuffers, h0, h1, h2]
          rw [hp'] at hp
          injection hp with e1 e2 e3
          subst e1
          rw [inRange_iff] at h1 h2
          refine ⟨hy, hg, e2.symm, e2 ▸ e3.symm, e2 ▸ Nat.not_lt.1 h0, ?_⟩
          unfold BufferFits
          omega
        · unfold decodeCount at *
          simp [State.decodePlan, nameOf_live _ _ _ hy, badArguments_of_good s hg,
            State.planBuffers, h0, h1, h2] at hp
      · unfold decodeCount at *
        simp [State.decodePlan, nameOf_live _ _ _ hy, badArguments_of_good s hg,
          State.planBuffers, h0, h1] at hp
    · simp [State.decodePlan, nameOf_live _ _ _ hy, badArguments_of_not_good s hg] at hp

theorem encodeCount_le (s : State) : encodeCount s ≤ 0x3FFFFFFF := by
  have := BitVec.toInt_lt (x := s.larg1)
  simp only [encodeCount, State.lengthOperand]
  omega

/-- The faults that the checks of an encode raise. -/
theorem encodePlan_fault (s : State) (h : Nat) (c : Cause) (hp : s.encodePlan h = .fault c) :
    c = .deadHandle ∨ c = .addressRange := by
  simp only [State.encodePlan, State.planBuffers] at hp
  repeat' split at hp
  all_goals cases hp
  all_goals simp

/-- The faults that the checks of a decode raise, `LENGTH_OVERFLOW` only for a live slot, valid
arguments and a count above the greatest. -/
theorem decodePlan_fault (s : State) (h : Nat) (c : Cause) (hp : s.decodePlan h = .fault c) :
    c = .deadHandle ∨ c = .addressRange ∨
      (c = .lengthOverflow ∧
        ∃ x, LiveAt s.dec h x ∧ GoodArguments s ∧ 0x3FFFFFFF < decodeCount x s) := by
  rcases handle_cases s.dec h with rfl | hd | ⟨x, hx⟩
  · simp [State.decodePlan] at hp
  · simp [State.decodePlan, nameOf_dead _ _ hd] at hp; simp [← hp]
  · by_cases hg : GoodArguments s
    · simp only [State.decodePlan, nameOf_live _ _ _ hx, badArguments_of_good s hg,
        State.planBuffers] at hp
      rw [if_neg (by simp)] at hp
      split at hp
      · next hn => cases hp; exact .inr (.inr ⟨rfl, x, hx, hg, hn⟩)
      · repeat' split at hp
        all_goals cases hp
        all_goals simp
    · simp [State.decodePlan, nameOf_live _ _ _ hx, badArguments_of_not_good s hg] at hp

end Sys2Proof.Machine
end

