-- ==== Sys2Proof/Laws/Transform.lean ====
section
/-! SUPPORT. The element loop of a transform: its shape, what it never changes, what it keeps, and
its state after elements that the memory admits. -/

namespace Sys2Proof.Machine

@[simp] theorem runElements_zero (e : State → Progress) (s : State) :
    runElements e 0 s = .running s := rfl

theorem Progress.andThen_assoc (p : Progress) (f g : State → Progress) :
    (p.andThen f).andThen g = p.andThen fun s => (f s).andThen g := by
  cases p <;> rfl

/-- The last element runs after the others. -/
theorem runElements_succ (e : State → Progress) (m : Nat) (s : State) :
    runElements e (m + 1) s = (runElements e m s).andThen e := by
  induction m generalizing s with
  | zero => cases h : e s <;> simp [runElements, h]
  | succ m ih =>
    rw [runElements]
    cases h : e s with
    | stopped t => simp [runElements, h]
    | running t =>
      rw [Progress.andThen_running, ih, runElements, h, Progress.andThen_running]

/-- A loop that has stopped stays stopped, however many elements follow. -/
theorem runElements_stopped (e : State → Progress) (m : Nat) (s t : State)
    (h : runElements e m s = .stopped t) (j : Nat) : runElements e (m + j) s = .stopped t := by
  induction j with
  | zero => exact h
  | succ j ih => rw [← Nat.add_assoc, runElements_succ, ih]; rfl

/-- The packaged induction over a loop: what holds at its start and what every element keeps, running
or stopped, holds at its end. -/
theorem runElements_keeps (e : State → Progress) (P : State → Prop)
    (step : ∀ s, P s → P (e s).state) (m : Nat) (s : State) (h : P s) :
    P (runElements e m s).state := by
  induction m generalizing s with
  | zero => exact h
  | succ m ih =>
    have hs := step s h
    rw [runElements]
    cases he : e s with
    | running t => rw [he] at hs; exact ih t hs
    | stopped t => rw [he] at hs; exact hs

/-- What an element of either transform can change: memory, `K` and the phase. -/
def ElementFrame (s t : State) : Prop :=
  t = { s with mem := t.mem, k := t.k, phase := t.phase }

theorem ElementFrame.refl (s : State) : ElementFrame s s := rfl

theorem ElementFrame.trans {s t u : State} (h : ElementFrame s t) (h' : ElementFrame t u) :
    ElementFrame s u := by
  unfold ElementFrame at *
  rw [h', h]

theorem encodeElement_frame (slot : EncSlot) (s : State) :
    ElementFrame s (encodeElement slot s).state := by
  by_cases h : EncodeElementAdmitted s s.k
  · rw [encodeElement_admitted slot s h]; rfl
  · rw [encodeElement_refused slot s h]; rfl

theorem decodeElement_frame (slot : DecSlot) (s : State) :
    ElementFrame s (decodeElement slot s).state := by
  by_cases hr : s.params.admits (s.inAddress + s.k) .read = true ∧
      s.params.admits (s.outAddress + 2 * s.k) .write = true
  · by_cases hw : s.params.admits (s.outAddress + 2 * s.k + 1) .write = true
    · rw [decodeElement_admitted slot s ⟨hr.1, hr.2, hw⟩]; rfl
    · rw [decodeElement_half slot s hr.1 hr.2 hw]; rfl
  · rw [decodeElement_refused slot s hr]; rfl

theorem runElements_frame (e : State → Progress) (he : ∀ s, ElementFrame s (e s).state) (m : Nat)
    (s : State) : ElementFrame s (runElements e m s).state :=
  runElements_keeps e (ElementFrame s) (fun t h => h.trans (he t)) m s (.refl s)

/-- What a whole transform can change: memory, `RESULT`, `K`, `N` and the phase. -/
def PlanFrame (s t : State) : Prop :=
  t = { s with mem := t.mem, k := t.k, n := t.n, phase := t.phase, result := t.result }

theorem Progress.finish_frame (r : Word) (s : State) (p : Progress) (h : ElementFrame s p.state) :
    PlanFrame s (p.finish r) := by
  cases p with
  | running t => unfold ElementFrame at h; rw [Progress.state_running] at h; rw [h]; rfl
  | stopped t => unfold ElementFrame at h; rw [Progress.state_stopped] at h; rw [h]; rfl

theorem runPlan_frame {τ : Type} (e : Slot τ → State → Progress)
    (he : ∀ slot s, ElementFrame s (e slot s).state) (p : Plan τ) (s : State) :
    PlanFrame s (runPlan e p s) := by
  cases p with
  | fault c => rfl
  | done r => rfl
  | loop slot m r =>
    have h := Progress.finish_frame r _ _
      (runElements_frame (e slot) (he slot) m { s with n := m, k := 0 })
    unfold PlanFrame at h ⊢
    rw [runPlan, h]

theorem stepPlan_frame {τ : Type} (e : Slot τ → State → Progress)
    (he : ∀ slot s, ElementFrame s (e slot s).state) (p : Plan τ) (s : State) :
    PlanFrame s (stepPlan e p s) := by
  cases p with
  | fault c => rfl
  | done r => rfl
  | loop slot m r =>
    rw [stepPlan]
    split
    · have h := he slot { s with n := m }
      unfold ElementFrame at h
      unfold PlanFrame
      rw [h]
    · rfl

/-- The only fault an element raises is `BUS_ERROR`. -/
theorem encodeElement_stopped (slot : EncSlot) (s t : State)
    (h : encodeElement slot s = .stopped t) : t.phase = .faulted .busError := by
  by_cases hh : EncodeElementAdmitted s s.k
  · rw [encodeElement_admitted slot s hh] at h; cases h
  · rw [encodeElement_refused slot s hh] at h; cases h; rfl

/-- The only fault an element raises is `BUS_ERROR`. -/
theorem decodeElement_stopped (slot : DecSlot) (s t : State)
    (h : decodeElement slot s = .stopped t) : t.phase = .faulted .busError := by
  by_cases hr : s.params.admits (s.inAddress + s.k) .read = true ∧
      s.params.admits (s.outAddress + 2 * s.k) .write = true
  · by_cases hw : s.params.admits (s.outAddress + 2 * s.k + 1) .write = true
    · rw [decodeElement_admitted slot s ⟨hr.1, hr.2, hw⟩] at h; cases h
    · rw [decodeElement_half slot s hr.1 hr.2 hw] at h; cases h; rfl
  · rw [decodeElement_refused slot s hr] at h; cases h; rfl

/-- A loop stops where one of its elements does. -/
theorem runElements_stopped_by (e : State → Progress) (P : State → Prop)
    (he : ∀ s t, e s = .stopped t → P t) (m : Nat) (s t : State)
    (h : runElements e m s = .stopped t) : P t := by
  induction m generalizing s with
  | zero => cases h
  | succ m ih =>
    rw [runElements] at h
    cases hs : e s with
    | running u => rw [hs] at h; exact ih u h
    | stopped u => rw [hs] at h; cases h; exact he s _ hs

/-- An encode after `m` elements that the memory admits. -/
theorem runElements_encode (slot : EncSlot) (s : State) (m : Nat)
    (h : ∀ i, i < m → EncodeElementAdmitted s i) :
    runElements (encodeElement slot) m { s with k := 0 } =
      .running { s with mem := encodedUpTo slot.table s m, k := m } := by
  induction m with
  | zero => rfl
  | succ m ih =>
    rw [runElements_succ, ih fun i hi => h i (by omega), Progress.andThen_running,
      encodeElement_admitted]
    · rfl
    · exact h m (by omega)

/-- A decode after `m` elements that the memory admits. -/
theorem runElements_decode (slot : DecSlot) (s : State) (m : Nat)
    (h : ∀ i, i < m → DecodeElementAdmitted s i) :
    runElements (decodeElement slot) m { s with k := 0 } =
      .running { s with mem := decodedUpTo slot.table s m, k := m } := by
  induction m with
  | zero => rfl
  | succ m ih =>
    rw [runElements_succ, ih fun i hi => h i (by omega), Progress.andThen_running,
      decodeElement_admitted]
    · rfl
    · exact h m (by omega)

/-- How a transform ends: with a result, with the fault of its checks, or with `BUS_ERROR` in its
loop. -/
theorem runPlan_phase {τ : Type} (e : Slot τ → State → Progress)
    (he : ∀ slot s t, e slot s = .stopped t → t.phase = .faulted .busError) (p : Plan τ)
    (s : State) :
    (runPlan e p s).phase = .idle ∨
      (∃ c, p = .fault c ∧ (runPlan e p s).phase = .faulted c) ∨
      (runPlan e p s).phase = .faulted .busError := by
  cases p with
  | fault c => exact .inr (.inl ⟨c, rfl, rfl⟩)
  | done r => exact .inl rfl
  | loop slot m r =>
    rw [runPlan]
    cases hr : runElements (e slot) m { s with n := m, k := 0 } with
    | running t => exact .inl rfl
    | stopped t =>
      exact .inr (.inr (runElements_stopped_by (e slot) (fun t => t.phase = .faulted .busError)
        (he slot) m _ t hr))

/-- The step of a loop at an element. -/
theorem stepPlan_element {τ : Type} (e : Slot τ → State → Progress) (slot : Slot τ) (m : Nat)
    (r : Word) (s : State) (h : s.k < m) :
    stepPlan e (.loop slot m r) s = (e slot { s with n := m }).state := by
  rw [stepPlan, if_pos h]

/-- The step of a loop at its end. -/
theorem stepPlan_end {τ : Type} (e : Slot τ → State → Progress) (slot : Slot τ) (m : Nat)
    (r : Word) (s : State) (h : m ≤ s.k) :
    stepPlan e (.loop slot m r) s = { s with n := m, result := r, phase := .idle } := by
  rw [stepPlan, if_neg (by omega), State.complete]

/-- The phase after one step of a transform. -/
theorem stepPlan_phase {τ : Type} (e : Slot τ → State → Progress)
    (hr : ∀ slot s t, e slot s = .running t → t.phase = s.phase)
    (he : ∀ slot s t, e slot s = .stopped t → t.phase = .faulted .busError) (p : Plan τ)
    (s : State) :
    (stepPlan e p s).phase = s.phase ∨ (stepPlan e p s).phase = .idle ∨
      (∃ c, p = .fault c ∧ (stepPlan e p s).phase = .faulted c) ∨
      (stepPlan e p s).phase = .faulted .busError := by
  cases p with
  | fault c => exact .inr (.inr (.inl ⟨c, rfl, rfl⟩))
  | done r => exact .inr (.inl rfl)
  | loop slot m r =>
    by_cases hk : s.k < m
    · rw [stepPlan_element e slot m r s hk]
      cases hx : e slot { s with n := m } with
      | running t =>
        have ht := hr slot _ t hx
        exact .inl ht
      | stopped t => exact .inr (.inr (.inr (he slot _ t hx)))
    · rw [stepPlan_end e slot m r s (by omega)]
      exact .inr (.inl rfl)

/-- An element that does not stop leaves the phase. -/
theorem encodeElement_running_phase (slot : EncSlot) (s t : State)
    (h : encodeElement slot s = .running t) : t.phase = s.phase := by
  by_cases hh : EncodeElementAdmitted s s.k
  · rw [encodeElement_admitted slot s hh] at h; cases h; rfl
  · rw [encodeElement_refused slot s hh] at h; cases h

/-- An element that does not stop leaves the phase. -/
theorem decodeElement_running_phase (slot : DecSlot) (s t : State)
    (h : decodeElement slot s = .running t) : t.phase = s.phase := by
  by_cases hr : s.params.admits (s.inAddress + s.k) .read = true ∧
      s.params.admits (s.outAddress + 2 * s.k) .write = true
  · by_cases hw : s.params.admits (s.outAddress + 2 * s.k + 1) .write = true
    · rw [decodeElement_admitted slot s ⟨hr.1, hr.2, hw⟩] at h; cases h; rfl
    · rw [decodeElement_half slot s hr.1 hr.2 hw] at h; cases h
  · rw [decodeElement_refused slot s hr] at h; cases h

end Sys2Proof.Machine
end

