-- ==== Sys2Proof/Laws/Exec.lean ====
section
/-! SUPPORT. What `exec` and the block's own step can do: they always give a next state, and what they
leave unchanged. -/

namespace Sys2Proof.Machine

/-- The state a command leaves, `exec` without its outcome. -/
def afterCommand (i : Instr) (s : State) : State :=
  match i with
  | .encCreate => s.encCreate
  | .encEncode h => runPlan encodeElement (s.encodePlan h) s
  | .encDestroy h => s.encDestroy h
  | .decCreate => s.decCreate
  | .decDecode h => runPlan decodeElement (s.decodePlan h) s
  | .decDestroy h => s.decDestroy h

/-- No command of the table stops the machine. -/
theorem exec_eq (i : Instr) (s : State) : exec i s = .next (afterCommand i s) := by
  cases i <;> rfl

theorem exec_next_iff (i : Instr) (s t : State) : exec i s = .next t ↔ t = afterCommand i s := by
  rw [exec_eq, Host.Outcome.next.injEq, eq_comm]

/-- What a create can change. -/
def CreateFrame (s t : State) : Prop :=
  t = { s with enc := t.enc, dec := t.dec, draws := t.draws, phase := t.phase, result := t.result }

theorem State.encCreate_frame (s : State) : CreateFrame s s.encCreate ∧ s.encCreate.dec = s.dec := by
  unfold State.encCreate
  split
  · exact ⟨rfl, rfl⟩
  · split
    · rw [State.afterDraw_eq]; exact ⟨rfl, rfl⟩
    · rw [State.afterDraw_eq]; exact ⟨rfl, rfl⟩

theorem State.decCreate_frame (s : State) : CreateFrame s s.decCreate ∧ s.decCreate.enc = s.enc := by
  unfold State.decCreate
  split
  · exact ⟨rfl, rfl⟩
  · split
    · rw [State.afterDraw_eq]; exact ⟨rfl, rfl⟩
    · rw [State.afterDraw_eq]; exact ⟨rfl, rfl⟩

theorem State.encDestroy_frame (h : Nat) (s : State) :
    CreateFrame s (s.encDestroy h) ∧ (s.encDestroy h).dec = s.dec := by
  unfold State.encDestroy
  split <;> exact ⟨rfl, rfl⟩

theorem State.decDestroy_frame (h : Nat) (s : State) :
    CreateFrame s (s.decDestroy h) ∧ (s.decDestroy h).enc = s.enc := by
  unfold State.decDestroy
  split <;> exact ⟨rfl, rfl⟩

end Sys2Proof.Machine
end

