-- ==== Sys2Proof/Laws/PerInstr.lean ====
section
/-! SUPPORT. Statements about every command as syntax, one lemma for each constructor. -/

namespace Sys2Proof.Laws

/-- The family FitsTable: a well-formed command's word is of the command's own row of the opcode
table (30_encoding.md R81). -/
def FitsTable.Statement (i : Instr) : Prop :=
  i.wf = true → ∃ r ∈ opcodeTable, r.mnemonic = i.mnemonic ∧ r.matches (encode i) = true

/-- Under the mask of a row with a handle, the handle drops out of the word. -/
theorem packWord_masked : ∀ (b : Byte) (u : BitVec 1) (f : BitVec 2),
    ((0 : BitVec 16) ++ b ++ (0 : BitVec 5) ++ u ++ f : Word) &&& 0xFFFF00FF =
      packWord 0 u f := by
  decide +kernel

theorem FitsTable.encCreate : FitsTable.Statement .encCreate :=
  fun _ => ⟨⟨"ENC_CREATE", 0x00000001, 0xFFFFFFFF⟩, by decide, rfl, by decide⟩

theorem FitsTable.encEncode (h : Nat) : FitsTable.Statement (.encEncode h) :=
  fun _ => ⟨⟨"ENC_ENCODE", 0x00000002, 0xFFFF00FF⟩, by decide, rfl,
    beq_iff_eq.2 (packWord_masked (BitVec.ofNat 8 h) 0 0b10)⟩

theorem FitsTable.encDestroy (h : Nat) : FitsTable.Statement (.encDestroy h) :=
  fun _ => ⟨⟨"ENC_DESTROY", 0x00000003, 0xFFFF00FF⟩, by decide, rfl,
    beq_iff_eq.2 (packWord_masked (BitVec.ofNat 8 h) 0 0b11)⟩

theorem FitsTable.decCreate : FitsTable.Statement .decCreate :=
  fun _ => ⟨⟨"DEC_CREATE", 0x00000005, 0xFFFFFFFF⟩, by decide, rfl, by decide⟩

theorem FitsTable.decDecode (h : Nat) : FitsTable.Statement (.decDecode h) :=
  fun _ => ⟨⟨"DEC_DECODE", 0x00000006, 0xFFFF00FF⟩, by decide, rfl,
    beq_iff_eq.2 (packWord_masked (BitVec.ofNat 8 h) 1 0b10)⟩

theorem FitsTable.decDestroy (h : Nat) : FitsTable.Statement (.decDestroy h) :=
  fun _ => ⟨⟨"DEC_DESTROY", 0x00000007, 0xFFFF00FF⟩, by decide, rfl,
    beq_iff_eq.2 (packWord_masked (BitVec.ofNat 8 h) 1 0b11)⟩

end Sys2Proof.Laws
end

