-- ==== Sys2Proof/Laws/Step.lean ====
section
/-! SUPPORT. The block's own steps, one step of the system by the event at the port, and runs: one
lemma for each thing a step can do, so that no proof unfolds `step`. -/

namespace Sys2Proof.Machine

/-! ## The block's own steps -/

/-- Outside `BUSY` the block does nothing. -/
theorem blockStep_still (s : State) (h : s.phase ≠ .busy) : s.blockStep = s := by
  unfold State.blockStep
  split
  · rfl
  · rfl
  · next hb => exact absurd hb h

theorem blockStep_busy (s : State) (i : Instr) (hb : s.phase = .busy) (hd : decode s.lcmd = .ok i) :
    s.blockStep = commandStep i s := by
  unfold State.blockStep
  rw [hb]
  simp only [hd]

theorem blockStep_illegal (s : State) (e : DecodeError) (hb : s.phase = .busy)
    (hd : decode s.lcmd = .error e) : s.blockStep = s.raise .illegalCommand := by
  unfold State.blockStep
  rw [hb]
  simp only [hd]

/-- The three things a block step can be. -/
theorem blockStep_cases (s : State) :
    (s.phase ≠ .busy ∧ s.blockStep = s) ∨
      (s.phase = .busy ∧ (∃ e, decode s.lcmd = .error e) ∧
        s.blockStep = s.raise .illegalCommand) ∨
      ∃ i, s.phase = .busy ∧ decode s.lcmd = .ok i ∧ s.blockStep = commandStep i s := by
  by_cases hb : s.phase = .busy
  · cases hd : decode s.lcmd with
    | error e => exact .inr (.inl ⟨hb, ⟨e, rfl⟩, blockStep_illegal s e hb hd⟩)
    | ok i => exact .inr (.inr ⟨i, hb, rfl, blockStep_busy s i hb hd⟩)
  · exact .inl ⟨hb, blockStep_still s hb⟩

@[simp] theorem blockSteps_zero (s : State) : State.blockSteps 0 s = s := rfl

theorem blockSteps_succ (m : Nat) (s : State) :
    State.blockSteps (m + 1) s = State.blockSteps m s.blockStep := rfl

theorem blockSteps_still (m : Nat) (s : State) (h : s.phase ≠ .busy) :
    State.blockSteps m s = s := by
  induction m with
  | zero => rfl
  | succ m ih => rw [blockSteps_succ, blockStep_still s h, ih]

theorem blockSteps_add (a b : Nat) (s : State) :
    State.blockSteps (a + b) s = State.blockSteps b (State.blockSteps a s) := by
  induction a generalizing s with
  | zero => rw [Nat.zero_add, blockSteps_zero]
  | succ a ih => rw [Nat.succ_add, blockSteps_succ, ih, blockSteps_succ]

/-- Once the command has ended, further block steps change nothing. -/
theorem blockSteps_past (s t : State) (a m : Nat) (h : State.blockSteps a s = t)
    (ht : t.phase ≠ .busy) (hm : a ≤ m) : State.blockSteps m s = t := by
  obtain ⟨b, rfl⟩ := Nat.exists_eq_add_of_le hm
  rw [blockSteps_add, h, blockSteps_still b t ht]

/-! ## What a command can change -/

/-- What a command, whole or in part, can change. -/
def CommandFrame (s t : State) : Prop :=
  t = { s with enc := t.enc, dec := t.dec, mem := t.mem, result := t.result, phase := t.phase,
               k := t.k, n := t.n, draws := t.draws }

theorem CreateFrame.command {s t : State} (h : CreateFrame s t) (hk : t.k = s.k) (hn : t.n = s.n)
    (hm : t.mem = s.mem) : CommandFrame s t := by
  unfold CreateFrame at h
  unfold CommandFrame
  rw [hk, hn, hm]
  exact h

theorem CreateFrame.to_command {s t : State} (h : CreateFrame s t) : CommandFrame s t := by
  unfold CreateFrame at h
  exact CreateFrame.command h (by rw [h]) (by rw [h]) (by rw [h])

theorem PlanFrame.to_command {s t : State} (h : PlanFrame s t) : CommandFrame s t := by
  unfold PlanFrame at h
  have he : t.enc = s.enc := by rw [h]
  have hd : t.dec = s.dec := by rw [h]
  have hr : t.draws = s.draws := by rw [h]
  unfold CommandFrame
  rw [he, hd, hr]
  exact h

theorem afterCommand_frame (i : Instr) (s : State) : CommandFrame s (afterCommand i s) := by
  cases i with
  | encCreate => exact (State.encCreate_frame s).1.to_command
  | encEncode h => exact (runPlan_frame encodeElement encodeElement_frame _ s).to_command
  | encDestroy h => exact (State.encDestroy_frame h s).1.to_command
  | decCreate => exact (State.decCreate_frame s).1.to_command
  | decDecode h => exact (runPlan_frame decodeElement decodeElement_frame _ s).to_command
  | decDestroy h => exact (State.decDestroy_frame h s).1.to_command

theorem commandStep_frame (i : Instr) (s : State) : CommandFrame s (commandStep i s) := by
  cases i with
  | encCreate => exact (State.encCreate_frame s).1.to_command
  | encEncode h => exact (stepPlan_frame encodeElement encodeElement_frame _ s).to_command
  | encDestroy h => exact (State.encDestroy_frame h s).1.to_command
  | decCreate => exact (State.decCreate_frame s).1.to_command
  | decDecode h => exact (stepPlan_frame decodeElement decodeElement_frame _ s).to_command
  | decDestroy h => exact (State.decDestroy_frame h s).1.to_command

theorem blockStep_frame (s : State) : CommandFrame s s.blockStep := by
  rcases blockStep_cases s with ⟨_, h⟩ | ⟨_, _, h⟩ | ⟨i, _, _, h⟩
  · rw [h]; rfl
  · rw [h]; rfl
  · rw [h]; exact commandStep_frame i s

/-! ## One step, by the event at the port -/

theorem step_empty (s : State) (h : s.port = []) : step s = .next s.blockStep := by
  simp only [step, State.advance, h]

theorem step_event (s : State) (e : Input) (rest : List Input) (h : s.port = e :: rest) :
    step s = State.serve { s with port := rest } e := by
  simp only [step, State.advance, h]

/-- A step of the block's own. -/
theorem step_block (s : State) (h : BlockMovesNext s) :
    step s = .next (State.blockStep { s with port := s.port.tail }) := by
  cases hp : s.port with
  | nil =>
    have hs : ({ s with port := [].tail } : State) = s := by rw [List.tail_nil, ← hp]
    rw [step_empty s hp, hs]
  | cons e rest =>
    rcases h with h | h
    · rw [hp] at h; cases h
    · rw [hp] at h
      cases h
      rw [step_event s _ rest hp]
      rfl

/-- An address on which the model stops for a race is an input or output byte of the command in
flight. -/
theorem busyByte_sound (s : State) (a : Nat) (h : s.busyByte a = true) : InBusyBuffers s a := by
  unfold State.busyByte at h
  split at h
  · next hb hd =>
    split at h
    · next x m r hp =>
      obtain ⟨hx, _, rfl, _⟩ := encodePlan_loop_inv s _ x m r hp
      exact ⟨hb, .inl ⟨_, x, hd, hx, by simpa [inBuffer, InEncodeBuffers] using h⟩⟩
    · cases h
    · cases h
  · next hb hd =>
    split at h
    · next x m r hp =>
      obtain ⟨hx, _, rfl, _⟩ := decodePlan_loop_inv s _ x m r hp
      exact ⟨hb, .inr ⟨_, x, hd, hx, by simpa [inBuffer, InDecodeBuffers] using h⟩⟩
    · cases h
    · cases h
  · cases h

/-- An encode whose checks let its loop run is in flight on its buffers. -/
theorem busyByte_encode (s : State) (h : Nat) (x : EncSlot) (m : Nat) (r : Word)
    (hb : s.phase = .busy) (hd : decode s.lcmd = .ok (.encEncode h))
    (hp : s.encodePlan h = .loop x m r) (a : Nat) :
    s.busyByte a = (inBuffer s.inAddress (2 * m) a || inBuffer s.outAddress m a) := by
  simp only [State.busyByte, hb, hd, hp]

/-- A decode whose checks let its loop run is in flight on its buffers. -/
theorem busyByte_decode (s : State) (h : Nat) (x : DecSlot) (m : Nat) (r : Word)
    (hb : s.phase = .busy) (hd : decode s.lcmd = .ok (.decDecode h))
    (hp : s.decodePlan h = .loop x m r) (a : Nat) :
    s.busyByte a = (inBuffer s.inAddress m a || inBuffer s.outAddress (2 * m) a) := by
  simp only [State.busyByte, hb, hd, hp]

/-- An admitted address is not in the register window. -/
theorem admits_window (p : Params) (a : Nat) (d : Dir) (h : p.admits a d = true) :
    p.inWindow a = false := by
  simp only [Params.admits, Bool.and_eq_true, Bool.not_eq_true'] at h
  exact h.1

/-- A host access to an admitted address that exists: it stops on a byte of the command in flight, and
else it happens. -/
theorem hostByte_admitted (d : Dir) (a : Nat) (go : State → State) (s : State)
    (ha : a < s.params.memorySize) (hd : s.params.admits a d = true) :
    s.hostByte d a go = if s.busyByte a then .fault (.bufferRace a) else .next (go s) := by
  rw [State.hostByte, if_neg (by simp [admits_window _ _ _ hd]), if_neg (by omega),
    if_neg (by simp [hd])]

/-- A host's store of a byte to an admitted address that exists. -/
theorem step_memWrite (s : State) (a : Nat) (v : Byte) (rest : List Input)
    (ha : a < s.params.memorySize) (hd : s.params.admits a .write = true) :
    step { s with port := .memWrite a v :: rest } =
      if s.busyByte a then .fault (.bufferRace a)
      else .next { s with port := rest, mem := s.mem.write a v } := by
  exact (step_event { s with port := .memWrite a v :: rest } (.memWrite a v) rest rfl).trans
    (hostByte_admitted .write a (fun s => { s with mem := s.mem.write a v }) { s with port := rest } ha hd)

/-- A host's load of a byte from an admitted address that exists. -/
theorem step_memRead (s : State) (a : Nat) (rest : List Input)
    (ha : a < s.params.memorySize) (hd : s.params.admits a .read = true) :
    step { s with port := .memRead a :: rest } =
      if s.busyByte a then .fault (.bufferRace a)
      else .next { s with port := rest, readData := (s.mem.read a).setWidth 32 } := by
  exact (step_event { s with port := .memRead a :: rest } (.memRead a) rest rfl).trans
    (hostByte_admitted .read a (fun s => { s with readData := (s.mem.read a).setWidth 32 }) { s with port := rest } ha hd)

/-- A host access to host memory that goes on: either it falls in the register window, or the address
exists, is admitted, is no byte of the command in flight, and the access happens. -/
theorem hostByte_next (d : Dir) (a : Nat) (go : State → State) (s t : State)
    (h : s.hostByte d a go = .next t) :
    (s.params.inWindow a = true ∧ t = s.protocolError) ∨
      (s.params.inWindow a = false ∧ a < s.params.memorySize ∧ s.params.admits a d = true ∧
        s.busyByte a = false ∧ t = go s) := by
  unfold State.hostByte at h
  split at h
  · next hw => injection h with h; exact .inl ⟨hw, h.symm⟩
  · next hw =>
    split at h
    · cases h
    · next hs =>
      split at h
      · cases h
      · next ha =>
        split at h
        · cases h
        · next hb =>
          injection h with h
          exact .inr ⟨by simpa using hw, by omega, by simpa using ha, by simpa using hb, h.symm⟩

/-- A store at offset 0 is a store to `CMD`; at the other offsets below `0x10` it is a store to an
`ARG` register. -/
theorem regAt_cases (offset : Fin 64) (h : offset.val % 4 = 0) :
    (offset = 0x00 ∧ regAt offset = .cmd) ∨ (offset = 0x04 ∧ regAt offset = .arg0) ∨
      (offset = 0x08 ∧ regAt offset = .arg1) ∨ (offset = 0x0C ∧ regAt offset = .arg2) ∨
      (offset = 0x10 ∧ regAt offset = .result) ∨ (offset = 0x14 ∧ regAt offset = .status) ∨
      (0x18 ≤ offset.val ∧ regAt offset = .reserved) := by
  revert h
  revert offset
  decide

theorem goodAccess_iff (size : Nat) (offset : Fin 64) :
    goodAccess size offset = true ↔ size = 4 ∧ offset.val % 4 = 0 := by
  simp [goodAccess]

theorem hostStore_good (offset : Fin 64) (v : Word) (s : State) (h : offset.val % 4 = 0) :
    s.hostStore 4 offset v = s.storeReg (regAt offset) v := by
  rw [State.hostStore, if_pos ((goodAccess_iff 4 offset).2 ⟨rfl, h⟩)]

theorem hostStore_bad (size : Nat) (offset : Fin 64) (v : Word) (s : State)
    (h : ¬ (size = 4 ∧ offset.val % 4 = 0)) : s.hostStore size offset v = s.protocolError := by
  rw [State.hostStore, if_neg (mt (goodAccess_iff size offset).1 h)]

theorem hostLoad_good (offset : Fin 64) (s : State) (h : offset.val % 4 = 0) :
    s.hostLoad 4 offset = { s with readData := s.regValue (regAt offset) } := by
  rw [State.hostLoad, if_pos ((goodAccess_iff 4 offset).2 ⟨rfl, h⟩)]

theorem hostLoad_bad (size : Nat) (offset : Fin 64) (s : State)
    (h : ¬ (size = 4 ∧ offset.val % 4 = 0)) : s.hostLoad size offset = s.protocolError := by
  rw [State.hostLoad, if_neg (mt (goodAccess_iff size offset).1 h)]

theorem protocolError_notFaulted (s : State) (h : NotFaulted s) :
    s.protocolError = s.raise .hostProtocol := by
  unfold State.protocolError
  split
  · next c hc => exact absurd hc (h c)
  · rfl
  · rfl

theorem protocolError_faulted (s : State) (c : Cause) (h : s.phase = .faulted c) :
    s.protocolError = s := by
  simp only [State.protocolError, h]

/-- Everything a step that gives a next state can be: the event taken off the port, what it requires
of the state, and the state it leaves. -/
inductive StepCase (s t : State) : Prop
  /-- an empty port: a block step -/
  | quiet (hp : s.port = []) (ht : t = s.blockStep)
  /-- a block step between two host events -/
  | turn (rest : List Input) (hp : s.port = .blockTurn :: rest)
      (ht : t = State.blockStep { s with port := rest })
  /-- a 32-bit aligned store in the register window -/
  | store (offset : Fin 64) (v : Word) (rest : List Input) (hp : s.port = .write 4 offset v :: rest)
      (ho : offset.val % 4 = 0) (ht : t = State.storeReg (regAt offset) v { s with port := rest })
  /-- a 32-bit aligned load in the register window -/
  | load (offset : Fin 64) (rest : List Input) (hp : s.port = .read 4 offset :: rest)
      (ho : offset.val % 4 = 0)
      (ht : t = { s with port := rest, readData := s.regValue (regAt offset) })
  /-- a host access the window does not allow -/
  | odd (e : Input) (rest : List Input) (hp : s.port = e :: rest) (hv : ViolatesProtocol s)
      (hr : ∀ w, e ≠ .command w) (hx : e ≠ .reset)
      (ht : t = State.protocolError { s with port := rest })
  /-- a host store of a byte of host memory -/
  | memWrite (a : Nat) (v : Byte) (rest : List Input) (hp : s.port = .memWrite a v :: rest)
      (ha : a < s.params.memorySize) (hw : s.params.inWindow a = false)
      (ht : t = { s with port := rest, mem := s.mem.write a v })
  /-- a host load of a byte of host memory -/
  | memRead (a : Nat) (rest : List Input) (hp : s.port = .memRead a :: rest)
      (hw : s.params.inWindow a = false)
      (ht : t = { s with port := rest, readData := (s.mem.read a).setWidth 32 })
  /-- a `WAIT` that reads `BUSY = 0` and `FAULT = 0` -/
  | waitIdle (rest : List Input) (hp : s.port = .wait :: rest) (hs : s.phase = .idle)
      (ht : t = { s with port := rest, readData := s.status })
  /-- a `WAIT` that reads `BUSY = 1` -/
  | waitBusy (rest : List Input) (hp : s.port = .wait :: rest) (hs : s.phase = .busy)
      (ht : t = State.blockStep { s with readData := s.status })
  /-- a `WAIT` that reads `FAULT = 1` -/
  | waitFaulted (c : Cause) (rest : List Input) (hp : s.port = .wait :: rest)
      (hs : s.phase = .faulted c)
      (ht : t = { s with port := endProgram rest, readData := s.status })
  /-- an illegal word that runs as one step -/
  | illegal (w : Word) (rest : List Input) (hp : s.port = .command w :: rest)
      (hs : s.phase = .idle) (e : DecodeError) (hd : decode w = .error e)
      (ht : t = (State.start w { s with port := rest }).raise .illegalCommand)
  /-- a command that runs as one step -/
  | command (w : Word) (i : Instr) (rest : List Input) (hp : s.port = .command w :: rest)
      (hs : s.phase = .idle) (hd : decode w = .ok i)
      (ht : t = afterCommand i (State.start w { s with port := rest }))
  /-- a store to `CMD` of a busy block -/
  | commandBusy (w : Word) (rest : List Input) (hp : s.port = .command w :: rest)
      (hs : s.phase = .busy) (ht : t = State.raise .hostProtocol { s with port := rest })
  /-- a store to `CMD` of a faulted block -/
  | commandFaulted (w : Word) (c : Cause) (rest : List Input) (hp : s.port = .command w :: rest)
      (hs : s.phase = .faulted c) (ht : t = { s with port := rest })
  /-- reset -/
  | reset (rest : List Input) (hp : s.port = .reset :: rest)
      (ht : t = State.applyReset { s with port := rest })

/-- The inversion of a step. -/
theorem step_cases (s t : State) (h : step s = .next t) : StepCase s t := by
  cases hp : s.port with
  | nil =>
    rw [step_empty s hp] at h
    injection h with h
    exact .quiet hp h.symm
  | cons e rest =>
    rw [step_event s e rest hp] at h
    cases e with
    | write size offset v =>
      simp only [State.serve] at h
      injection h with h
      by_cases hg : size = 4 ∧ offset.val % 4 = 0
      · obtain ⟨rfl, ho⟩ := hg
        rw [hostStore_good _ _ _ ho] at h
        exact .store offset v rest hp ho h.symm
      · rw [hostStore_bad _ _ _ _ hg] at h
        refine .odd _ rest hp ?_ (fun w hw => by cases hw) (fun hx => by cases hx) h.symm
        simp only [ViolatesProtocol, hp, List.head?_cons]
        exact .inl hg
    | read size offset =>
      simp only [State.serve] at h
      injection h with h
      by_cases hg : size = 4 ∧ offset.val % 4 = 0
      · obtain ⟨rfl, ho⟩ := hg
        rw [hostLoad_good _ _ ho] at h
        exact .load offset rest hp ho (by rw [← h]; cases regAt offset <;> rfl)
      · rw [hostLoad_bad _ _ _ hg] at h
        refine .odd _ rest hp ?_ (fun w hw => by cases hw) (fun hx => by cases hx) h.symm
        simp only [ViolatesProtocol, hp, List.head?_cons]
        exact hg
    | memWrite a v =>
      simp only [State.serve, State.hostMemWrite] at h
      rcases hostByte_next _ _ _ _ _ h with ⟨hw, h⟩ | ⟨hw, ha, _, _, h⟩
      · refine .odd _ rest hp ?_ (fun w hw => by cases hw) (fun hx => by cases hx) h
        simp only [ViolatesProtocol, hp, List.head?_cons]
        exact hw
      · exact .memWrite a v rest hp ha hw h
    | memRead a =>
      simp only [State.serve, State.hostMemRead] at h
      rcases hostByte_next _ _ _ _ _ h with ⟨hw, h⟩ | ⟨hw, ha, _, _, h⟩
      · refine .odd _ rest hp ?_ (fun w hw => by cases hw) (fun hx => by cases hx) h
        simp only [ViolatesProtocol, hp, List.head?_cons]
        exact hw
      · exact .memRead a rest hp hw h
    | wait =>
      simp only [State.serve] at h
      injection h with h
      have hself : ({ s with port := .wait :: rest } : State) = s := by rw [← hp]
      rw [hself] at h
      cases hs : s.phase with
      | idle =>
        simp only [State.poll, hs] at h
        exact .waitIdle rest hp hs (by rw [← h, ← hs])
      | busy =>
        simp only [State.poll, hs] at h
        exact .waitBusy rest hp hs (by rw [← h, ← hs])
      | faulted c =>
        simp only [State.poll, hs] at h
        exact .waitFaulted c rest hp hs (by rw [← h, ← hs])
    | command w =>
      simp only [State.serve, State.runCommand] at h
      cases hs : s.phase with
      | idle =>
        simp only [hs, State.runStarted] at h
        cases hd : decode w with
        | error e =>
          simp only [hd] at h
          injection h with h
          exact .illegal w rest hp hs e hd (by rw [← h, hs])
        | ok i =>
          simp only [hd] at h
          rw [exec_next_iff] at h
          exact .command w i rest hp hs hd (by rw [h, hs])
      | busy =>
        simp only [hs] at h
        injection h with h
        exact .commandBusy w rest hp hs (by rw [← h, hs])
      | faulted c =>
        simp only [hs] at h
        injection h with h
        exact .commandFaulted w c rest hp hs (by rw [← h, ← hs])
    | blockTurn =>
      simp only [State.serve] at h
      injection h with h
      exact .turn rest hp h.symm
    | reset =>
      simp only [State.serve] at h
      injection h with h
      exact .reset rest hp h.symm

/-! ## Runs -/

theorem core_run_zero (s : State) : Sys2Proof.core.run 0 s = .next s := rfl

/-- A run goes on from the state its first step gives. -/
theorem run_next (M : Host.Core) (m : Nat) (s t : M.State) (h : M.step s = .next t) :
    M.run (m + 1) s = M.run m t := by
  rw [Host.Core.run, h]

theorem core_run_succ (m : Nat) (s t : State) (h : step s = .next t) :
    Sys2Proof.core.run (m + 1) s = Sys2Proof.core.run m t :=
  run_next Sys2Proof.core m s t h

/-- With nothing at the port, a run is block steps. -/
theorem core_run_quiet (m : Nat) (s : State) (h : s.port = []) :
    Sys2Proof.core.run m s = .next (State.blockSteps m s) := by
  induction m generalizing s with
  | zero => rfl
  | succ m ih =>
    have hp : s.blockStep.port = [] := by
      have hf := blockStep_frame s
      unfold CommandFrame at hf
      rw [hf]; exact h
    rw [core_run_succ m s _ (step_empty s h), ih _ hp, blockSteps_succ]

end Sys2Proof.Machine
end

