-- ==== Sys2Proof/Tests/Slice0.lean ====
section
/-! SUPPORT. The model's own tests. The expected results are the spec's own vectors (95_test_vectors.md)
and examples, named in each docstring; the witnesses at the end show, for every statement with
hypotheses, a concrete case that meets them. -/

namespace Sys2Proof.Tests

open Sys2Proof.Machine

/-! ## Ill-formed terms that the checks refuse -/

theorem test_wf_encEncode_handle : (Instr.encEncode 256).wf = false := by decide
theorem test_wf_encDestroy_handle : (Instr.encDestroy 256).wf = false := by decide
theorem test_wf_decDecode_handle : (Instr.decDecode 256).wf = false := by decide
theorem test_wf_decDestroy_handle : (Instr.decDestroy 300).wf = false := by decide
theorem test_wf_addrWidth_low : Params.wf { Params.default with addrWidth := 15 } = false := by decide
theorem test_wf_addrWidth_high : Params.wf { Params.default with addrWidth := 33 } = false := by
  decide
theorem test_wf_slots_low : slotCountFits 0 = false := by decide
theorem test_wf_slots_high : slotCountFits 256 = false := by decide
theorem test_wf_defaults : Params.default.wf = true ∧ slotCountFits 4 = true := by decide

/-! ## Words written out from the format of 30_encoding.md R80: `0^16 hhhhhhhh 00000 u ff` -/

theorem test_decode_encCreate :
    decode 0b0000000000000000_00000000_00000_0_01 = .ok .encCreate := by decide
theorem test_decode_encEncode :
    decode 0b0000000000000000_10000001_00000_0_10 = .ok (.encEncode 129) := by decide
theorem test_decode_encDestroy :
    decode 0b0000000000000000_00000010_00000_0_11 = .ok (.encDestroy 2) := by decide
theorem test_decode_decCreate :
    decode 0b0000000000000000_00000000_00000_1_01 = .ok .decCreate := by decide
theorem test_decode_decDecode :
    decode 0b0000000000000000_11111111_00000_1_10 = .ok (.decDecode 255) := by decide
theorem test_decode_decDestroy :
    decode 0b0000000000000000_00000001_00000_1_11 = .ok (.decDestroy 1) := by decide

/-- F-1 to F-4, and the reserved bits at both ends of their fields. -/
theorem test_decode_rejects :
    decode 0x00000000 = .error .reservedFn ∧ decode 0x00000004 = .error .reservedFn ∧
    decode 0x0000000A = .error .reservedBits ∧ decode 0x00000082 = .error .reservedBits ∧
    decode 0x00010002 = .error .reservedBits ∧ decode 0x80000002 = .error .reservedBits ∧
    decode 0x00000101 = .error .handleOnCreate ∧ decode 0x00008005 = .error .handleOnCreate := by
  decide

theorem test_decodeTableWord :
    decodeTableWord 32 0x0000A106 = some (.decDecode 0xA1) ∧ decodeTableWord 32 0 = none := by decide

/-- The lowest and the highest handle of each form come back from their words. -/
theorem test_encode :
    encode (.encEncode 0) = 0x00000002 ∧ encode (.encDestroy 255) = 0x0000FF03 ∧
    encode (.decDecode 1) = 0x00000106 ∧ encode (.decDestroy 128) = 0x00008007 := by decide

/-! ## Expansion, framing, the boundaries -/

/-- EXP-1, EXP-2, EXP-5 to EXP-10, EXP-12, EXP-13. -/
theorem test_expand :
    expand 0xD5 = 8 ∧ expand 0x55 = -8 ∧ expand 0xAA = 32256 ∧ expand 0x2A = -32256 ∧
    expand 0x80 = 5504 ∧ expand 0x7F = -848 ∧ expand 0x00 = -5504 ∧ expand 0xFF = 848 ∧
    expand 0xDA = 248 ∧ expand 0xC5 = 264 := by decide

/-- FL-1 to FL-11. -/
theorem test_frameLen :
    frameLen 5 2 = 4 ∧ frameLen 1 2 = 1 ∧ frameLen 6 4 = 4 ∧ frameLen 7 3 = 6 ∧ frameLen 2 3 = 2 ∧
    frameLen 3 3 = 3 ∧ frameLen 15 8 = 8 ∧ frameLen 7 8 = 7 ∧ frameLen 9 1 = 9 ∧ frameLen 5 0 = 5 ∧
    frameLen 5 (-2) = 5 := by decide

/-- A row of the boundary table of 42_encoder.md R168: `V[16 * seg + m]` for `m = 0..15`. -/
def boundaryRow (seg : Nat) : List Nat := (List.range 16).map (fun m => boundary (16 * seg + m))

/-- The rows of the segments 0, 1, 2 and 6. -/
theorem test_boundary :
    boundaryRow 0 = [4, 8, 12, 16, 20, 24, 28, 32, 36, 40, 44, 48, 52, 56, 60, 64] ∧
    boundaryRow 1 = [68, 72, 76, 80, 84, 88, 92, 96, 100, 104, 108, 112, 116, 120, 124, 129] ∧
    boundaryRow 2 =
      [136, 144, 152, 160, 168, 176, 184, 192, 200, 208, 216, 224, 232, 240, 248, 258] ∧
    boundaryRow 6 = [2176, 2304, 2432, 2560, 2688, 2816, 2944, 3072, 3200, 3328, 3456, 3584, 3712,
      3840, 3968, 4128] ∧ boundary 126 = 7936 := by decide +kernel

/-- A negative script value (30_encoding.md R86), and the word of a pseudo-instruction (R87). -/
theorem test_script :
    scriptValue (-1) = 0xFFFFFFFF ∧ scriptValue 12 = 12 ∧
    scriptDecDestroy 1 = [.write 4 0x00 0x00000107, .wait] := by decide

/-- ENC-1, ENC-3, ENC-4, ENC-21 to ENC-25: the indices. -/
theorem test_index :
    (compressionIndex 0).val = 8192 ∧ (compressionIndex 16).val = 8196 ∧
    (compressionIndex (u16 (-1))).val = 8191 ∧ (compressionIndex (u16 31744)).val = 16128 ∧
    (compressionIndex (u16 32767)).val = 16383 ∧ (compressionIndex (u16 (-31744))).val = 256 ∧
    (compressionIndex (u16 (-32767))).val = 0 ∧ (compressionIndex (u16 (-32768))).val = 0 := by
  decide

/-! ## One command on a small state -/

/-- A live encoder. -/
def encoder (channels : Word) : EncSlot := ⟨true, 8000, channels, compressionTable⟩

/-- A live decoder. -/
def decoder (channels : Word) : DecSlot := ⟨true, 8000, channels, expansionTable⟩

/-- A block whose command has started, with its latches: two encoder and two decoder slots, the first
of each live. -/
def bench (a0 a1 a2 channels : Word) (m : Memory) : State :=
  { State.reset with
    enc := [encoder channels, freeEncSlot]
    dec := [decoder channels, freeDecSlot]
    mem := m
    larg0 := a0
    larg1 := a1
    larg2 := a2
    phase := .busy }

/-- The same block with samples stored the other way round. -/
def bigEndian (s : State) : State := { s with params := { s.params with sampleEndian := .be } }

/-- A view of the state a command leaves. -/
def after {α : Type} (i : Instr) (s : State) (f : State → α) : Option α :=
  match exec i s with
  | .next t => some (f t)
  | .fault _ => none
  | .refused _ => none

/-- Bytes of memory, lowest address first. -/
def bytes (a n : Nat) (s : State) : List Byte := (List.range n).map (fun k => s.mem.read (a + k))

/-- CD-2: the first handle, `live`, and the table's centre and end. -/
theorem test_encCreate :
    after .encCreate State.reset (fun t => (t.result, t.enc.map (fun x => x.live))) =
      some (1, [true, false, false, false]) := by decide +kernel

/-- EE-2: an odd length, so the last byte is not read and `out + 3` is unchanged; and EE-8's last
sample, in the other byte order. -/
theorem test_encEncode :
    after (.encEncode 1)
      (bench 0x400 7 0x300 1 [(0x303, 0xCC), (0x402, 0xFF), (0x403, 0x7F), (0x405, 0x80),
        (0x406, 0xE8), (0x407, 0x03)])
      (fun t => (t.result, bytes 0x300 4 t)) = some (3, [0xD5, 0xAA, 0x2A, 0xCC]) ∧
    after (.encEncode 1) (bigEndian (bench 0x400 2 0x300 1 [(0x400, 0x03), (0x401, 0xE8)]))
      (fun t => (t.result, bytes 0x300 2 t)) = some (1, [0xFA, 0x00]) := by decide +kernel

/-- F-12: the top of the address space. -/
theorem test_encEncode_addressRange :
    after (.encEncode 1) (bench 0xFFFFFFFE 4 0x100 1 []) (fun t => t.status) = some 0x42 := by
  decide +kernel

/-- CD-7: the slot of the encoder unit only. -/
theorem test_encDestroy :
    after (.encDestroy 1) (bench 0 0 0 1 [])
      (fun t => (t.result, t.enc.map (fun x => x.live), t.dec.map (fun x => x.live))) =
      some (0, [false, false], [true, false]) := by decide +kernel

/-- CD-1: the operands are stored. -/
theorem test_decCreate :
    after .decCreate { State.reset with larg0 := 8000, larg1 := 2 }
      (fun t => (t.result, t.dec.map (fun x => (x.live, x.channels)))) =
      some (1, [(true, 2), (false, 0), (false, 0), (false, 0)]) := by decide +kernel

/-- CD-4: the lowest free slot. -/
theorem test_decCreate_lowest :
    after .decCreate { State.reset with dec := [decoder 1, freeDecSlot, decoder 1, decoder 1] }
      (fun t => (t.result, t.dec.map (fun x => x.live))) =
      some (2, [true, true, true, true]) := by decide +kernel

/-- DEC-5: two channels, a trailing partial frame, the two bytes after the output unchanged; and
DEC-13: in place, element 1 reads what element 0 wrote. -/
theorem test_decDecode :
    after (.decDecode 1)
      (bench 0x100 5 0x200 2 [(0x100, 0xD5), (0x101, 0x55), (0x103, 0xFF), (0x104, 0x2A),
        (0x208, 0xCC), (0x209, 0xCC)])
      (fun t => (t.result, bytes 0x200 10 t)) =
      some (8, [0x08, 0x00, 0xF8, 0xFF, 0x80, 0xEA, 0x50, 0x03, 0xCC, 0xCC]) ∧
    after (.decDecode 1) (bench 0x100 2 0x100 1 [(0x100, 0xD5), (0x101, 0x55)])
      (bytes 0x100 4) = some [0x08, 0x00, 0x80, 0xEA] := by decide +kernel

/-- F-10: the overflow comes before the range check; F-6: a dead handle comes before `len <= 0`; F-15: a
refused second byte of a sample, so the first is written and the next element is not started. -/
theorem test_decDecode_faults :
    after (.decDecode 1) (bench 0x100 0x40000000 0x200 1 []) (fun t => t.status) = some 0x32 ∧
    after (.decDecode 3) (bench 0 0 0 1 []) (fun t => t.status) = some 0x22 ∧
    after (.decDecode 1)
      { bench 0x100 3 0x200 1 [(0x100, 0xD5), (0x101, 0x55)] with
        params := { Params.default with refused := [⟨0x203, 1, .write⟩] } }
      (fun t => (t.status, t.result, bytes 0x200 6 t)) =
      some (0x52, 0, [0x08, 0x00, 0xF8, 0x00, 0x00, 0x00]) := by decide +kernel

/-- CD-5, and the separate number spaces of 30_encoding.md R82: encoder 1 stays live. -/
theorem test_decDestroy :
    after (.decDestroy 1) (bench 0 0 0 1 [])
      (fun t => (t.result, t.enc.map (fun x => x.live), t.dec.map (fun x => x.live))) =
      some (0, [true, false], [false, false]) := by decide +kernel

/-- F-7: a handle above the slot count. -/
theorem test_decDestroy_deadHandle :
    after (.decDestroy 5) (bench 0 0 0 1 []) (fun t => t.status) = some 0x22 := by decide +kernel

/-! ## One step of the system -/

/-- What one step leaves. -/
def stepped {α : Type} (s : State) (f : State → α) : Option α :=
  match step s with
  | .next t => some (f t)
  | .fault _ => none
  | .refused _ => none

/-- F-1, as a host's store. -/
theorem test_step_illegal :
    stepped { State.reset with port := [.command 0] } (fun t => t.status) = some 0x12 := by
  decide +kernel

/-- F-16: a store to `ARG0` while `BUSY`; that `ARG0` keeps its value is the model's choice (log entry 27). -/
theorem test_step_hostProtocol :
    stepped { bench 0 0 0 1 [] with port := [.write 4 0x04 1] } (fun t => (t.status, t.arg0)) =
      some (0x62, 0) := by decide +kernel

/-- F-17: a 16-bit load of `STATUS`. -/
theorem test_step_narrow_load :
    stepped { State.reset with port := [.read 2 0x14] } (fun t => t.status) = some 0x62 := by
  decide +kernel

/-- F-18: a store to `CMD` in the fault state. -/
theorem test_step_faulted_store :
    stepped { State.reset with phase := .faulted .deadHandle, port := [.write 4 0x00 1] }
      (fun t => (t.status, t.cmd)) = some (0x22, 0) := by decide +kernel

/-- RS-3: a reset lands between two elements of a decode: the bytes of the elements done remain. -/
theorem test_step_reset :
    stepped { bench 0x100 3 0x200 1 [(0x200, 0x08), (0x202, 0xF8), (0x203, 0xFF)] with
        k := 2, n := 3, port := [.reset] }
      (fun t => (t.status, bytes 0x200 6 t, t.dec.map (fun x => x.live))) =
      some (0, [0x08, 0x00, 0xF8, 0xFF, 0x00, 0x00], [false, false]) := by decide +kernel

/-- One element of a decode as one block step (10_state.md R21). -/
theorem test_step_element :
    stepped { bench 0x100 3 0x200 1 [(0x101, 0x55)] with lcmd := 0x00000106, k := 1 }
      (fun t => (t.k, t.n, t.status, bytes 0x202 2 t)) =
      some (2, 3, 0x01, [0xF8, 0xFF]) := by decide +kernel

/-! ## Witnesses: the hypotheses of each statement, met together by a concrete case -/

/-- A step's outcome, or a command's, is a next state. -/
def Goes (o : Host.Outcome State Fault Refusal) : Prop := ∃ t, o = .next t

theorem witness_EveryCommandDecodesFromItsWord :
    (Instr.encEncode 255).wf = true ∧ (Instr.decDestroy 0).wf = true := by decide

theorem witness_DecodedWordIsItsEncoding : decode 0x0000FF06 = .ok (.decDecode 255) := by decide

theorem witness_IllegalWordsFaultAndOthersAreOneCommand :
    State.reset.phase = .idle ∧ illegalWord 0 ∧ illegalWord 0x00000082 ∧ illegalWord 0x80000001 ∧
    illegalWord 0x00000101 ∧ ¬ illegalWord 0x0000FF02 := by
  unfold illegalWord; decide

theorem witness_DecoderAgreesWithTheOpcodeTable :
    (⟨"DEC_DESTROY", 0x00000007, 0xFFFF00FF⟩ : OpcodeRow) ∈ opcodeTable := by decide

theorem witness_StepRunsDecodedCommand :
    ({ State.reset with port := [.command 5, .reset] } : State).phase = .idle ∧
    decode 5 = .ok .decCreate := by decide

/-- The three phases of a store to `CMD`, and a store that starts a command. -/
theorem witness_OnlyACmdStoreStartsACommand :
    (∃ s : State, s.port = [.write 4 0 5] ∧ s.phase = .idle ∧
      ∃ t, step s = .next t ∧ t.phase = .busy) ∧
    (∃ s : State, s.port = [.write 4 0 5] ∧ s.phase = .busy) ∧
    ∃ s : State, s.port = [.write 4 0 5] ∧ s.phase = .faulted .busError :=
  ⟨⟨{ State.reset with port := [.write 4 0 5] }, rfl, rfl, _, rfl, rfl⟩,
    ⟨{ bench 0 0 0 1 [] with port := [.write 4 0 5] }, rfl, rfl⟩,
    ⟨{ State.reset with port := [.write 4 0 5], phase := .faulted .busError }, rfl, rfl⟩⟩

theorem witness_ElementStepsReachTheAtomicResult :
    State.reset.phase = .idle ∧ State.reset.port = [] := ⟨rfl, rfl⟩

/-- The test block satisfies the invariant, with one byte of memory. -/
theorem bench_inv (a0 a1 a2 channels : Word) : (bench a0 a1 a2 channels [(0x400, 1)]).Inv where
  memory := ⟨rfl, rfl⟩
  tables := by
    refine ⟨fun x hx hl => ?_, fun x hx hl => ?_⟩
    · rcases List.mem_cons.1 hx with rfl | hx
      · rfl
      · rw [List.mem_singleton.1 hx] at hl; cases hl
    · rcases List.mem_cons.1 hx with rfl | hx
      · rfl
      · rw [List.mem_singleton.1 hx] at hl; cases hl
  counters := ⟨Nat.two_pow_pos 32, Nat.two_pow_pos 32⟩
  params := ⟨rfl, rfl, rfl⟩

theorem bench_encoder (a0 a1 a2 channels : Word) (m : Memory) :
    LiveAt (bench a0 a1 a2 channels m).enc 1 (encoder channels) := ⟨rfl, rfl⟩

theorem bench_decoder (a0 a1 a2 channels : Word) (m : Memory) :
    LiveAt (bench a0 a1 a2 channels m).dec 1 (decoder channels) := ⟨rfl, rfl⟩

theorem witness_StepKeepsTheInvariant :
    (bench 0 0 0 1 [(0x400, 1)]).Inv ∧ Goes (step (bench 0 0 0 1 [(0x400, 1)])) :=
  ⟨bench_inv 0 0 0 1, _, rfl⟩

theorem witness_StepKeepsTheParameters : Goes (step { State.reset with port := [.reset] }) :=
  ⟨_, rfl⟩

/-- A faulted block: a step that is no reset, a load, a reset. -/
theorem witness_FaultStateIsSticky :
    (∃ s : State, s.phase = .faulted .busError ∧ Goes (step s) ∧ s.port.head? ≠ some .reset ∧
      ∀ a v, s.port.head? ≠ some (.memWrite a v)) ∧
    (∃ s : State, s.phase = .faulted .busError ∧ s.port = [.read 4 0x3C] ∧
      (0x3C : Fin 64).val % 4 = 0) ∧
    ∃ s : State, s.phase = .faulted .busError ∧ s.port = [.reset] :=
  ⟨⟨{ State.reset with port := [.command 5], phase := .faulted .busError }, rfl, ⟨_, rfl⟩,
      by simp, by simp⟩,
    ⟨{ State.reset with port := [.read 4 0x3C], phase := .faulted .busError }, rfl, rfl, by decide⟩,
    ⟨{ State.reset with port := [.reset], phase := .faulted .busError }, rfl, rfl⟩⟩

theorem witness_LiveInstancesAreImmutable :
    ∃ s : State, Goes (step s) ∧ s.port.head? ≠ some .reset ∧ LiveAt s.enc 1 (encoder 1) ∧
      LiveAt s.dec 1 (decoder 1) :=
  ⟨{ bench 0 0 0 1 [] with port := [.blockTurn], lcmd := 0x00000103 }, ⟨_, rfl⟩, by simp,
    ⟨rfl, rfl⟩, ⟨rfl, rfl⟩⟩

theorem witness_OnlyTransformsTouchMemory :
    isTransform .decCreate = false ∧ Goes (exec .decCreate State.reset) := ⟨rfl, _, rfl⟩

theorem witness_UnitsAreSeparate :
    isEncoderCommand .encCreate = true ∧ Goes (exec .encCreate State.reset) ∧
    isEncoderCommand (.decDestroy 0) = false ∧ Goes (exec (.decDestroy 0) State.reset) :=
  ⟨rfl, ⟨_, rfl⟩, rfl, _, rfl⟩

theorem witness_MinusOneIsTheOnlyNegativeResult :
    (bench 0 1 0x300 1 [(0x400, 1)]).Inv ∧
    ∃ t, exec (.encEncode 1) (bench 0 1 0x300 1 [(0x400, 1)]) = .next t ∧ t.phase = .idle ∧
      t.result.toInt < 0 :=
  ⟨bench_inv 0 1 0x300 1, _, rfl, rfl, by decide⟩

/-- Two blocks that differ in a sample rate and in an encoder's channel count. -/
theorem witness_SampleRatesAreNeverRead :
    SameButUnread { State.reset with enc := [encoder 1], dec := [decoder 1] }
      { State.reset with enc := [⟨true, 16000, 7, compressionTable⟩],
                         dec := [⟨true, 16000, 1, expansionTable⟩] } ∧
    Goes (step { State.reset with enc := [encoder 1], dec := [decoder 1] }) ∧
    ∃ f, step { State.reset with port := [.memRead (2 ^ 32)] } = .fault f := by
  refine ⟨⟨rfl, ?_, ?_⟩, ⟨_, rfl⟩, .noSuchAddress (2 ^ 32), rfl⟩
  · exact .cons ⟨rfl, rfl⟩ .nil
  · exact .cons ⟨rfl, rfl, rfl⟩ .nil

/-- The second slot is the lowest free one. -/
theorem bench_lowest {τ : Type} (x y : Slot τ) (hx : x.live = true) (hy : y.live = false) :
    LowestFree [x, y] 2 := by
  refine ⟨⟨y, rfl, hy⟩, fun h' h1 h2 => ⟨x, ?_, hx⟩⟩
  obtain rfl : h' = 1 := by omega
  rfl

theorem witness_CreateTakesTheLowestFreeSlot :
    (bench 0 0 0 1 []).params.createMayFail = false ∧ LowestFree (bench 0 0 0 1 []).enc 2 ∧
    LowestFree (bench 0 0 0 1 []).dec 2 :=
  ⟨rfl, bench_lowest _ _ rfl rfl, bench_lowest _ _ rfl rfl⟩

theorem witness_CreateFailsWithResultZero :
    (∃ s : State, (∀ x ∈ s.enc, x.live = true) ∧ ∀ x ∈ s.dec, x.live = true) ∧
    ∃ s : State, s.params.createMayFail = true ∧ LowestFree s.enc 2 ∧ LowestFree s.dec 2 := by
  refine ⟨⟨{ State.reset with enc := [encoder 1], dec := [decoder 1] }, ?_, ?_⟩,
    ⟨{ bench 0 0 0 1 [] with params := { Params.default with createMayFail := true } }, rfl,
      bench_lowest _ _ rfl rfl, bench_lowest _ _ rfl rfl⟩⟩
  · intro x hx; rw [List.mem_singleton.1 hx]; rfl
  · intro x hx; rw [List.mem_singleton.1 hx]; rfl

theorem witness_DestroyClearsLive :
    LiveAt (bench 0 0 0 1 []).enc 1 (encoder 1) ∧ LiveAt (bench 0 0 0 1 []).dec 1 (decoder 1) :=
  ⟨⟨rfl, rfl⟩, rfl, rfl⟩

/-- A free slot, and the handle after the last slot. -/
theorem bench_dead {τ : Type} (x y : Slot τ) (hy : y.live = false) :
    DeadAt [x, y] 2 ∧ DeadAt [x, y] 3 :=
  ⟨⟨by decide, .inr ⟨y, rfl, hy⟩⟩, by decide, .inl (by simp)⟩

theorem witness_DeadHandleFaults :
    DeadAt (bench 0 0 0 1 []).enc 2 ∧ DeadAt (bench 0 0 0 1 []).enc 3 ∧
    DeadAt (bench 0 0 0 1 []).dec 2 ∧ DeadAt (bench 0 0 0 1 []).dec 3 :=
  ⟨(bench_dead _ _ rfl).1, (bench_dead _ _ rfl).2, (bench_dead _ _ rfl).1, (bench_dead _ _ rfl).2⟩

/-- Each invalid argument alone: a null input, a null output, a length of zero, the least length. -/
theorem witness_InvalidArgumentsReturnMinusOne :
    LiveAt (bench 0 4 0x300 1 []).enc 1 (encoder 1) ∧ LiveAt (bench 0 4 0x300 1 []).dec 1 (decoder 1) ∧
    (bench 0 4 0x300 1 []).larg0 = 0 ∧ (bench 0x400 4 0 1 []).larg2 = 0 ∧
    (bench 0x400 0 0x300 1 []).larg1.toInt ≤ 0 ∧
    (bench 0x400 0x80000000 0x300 1 []).larg1.toInt ≤ 0 :=
  ⟨⟨rfl, rfl⟩, ⟨rfl, rfl⟩, rfl, rfl, by decide, by decide⟩

/-- One sample at the last two addresses. -/
theorem encode_top : GoodArguments (bench 0xFFFFFFFE 3 0x300 1 []) ∧
    encodeCount (bench 0xFFFFFFFE 3 0x300 1 []) = 1 ∧
    EncodeElementAdmitted (bench 0xFFFFFFFE 3 0x300 1 []) 0 ∧
    BufferFits (bench 0xFFFFFFFE 3 0x300 1 []) 0xFFFFFFFE 2 ∧
    ¬ BufferFits (bench 0xFFFFFFFE 3 0x300 1 []) 0xFFFFFFFE 3 := by
  unfold GoodArguments EncodeElementAdmitted BufferFits
  decide

/-- The element is the only one. -/
theorem only_zero {P : Nat → Prop} {n : Nat} (hn : n = 1) (h : P 0) : ∀ k, k < n → P k := by
  intro k hk
  obtain rfl : k = 0 := by omega
  exact h

/-- One sample at the top; a length of 1, where nothing is checked. -/
theorem witness_EncodeCompletes :
    (∃ s, LiveAt s.enc 1 (encoder 1) ∧ GoodArguments s ∧
      (BufferFits s s.inAddress (2 * encodeCount s) ∧ BufferFits s s.outAddress (encodeCount s)) ∧
      0 < encodeCount s ∧ ∀ k, k < encodeCount s → EncodeElementAdmitted s k) ∧
    ∃ s, LiveAt s.enc 1 (encoder 1) ∧ GoodArguments s ∧ encodeCount s = 0 := by
  refine ⟨⟨bench 0xFFFFFFFE 3 0x300 1 [], ⟨rfl, rfl⟩, encode_top.1, ?_, by decide,
      only_zero encode_top.2.1 encode_top.2.2.1⟩,
    ⟨bench 0xFFFFFFFF 1 0xFFFFFFFF 1 [], ⟨rfl, rfl⟩, ?_, by decide⟩⟩
  · unfold BufferFits; decide
  · unfold GoodArguments; decide

/-- One code, whose sample is written to the last two addresses. -/
theorem decode_top : GoodArguments (bench 0x400 1 0xFFFFFFFE 2 [(0x400, 1)]) ∧
    decodeCount (decoder 2) (bench 0x400 1 0xFFFFFFFE 2 [(0x400, 1)]) = 1 ∧
    DecodeElementAdmitted (bench 0x400 1 0xFFFFFFFE 2 [(0x400, 1)]) 0 ∧
    BufferFits (bench 0x400 1 0xFFFFFFFE 2 [(0x400, 1)]) 0x400 1 ∧
    BufferFits (bench 0x400 1 0xFFFFFFFE 2 [(0x400, 1)]) 0xFFFFFFFE 2 := by
  unfold GoodArguments DecodeElementAdmitted BufferFits
  decide

theorem witness_DecodeCompletes :
    ∃ s, LiveAt s.dec 1 (decoder 2) ∧ GoodArguments s ∧ decodeCount (decoder 2) s ≤ 0x3FFFFFFF ∧
      BufferFits s s.inAddress (decodeCount (decoder 2) s) ∧
      BufferFits s s.outAddress (2 * decodeCount (decoder 2) s) ∧
      ∀ k, k < decodeCount (decoder 2) s → DecodeElementAdmitted s k := by
  refine ⟨bench 0x400 1 0xFFFFFFFE 2 [(0x400, 1)], ⟨rfl, rfl⟩, decode_top.1, ?_, ?_, ?_,
    only_zero decode_top.2.1 decode_top.2.2.1⟩
  · rw [decode_top.2.1]; decide
  · rw [decode_top.2.1]; exact decode_top.2.2.2.1
  · rw [decode_top.2.1]; exact decode_top.2.2.2.2

/-- In place, which counts as not starting inside the input; and right behind the input. -/
theorem witness_EncodeWritesTheCodesOfItsSamples :
    (∃ s, s.Inv ∧ LiveAt s.enc 1 (encoder 1) ∧ GoodArguments s ∧
      BufferFits s s.inAddress (2 * encodeCount s) ∧ BufferFits s s.outAddress (encodeCount s) ∧
      (∀ k, k < encodeCount s → EncodeElementAdmitted s k) ∧ s.outAddress ≤ s.inAddress) ∧
    ∃ s, s.Inv ∧ LiveAt s.enc 1 (encoder 1) ∧ GoodArguments s ∧
      BufferFits s s.inAddress (2 * encodeCount s) ∧ BufferFits s s.outAddress (encodeCount s) ∧
      (∀ k, k < encodeCount s → EncodeElementAdmitted s k) ∧
      s.inAddress + 2 * encodeCount s ≤ s.outAddress := by
  refine ⟨⟨bench 0x400 2 0x400 1 [(0x400, 1)], bench_inv _ _ _ _, ⟨rfl, rfl⟩, ?_, ?_, ?_,
      only_zero (by decide) ?_, by decide⟩,
    ⟨bench 0x400 2 0x402 1 [(0x400, 1)], bench_inv _ _ _ _, ⟨rfl, rfl⟩, ?_, ?_, ?_,
      only_zero (by decide) ?_, by decide⟩⟩ <;>
    ((first | unfold GoodArguments | unfold EncodeElementAdmitted | unfold BufferFits); decide)

/-- Disjoint buffers that touch: the output right behind the input, and right before it. -/
theorem witness_DecodeWritesTheExpansionsOfItsCodes :
    (∃ s, s.Inv ∧ LiveAt s.dec 1 (decoder 2) ∧ GoodArguments s ∧
      decodeCount (decoder 2) s ≤ 0x3FFFFFFF ∧
      BufferFits s s.inAddress (decodeCount (decoder 2) s) ∧
      BufferFits s s.outAddress (2 * decodeCount (decoder 2) s) ∧
      (∀ k, k < decodeCount (decoder 2) s → DecodeElementAdmitted s k) ∧
      0 < decodeCount (decoder 2) s ∧
      s.inAddress + decodeCount (decoder 2) s ≤ s.outAddress) ∧
    ∃ s, s.Inv ∧ LiveAt s.dec 1 (decoder 2) ∧ GoodArguments s ∧
      decodeCount (decoder 2) s ≤ 0x3FFFFFFF ∧
      BufferFits s s.inAddress (decodeCount (decoder 2) s) ∧
      BufferFits s s.outAddress (2 * decodeCount (decoder 2) s) ∧
      (∀ k, k < decodeCount (decoder 2) s → DecodeElementAdmitted s k) ∧
      0 < decodeCount (decoder 2) s ∧
      s.outAddress + 2 * decodeCount (decoder 2) s ≤ s.inAddress := by
  refine ⟨⟨bench 0x400 1 0x401 2 [(0x400, 1)], bench_inv _ _ _ _, ⟨rfl, rfl⟩, ?_, by decide, ?_, ?_,
      only_zero (by decide) ?_, by decide, by decide⟩,
    ⟨bench 0x400 1 0x3FE 2 [(0x400, 1)], bench_inv _ _ _ _, ⟨rfl, rfl⟩, ?_, by decide, ?_, ?_,
      only_zero (by decide) ?_, by decide, by decide⟩⟩ <;>
    ((first | unfold GoodArguments | unfold DecodeElementAdmitted | unfold BufferFits); decide)

theorem witness_EncodeFrame :
    Goes (exec (.encEncode 1) (bench 0x400 2 0x300 1 [])) ∧
    ¬ ((bench 0x400 2 0x300 1 []).outAddress ≤ 0x301 ∧
      0x301 < (bench 0x400 2 0x300 1 []).outAddress + encodeCount (bench 0x400 2 0x300 1 [])) :=
  ⟨⟨_, rfl⟩, by decide⟩

theorem witness_DecodeFrame :
    Goes (exec (.decDecode 1) (bench 0x400 1 0x300 1 [])) ∧
    ∀ x, LiveAt (bench 0x400 1 0x300 1 []).dec 1 x →
      ¬ ((bench 0x400 1 0x300 1 []).outAddress ≤ 0x302 ∧
        0x302 < (bench 0x400 1 0x300 1 []).outAddress +
          2 * decodeCount x (bench 0x400 1 0x300 1 [])) := by
  refine ⟨⟨_, rfl⟩, fun x hx => ?_⟩
  obtain rfl : decoder 1 = x := Option.some.inj hx.1
  decide

/-- A block whose platform refuses writes to `0x301`. -/
def refusing (s : State) : State :=
  { s with params := { Params.default with refused := [⟨0x301, 1, .write⟩] } }

/-- Two samples; the code of the second is refused. -/
theorem witness_EncodeBusErrorIsPrecise :
    ∃ s, LiveAt s.enc 1 (encoder 1) ∧ GoodArguments s ∧
      BufferFits s s.inAddress (2 * encodeCount s) ∧ BufferFits s s.outAddress (encodeCount s) ∧
      1 < encodeCount s ∧ (∀ k, k < 1 → EncodeElementAdmitted s k) ∧
      ¬ EncodeElementAdmitted s 1 := by
  refine ⟨refusing (bench 0x400 4 0x300 1 []), ⟨rfl, rfl⟩, ?_, ?_, ?_, by decide,
    only_zero rfl ?_, ?_⟩ <;>
    ((first | unfold GoodArguments | unfold EncodeElementAdmitted | unfold BufferFits); decide)

/-- The second byte of the first sample is refused; and, with another output, its first byte. -/
theorem witness_DecodeBusErrorIsPrecise :
    (∃ s, LiveAt s.dec 1 (decoder 1) ∧ GoodArguments s ∧
      decodeCount (decoder 1) s ≤ 0x3FFFFFFF ∧
      BufferFits s s.inAddress (decodeCount (decoder 1) s) ∧
      BufferFits s s.outAddress (2 * decodeCount (decoder 1) s) ∧
      0 < decodeCount (decoder 1) s ∧ ¬ DecodeElementAdmitted s 0 ∧
      s.params.admits s.inAddress .read = true ∧ s.params.admits s.outAddress .write = true) ∧
    ∃ s, LiveAt s.dec 1 (decoder 1) ∧ GoodArguments s ∧
      decodeCount (decoder 1) s ≤ 0x3FFFFFFF ∧
      BufferFits s s.inAddress (decodeCount (decoder 1) s) ∧
      BufferFits s s.outAddress (2 * decodeCount (decoder 1) s) ∧
      0 < decodeCount (decoder 1) s ∧ ¬ DecodeElementAdmitted s 0 ∧
      ¬ s.params.admits s.outAddress .write = true := by
  refine ⟨⟨refusing (bench 0x400 1 0x300 1 []), ⟨rfl, rfl⟩, ?_, by decide, ?_, ?_, by decide, ?_,
      by decide, by decide⟩,
    ⟨refusing (bench 0x400 1 0x301 1 []), ⟨rfl, rfl⟩, ?_, by decide, ?_, ?_, by decide, ?_,
      by decide⟩⟩ <;>
    ((first | unfold GoodArguments | unfold DecodeElementAdmitted | unfold BufferFits); decide)

/-- One byte too far, of each buffer of each transform. -/
theorem witness_AddressRangeIsCheckedBeforeAnyAccess :
    (∃ s, LiveAt s.enc 1 (encoder 1) ∧ GoodArguments s ∧ 0 < encodeCount s ∧
      2 ^ s.params.addrWidth - 1 < s.inAddress + 2 * encodeCount s - 1) ∧
    (∃ s, LiveAt s.enc 1 (encoder 1) ∧ GoodArguments s ∧ 0 < encodeCount s ∧
      2 ^ s.params.addrWidth - 1 < s.outAddress + encodeCount s - 1) ∧
    (∃ s, LiveAt s.dec 1 (decoder 1) ∧ GoodArguments s ∧ decodeCount (decoder 1) s ≤ 0x3FFFFFFF ∧
      2 ^ s.params.addrWidth - 1 < s.inAddress + decodeCount (decoder 1) s - 1) ∧
    ∃ s, LiveAt s.dec 1 (decoder 1) ∧ GoodArguments s ∧ decodeCount (decoder 1) s ≤ 0x3FFFFFFF ∧
      2 ^ s.params.addrWidth - 1 < s.outAddress + 2 * decodeCount (decoder 1) s - 1 := by
  refine ⟨⟨bench 0xFFFFFFFF 2 0x300 1 [], ⟨rfl, rfl⟩, ?_, by decide, by decide⟩,
    ⟨bench 0x400 4 0xFFFFFFFF 1 [], ⟨rfl, rfl⟩, ?_, by decide, by decide⟩,
    ⟨bench 0xFFFFFFFF 2 0x300 1 [], ⟨rfl, rfl⟩, ?_, by decide, by decide⟩,
    ⟨bench 0x400 1 0xFFFFFFFF 1 [], ⟨rfl, rfl⟩, ?_, by decide, by decide⟩⟩ <;>
    (unfold GoodArguments; decide)

/-- The least count that overflows, as a command, and as a step of a block that is busy with it. -/
theorem witness_LengthOverflowIsTheDecodersAlone :
    (∃ s, LiveAt s.dec 1 (decoder 1) ∧ GoodArguments s ∧
      decodeCount (decoder 1) s = 0x3FFFFFFF + 1 ∧
      ∃ t, exec (.decDecode 1) s = .next t ∧ t.phase = .faulted .lengthOverflow) ∧
    ∃ s, NotFaulted s ∧ ∃ t, step s = .next t ∧ t.phase = .faulted .lengthOverflow := by
  refine ⟨⟨bench 0x400 0x40000000 0x300 1 [], ⟨rfl, rfl⟩, ?_, by decide, _, rfl, by decide⟩,
    ⟨{ bench 0x400 0x40000000 0x300 1 [] with lcmd := 0x00000106 }, ?_, _, rfl, by decide⟩⟩
  · unfold GoodArguments; decide
  · intro c hc; cases hc

/-- An encode of four samples in flight at element `k`; the code of the second is refused. -/
def encodeInFlight (k : Nat) : State :=
  { refusing (bench 0x400 8 0x300 1 []) with lcmd := 0x00000102, k := k, port := [.blockTurn, .wait] }

/-- A decode of three codes in flight at element `k`; the second byte of the second sample is refused. -/
def decodeInFlight (k : Nat) : State :=
  { refusing (bench 0x400 3 0x2FE 1 []) with lcmd := 0x00000106, k := k }

theorem test_inFlight :
    decode 0x00000102 = .ok (.encEncode 1) ∧ decode 0x00000106 = .ok (.decDecode 1) := by decide

theorem encodeInFlight_meets (k : Nat) :
    let s := encodeInFlight k
    BlockMovesNext s ∧ s.phase = .busy ∧ decode s.lcmd = .ok (.encEncode 1) ∧
      LiveAt s.enc 1 (encoder 1) ∧ GoodArguments s ∧
      BufferFits s s.inAddress (2 * encodeCount s) ∧ BufferFits s s.outAddress (encodeCount s) := by
  refine ⟨.inr rfl, rfl, test_inFlight.1, ⟨rfl, rfl⟩, ?_, ?_, ?_⟩
  · show GoodArguments (bench 0x400 8 0x300 1 [])
    unfold GoodArguments; decide
  · show BufferFits (bench 0x400 8 0x300 1 []) 0x400 (2 * encodeCount (bench 0x400 8 0x300 1 []))
    unfold BufferFits; decide
  · show BufferFits (bench 0x400 8 0x300 1 []) 0x300 (encodeCount (bench 0x400 8 0x300 1 []))
    unfold BufferFits; decide

theorem decodeInFlight_meets (k : Nat) :
    let s := decodeInFlight k
    BlockMovesNext s ∧ s.phase = .busy ∧ decode s.lcmd = .ok (.decDecode 1) ∧
      LiveAt s.dec 1 (decoder 1) ∧ GoodArguments s ∧ decodeCount (decoder 1) s ≤ 0x3FFFFFFF ∧
      BufferFits s s.inAddress (decodeCount (decoder 1) s) ∧
      BufferFits s s.outAddress (2 * decodeCount (decoder 1) s) := by
  refine ⟨.inl rfl, rfl, test_inFlight.2, ⟨rfl, rfl⟩, ?_, ?_, ?_, ?_⟩
  · show GoodArguments (bench 0x400 3 0x2FE 1 [])
    unfold GoodArguments; decide
  · show decodeCount (decoder 1) (bench 0x400 3 0x2FE 1 []) ≤ 0x3FFFFFFF
    decide
  · show BufferFits (bench 0x400 3 0x2FE 1 []) 0x400 (decodeCount (decoder 1) (bench 0x400 3 0x2FE 1 []))
    unfold BufferFits; decide
  · show BufferFits (bench 0x400 3 0x2FE 1 []) 0x2FE (2 * decodeCount (decoder 1) (bench 0x400 3 0x2FE 1 []))
    unfold BufferFits; decide

/-- An admitted element, a refused one and the end, of each transform (its other hypotheses: the two
theorems above); an encode of no element is at its end at once. -/
theorem witness_OneElementIsOneBlockStep :
    (0 < encodeCount (encodeInFlight 0) ∧ EncodeElementAdmitted (encodeInFlight 0) 0) ∧
    (1 < encodeCount (encodeInFlight 1) ∧ ¬ EncodeElementAdmitted (encodeInFlight 1) 1) ∧
    (encodeInFlight 4).k = encodeCount (encodeInFlight 4) ∧
    encodeCount (bench 0x400 1 0x300 1 []) = 0 ∧
    (0 < decodeCount (decoder 1) (decodeInFlight 0) ∧ DecodeElementAdmitted (decodeInFlight 0) 0) ∧
    (1 < decodeCount (decoder 1) (decodeInFlight 1) ∧
      ¬ DecodeElementAdmitted (decodeInFlight 1) 1) ∧
    (decodeInFlight 3).k = decodeCount (decoder 1) (decodeInFlight 3) := by
  unfold EncodeElementAdmitted DecodeElementAdmitted
  decide

/-- A length of one frame exactly, one short of a frame, one above it, and a count of zero. -/
theorem witness_FrameLenDropsATrailingPartialFrame :
    (0 : Int) < 3 ∧ (0 : Int) < 3 ∧ (3 : Int) ≤ 3 ∧ (2 : Int) < 3 ∧ (3 : Int) ≤ 4 ∧ (0 : Int) ≤ 0 ∧
    (3 : Int) ∣ 3 := by decide

theorem witness_SampleBytesAreInTheBlocksOrder :
    (bench 0 0 0 1 []).mem.wf = true ∧ (bench 0 0 0 1 []).params.admits 0xFFFFFFFE .write = true ∧
    (bench 0 0 0 1 []).params.admits (0xFFFFFFFE + 1) .write = true ∧
    (bench 0 0 0 1 []).params.sampleEndian = .le ∧
    (bigEndian (bench 0 0 0 1 [])).params.sampleEndian = .be := by decide

/-- The ends of the table of segments, and both signs at their boundary. -/
theorem witness_ExpansionMagnitudes :
    segmentOf 0xD5 = 0 ∧ mantissaOf 0xD5 = 0 ∧ segmentOf 0xDA = 0 ∧ mantissaOf 0xDA = 15 ∧
    segmentOf 0x25 = 7 ∧ mantissaOf 0x25 = 0 ∧ segmentOf 0x2A = 7 ∧ mantissaOf 0x2A = 15 := by decide

theorem witness_ExpansionSignIsBitSeven :
    0x80 ≤ (0x80 : Byte).toNat ∧ (0x7F : Byte).toNat ≤ 0x7F := by decide

theorem witness_MagnitudeCodesAreOrdered :
    magnitudeCodeOf 0xD5 < magnitudeCodeOf 0x54 ∧ magnitudeCodeOf 0x2A = magnitudeCodeOf 0x2A ∧
    (0x2A : Byte).getLsbD 7 = (0x2A : Byte).getLsbD 7 ∧ 127 < 128 := by decide

theorem witness_LiveDecoderTableIsTheExpansion :
    (bench 0 0 0 1 [(0x400, 1)]).Inv ∧ LiveAt (bench 0 0 0 1 [(0x400, 1)]).dec 1 (decoder 1) :=
  ⟨bench_inv 0 0 0 1, rfl, rfl⟩

theorem witness_LiveEncoderTableIsTheClosedForm :
    (bench 0 0 0 1 [(0x400, 1)]).Inv ∧ LiveAt (bench 0 0 0 1 [(0x400, 1)]).enc 1 (encoder 1) :=
  ⟨bench_inv 0 0 0 1, rfl, rfl⟩

theorem witness_CompandingIsMonotone : (0x8000 : Sample).toInt ≤ (0x7FFF : Sample).toInt := by decide

/-- The run of `0x2A` at the low end of the table: indices 0, 1 and 2. -/
theorem witness_EachCodeIsOneRunOfIndices :
    (0 : Fin 16384) ≤ 1 ∧ (1 : Fin 16384) ≤ 2 ∧
    compressionTable.get 0 = compressionTable.get 2 := by decide +kernel

theorem witness_StatusFields :
    (∃ s : State, s.port = [.write 4 0x14 1]) ∧
    ∃ s : State, Goes (step s) ∧ s.port.head? ≠ some .reset ∧ s.status.getLsbD 1 = true :=
  ⟨⟨{ State.reset with port := [.write 4 0x14 1] }, rfl⟩,
    ⟨{ State.reset with phase := .faulted .busError, port := [.command 5] }, ⟨_, rfl⟩, by simp,
      by decide⟩⟩

theorem witness_ReservedOffsetsReadAsZero :
    0x18 ≤ (0x18 : Fin 64).val ∧ (0x18 : Fin 64).val % 4 = 0 ∧ 0x18 ≤ (0x3C : Fin 64).val ∧
    (0x3C : Fin 64).val % 4 = 0 := by decide

theorem witness_ArgRegistersBelongToTheHost :
    State.reset.phase = .idle ∧ (bench 0 0 0 1 []).phase = .busy ∧
    (∃ s : State, s.phase = .faulted .busError) ∧ Goes (exec .encCreate State.reset) :=
  ⟨rfl, rfl, ⟨{ State.reset with phase := .faulted .busError }, rfl⟩, _, rfl⟩

/-- A step that violates the protocol, and one that does not. -/
theorem witness_HostProtocolIsRaisedExactlyByItsAccesses :
    (∃ s, NotFaulted s ∧ Goes (step s) ∧ ViolatesProtocol s) ∧
    ∃ s, NotFaulted s ∧ Goes (step s) ∧ ¬ ViolatesProtocol s := by
  refine ⟨⟨{ bench 0 0 0 1 [] with port := [.write 4 0x0C 1] }, ?_, ⟨_, rfl⟩, .inr ⟨rfl, by decide⟩⟩,
    ⟨{ bench 0 0 0 1 [] with port := [.write 4 0x10 1] }, ?_, ⟨_, rfl⟩, ?_⟩⟩
  · intro c hc; cases hc
  · intro c hc; cases hc
  · rintro (h | ⟨_, h⟩)
    · exact h ⟨rfl, by decide⟩
    · exact absurd h (by decide)

/-- A width of 2, a width of 8, an offset that is not a multiple of 4. -/
theorem witness_OddRegisterAccessesFault :
    ¬ (2 = 4 ∧ (0x14 : Fin 64).val % 4 = 0) ∧ ¬ (8 = 4 ∧ (0x10 : Fin 64).val % 4 = 0) ∧
    ¬ (4 = 4 ∧ (0x16 : Fin 64).val % 4 = 0) ∧ NotFaulted State.reset ∧
    ∃ s : State, s.phase = .faulted .busError :=
  ⟨by decide, by decide, by decide, fun _ h => Phase.noConfusion h,
    ⟨{ State.reset with phase := .faulted .busError }, rfl⟩⟩

theorem witness_ResetInputFreesEverySlot :
    ∃ s : State, s.port = [.reset] ∧ LiveAt s.enc 1 (encoder 1) ∧ (1 : Nat) ≠ 0 :=
  ⟨{ bench 0 0 0 1 [] with port := [.reset] }, rfl, ⟨rfl, rfl⟩, by decide⟩

theorem witness_WaitPollsUntilNotBusy :
    (∃ s : State, s.port = [.wait, .reset] ∧ s.phase = .idle) ∧
    (∃ s : State, s.port = [.wait, .reset] ∧ s.phase = .busy) ∧
    ∃ s : State, s.port = [.wait, .reset] ∧ s.phase = .faulted .busError :=
  ⟨⟨{ State.reset with port := [.wait, .reset] }, rfl, rfl⟩,
    ⟨{ bench 0 0 0 1 [] with port := [.wait, .reset] }, rfl, rfl⟩,
    ⟨{ State.reset with port := [.wait, .reset], phase := .faulted .busError }, rfl, rfl⟩⟩

/-- A create that completes; an illegal word that faults. -/
theorem witness_ScriptReturnsTheCommandsResult :
    (∃ t, step { State.reset with port := [.command 5] } = .next t ∧ t.phase = .idle) ∧
    ∃ t, step { State.reset with port := [.command 0] } = .next t ∧
      t.phase = .faulted .illegalCommand := ⟨⟨_, rfl, rfl⟩, _, rfl, rfl⟩

theorem encodeInFlight_outside (a : Nat) (h : ¬ InEncodeBuffers (encodeInFlight 0) a) :
    ¬ InBusyBuffers (encodeInFlight 0) a := by
  rintro ⟨_, ⟨_, _, _, _, ha⟩ | ⟨_, _, hd, _⟩⟩
  · exact h ha
  · rw [(encodeInFlight_meets 0).2.2.1] at hd; cases hd

theorem decodeInFlight_outside (a : Nat) (h : ¬ InDecodeBuffers (decoder 1) (decodeInFlight 0) a) :
    ¬ InBusyBuffers (decodeInFlight 0) a := by
  rintro ⟨_, ⟨_, _, hd, _⟩ | ⟨_, _, hd, hx, ha⟩⟩
  · rw [(decodeInFlight_meets 0).2.2.1] at hd; cases hd
  · rw [(decodeInFlight_meets 0).2.2.1] at hd
    cases hd
    cases Option.some.inj hx.1
    exact h ha

/-- The platform admits both accesses to the address. -/
def Admitted (s : State) (a : Nat) : Prop :=
  s.params.admits a .read = true ∧ s.params.admits a .write = true

/-- The last address of an idle block; the addresses next to the buffers of a transform in flight; the
first and the last byte of each of its buffers (the other hypotheses: `encodeInFlight_meets` and
`decodeInFlight_meets`). -/
theorem witness_HostMemoryAccesses :
    (State.reset.mem.wf = true ∧ ¬ InBusyBuffers State.reset 0xFFFFFFFF ∧
      0xFFFFFFFF < 2 ^ State.reset.params.addrWidth ∧ Admitted State.reset 0xFFFFFFFF) ∧
    (∀ a ∈ [0x3FF, 0x408, 0x2FF, 0x304],
      ¬ InBusyBuffers (encodeInFlight 0) a ∧ Admitted (encodeInFlight 0) a) ∧
    (∀ a ∈ [0x3FF, 0x403, 0x2FD, 0x304],
      ¬ InBusyBuffers (decodeInFlight 0) a ∧ Admitted (decodeInFlight 0) a) ∧
    (∀ a ∈ [0x400, 0x407, 0x300, 0x303],
      InEncodeBuffers (encodeInFlight 0) a ∧ Admitted (encodeInFlight 0) a) ∧
    ∀ a ∈ [0x400, 0x402, 0x2FE, 0x303],
      InDecodeBuffers (decoder 1) (decodeInFlight 0) a ∧ Admitted (decodeInFlight 0) a := by
  have he : ∀ a ∈ [0x3FF, 0x408, 0x2FF, 0x304],
      ¬ InEncodeBuffers (encodeInFlight 0) a ∧ Admitted (encodeInFlight 0) a := by
    unfold InEncodeBuffers Admitted; decide
  have hd : ∀ a ∈ [0x3FF, 0x403, 0x2FD, 0x304],
      ¬ InDecodeBuffers (decoder 1) (decodeInFlight 0) a ∧ Admitted (decodeInFlight 0) a := by
    unfold InDecodeBuffers Admitted; decide
  refine ⟨⟨rfl, fun h => Phase.noConfusion h.1, by decide, ?_⟩,
    fun a ha => ⟨encodeInFlight_outside a (he a ha).1, (he a ha).2⟩,
    fun a ha => ⟨decodeInFlight_outside a (hd a ha).1, (hd a ha).2⟩, ?_, ?_⟩
  · unfold Admitted; decide
  · unfold InEncodeBuffers Admitted; decide
  · unfold InDecodeBuffers Admitted; decide

end Sys2Proof.Tests
end

section
/-! PROOF (00_scope.md R7, 20_memory.md R53). No step changes the parameters or the slot counts of a
block. A transform writes neither of the slot lists; a create sets one entry of a list and a destroy
modifies one, which keeps the list's length; reset replaces each list by free slots, as many as it had.
Nothing writes the parameters. -/

namespace Sys2Proof.Machine

/-- Two states of one block: the same parameters and as many slots in either unit. -/
def SameBlock (s t : State) : Prop :=
  t.params = s.params ∧ t.enc.length = s.enc.length ∧ t.dec.length = s.dec.length

theorem SameBlock.refl (s : State) : SameBlock s s := ⟨rfl, rfl, rfl⟩

theorem PlanFrame.sameBlock {s t : State} (h : PlanFrame s t) : SameBlock s t := by
  unfold PlanFrame at h
  rw [h]
  exact .refl s

/-- A create or a destroy writes the slots of one unit only, so the block is the same when it keeps
how many that unit has. -/
theorem CreateFrame.sameBlock {s t : State} (h : CreateFrame s t)
    (he : t.enc.length = s.enc.length) (hd : t.dec.length = s.dec.length) : SameBlock s t := by
  unfold CreateFrame at h
  exact ⟨by rw [h], he, hd⟩

@[simp] theorem release_length {τ : Type} (slots : List (Slot τ)) (h : Nat) :
    (release slots h).length = slots.length := List.length_modify ..

theorem State.encCreate_enc_length (s : State) : s.encCreate.enc.length = s.enc.length := by
  unfold State.encCreate
  split
  · rfl
  · split <;> simp

theorem State.decCreate_dec_length (s : State) : s.decCreate.dec.length = s.dec.length := by
  unfold State.decCreate
  split
  · rfl
  · split <;> simp

theorem State.encDestroy_enc_length (h : Nat) (s : State) :
    (s.encDestroy h).enc.length = s.enc.length := by
  unfold State.encDestroy
  split <;> simp

theorem State.decDestroy_dec_length (h : Nat) (s : State) :
    (s.decDestroy h).dec.length = s.dec.length := by
  unfold State.decDestroy
  split <;> simp

theorem State.encCreate_sameBlock (s : State) : SameBlock s s.encCreate :=
  have ⟨hf, hd⟩ := s.encCreate_frame
  hf.sameBlock s.encCreate_enc_length (by rw [hd])

theorem State.decCreate_sameBlock (s : State) : SameBlock s s.decCreate :=
  have ⟨hf, he⟩ := s.decCreate_frame
  hf.sameBlock (by rw [he]) s.decCreate_dec_length

theorem State.encDestroy_sameBlock (h : Nat) (s : State) : SameBlock s (s.encDestroy h) :=
  have ⟨hf, hd⟩ := s.encDestroy_frame h
  hf.sameBlock (s.encDestroy_enc_length h) (by rw [hd])

theorem State.decDestroy_sameBlock (h : Nat) (s : State) : SameBlock s (s.decDestroy h) :=
  have ⟨hf, he⟩ := s.decDestroy_frame h
  hf.sameBlock (by rw [he]) (s.decDestroy_dec_length h)

theorem afterCommand_sameBlock (i : Instr) (s : State) : SameBlock s (afterCommand i s) := by
  cases i with
  | encCreate => exact s.encCreate_sameBlock
  | encEncode h => exact (runPlan_frame encodeElement encodeElement_frame _ s).sameBlock
  | encDestroy h => exact s.encDestroy_sameBlock h
  | decCreate => exact s.decCreate_sameBlock
  | decDecode h => exact (runPlan_frame decodeElement decodeElement_frame _ s).sameBlock
  | decDestroy h => exact s.decDestroy_sameBlock h

theorem commandStep_sameBlock (i : Instr) (s : State) : SameBlock s (commandStep i s) := by
  cases i with
  | encCreate => exact s.encCreate_sameBlock
  | encEncode h => exact (stepPlan_frame encodeElement encodeElement_frame _ s).sameBlock
  | encDestroy h => exact s.encDestroy_sameBlock h
  | decCreate => exact s.decCreate_sameBlock
  | decDecode h => exact (stepPlan_frame decodeElement decodeElement_frame _ s).sameBlock
  | decDestroy h => exact s.decDestroy_sameBlock h

theorem blockStep_sameBlock (s : State) : SameBlock s s.blockStep := by
  rcases blockStep_cases s with ⟨_, h⟩ | ⟨_, _, h⟩ | ⟨i, _, _, h⟩
  · rw [h]; exact .refl s
  · rw [h]; exact .refl s
  · rw [h]; exact commandStep_sameBlock i s

theorem protocolError_sameBlock (s : State) : SameBlock s s.protocolError := by
  unfold State.protocolError
  split <;> exact .refl s

theorem storeCmd_sameBlock (v : Word) (s : State) : SameBlock s (s.storeCmd v) := by
  unfold State.storeCmd
  split <;> exact .refl s

/-- A store to an `ARG` register keeps the block as its write does. -/
theorem storeArg_sameBlock (put : State → State) (s : State) (h : SameBlock s (put s)) :
    SameBlock s (s.storeArg put) := by
  unfold State.storeArg
  split
  · exact h
  · exact .refl s
  · exact .refl s

theorem storeReg_sameBlock (r : Reg) (v : Word) (s : State) : SameBlock s (s.storeReg r v) := by
  cases r with
  | cmd => exact storeCmd_sameBlock v s
  | arg0 => exact storeArg_sameBlock _ s (.refl s)
  | arg1 => exact storeArg_sameBlock _ s (.refl s)
  | arg2 => exact storeArg_sameBlock _ s (.refl s)
  | result => exact .refl s
  | status => exact .refl s
  | reserved => exact .refl s

theorem applyReset_sameBlock (s : State) : SameBlock s s.applyReset :=
  ⟨rfl, List.length_replicate, List.length_replicate⟩

/-- Settles O12, by the inversion of a step: each thing a step can be keeps the block. The port, the
latches and the registers are no part of `SameBlock`, so a lemma about the state with the event taken
off its port speaks of the state before the step as well. -/
theorem stepKeepsTheParameters : Obligations.StepKeepsTheParameters := by
  intro s t h
  change SameBlock s t
  cases step_cases s t h with
  | quiet _ ht => subst ht; exact blockStep_sameBlock s
  | turn rest _ ht => subst ht; exact blockStep_sameBlock { s with port := rest }
  | store offset v rest _ _ ht =>
    subst ht; exact storeReg_sameBlock (regAt offset) v { s with port := rest }
  | load _ _ _ _ ht => subst ht; exact .refl s
  | odd _ rest _ _ _ _ ht => subst ht; exact protocolError_sameBlock { s with port := rest }
  | memWrite _ _ _ _ _ _ ht => subst ht; exact .refl s
  | memRead _ _ _ _ ht => subst ht; exact .refl s
  | waitIdle _ _ _ ht => subst ht; exact .refl s
  | waitBusy _ _ _ ht => subst ht; exact blockStep_sameBlock { s with readData := s.status }
  | waitFaulted _ _ _ _ ht => subst ht; exact .refl s
  | illegal _ _ _ _ _ _ ht => subst ht; exact .refl s
  | command w i rest _ _ _ ht =>
    subst ht; exact afterCommand_sameBlock i (State.start w { s with port := rest })
  | commandBusy _ _ _ _ ht => subst ht; exact .refl s
  | commandFaulted _ _ _ _ _ ht => subst ht; exact .refl s
  | reset rest _ ht => subst ht; exact applyReset_sameBlock { s with port := rest }

end Sys2Proof.Machine
end

section
/-! SUPPORT. What a step does at the register window, and what a store, a poll and a command do to the
phase: one equation for each case (10_state.md R22-R28, 30_encoding.md R86, R87). -/

namespace Sys2Proof.Machine

theorem phase_cases (s : State) :
    s.phase = .idle ∨ s.phase = .busy ∨ ∃ c, s.phase = .faulted c := by
  cases s.phase with
  | idle => exact .inl rfl
  | busy => exact .inr (.inl rfl)
  | faulted c => exact .inr (.inr ⟨c, rfl⟩)

theorem notFaulted_of_idle (s : State) (h : s.phase = .idle) : NotFaulted s := by
  intro c hc
  rw [h] at hc
  cases hc

/-! ## Stores and polls by the phase -/

theorem storeCmd_idle (v : Word) (s : State) (h : s.phase = .idle) : s.storeCmd v = s.start v := by
  simp only [State.storeCmd, h]

theorem storeCmd_busy (v : Word) (s : State) (h : s.phase = .busy) :
    s.storeCmd v = s.raise .hostProtocol := by simp only [State.storeCmd, h]

theorem storeArg_idle (put : State → State) (s : State) (h : s.phase = .idle) :
    s.storeArg put = put s := by simp only [State.storeArg, h]

theorem storeArg_busy (put : State → State) (s : State) (h : s.phase = .busy) :
    s.storeArg put = s.raise .hostProtocol := by simp only [State.storeArg, h]

theorem storeArg_faulted (put : State → State) (s : State) (c : Cause) (h : s.phase = .faulted c) :
    s.storeArg put = s := by simp only [State.storeArg, h]

theorem storeReg_arg0_idle (v : Word) (s : State) (h : s.phase = .idle) :
    s.storeReg .arg0 v = { s with arg0 := v } := storeArg_idle (fun s => { s with arg0 := v }) s h

theorem storeReg_arg1_idle (v : Word) (s : State) (h : s.phase = .idle) :
    s.storeReg .arg1 v = { s with arg1 := v } := storeArg_idle (fun s => { s with arg1 := v }) s h

theorem storeReg_arg2_idle (v : Word) (s : State) (h : s.phase = .idle) :
    s.storeReg .arg2 v = { s with arg2 := v } := storeArg_idle (fun s => { s with arg2 := v }) s h

/-- A store to an `ARG` register while `BUSY` (10_state.md R24). -/
theorem storeReg_arg_busy (r : Reg) (v : Word) (s : State) (h : s.phase = .busy)
    (hr : r = .arg0 ∨ r = .arg1 ∨ r = .arg2) : s.storeReg r v = s.raise .hostProtocol := by
  rcases hr with rfl | rfl | rfl <;> rw [State.storeReg, storeArg_busy _ s h]

/-- A faulted block ignores every store to a register (60_exceptions.md R204). -/
theorem storeReg_faulted (r : Reg) (v : Word) (s : State) (c : Cause) (h : s.phase = .faulted c) :
    s.storeReg r v = s := by
  cases r <;> simp only [State.storeReg, State.storeCmd, State.storeArg, h]

/-- Of the stores to an idle block only one to `CMD` leaves the phase `IDLE`. -/
theorem storeReg_idle_phase (r : Reg) (v : Word) (s : State) (h : s.phase = .idle) (hr : r ≠ .cmd) :
    (s.storeReg r v).phase = .idle := by
  cases r with
  | cmd => exact absurd rfl hr
  | arg0 => rw [storeReg_arg0_idle v s h]; exact h
  | arg1 => rw [storeReg_arg1_idle v s h]; exact h
  | arg2 => rw [storeReg_arg2_idle v s h]; exact h
  | result => exact h
  | status => exact h
  | reserved => exact h

theorem poll_idle (rest : List Input) (s : State) (h : s.phase = .idle) :
    s.poll rest = { s with readData := s.status, port := rest } := by simp only [State.poll, h]

theorem poll_busy (rest : List Input) (s : State) (h : s.phase = .busy) :
    s.poll rest = State.blockStep { s with readData := s.status } := by simp only [State.poll, h]

theorem poll_faulted (rest : List Input) (s : State) (c : Cause) (h : s.phase = .faulted c) :
    s.poll rest = { s with readData := s.status, port := endProgram rest } := by
  simp only [State.poll, h]

/-! ## Steps at the window -/

theorem regAt_cmd (offset : Fin 64) (h : regAt offset = .cmd) : offset = 0 := by
  revert offset
  decide

theorem regAt_arg (offset : Fin 64) (ho : offset = 0x04 ∨ offset = 0x08 ∨ offset = 0x0C) :
    offset.val % 4 = 0 ∧
      (regAt offset = .arg0 ∨ regAt offset = .arg1 ∨ regAt offset = .arg2) := by
  revert offset
  decide

theorem regAt_reserved (offset : Fin 64) (h : 0x18 ≤ offset.val) : regAt offset = .reserved := by
  revert offset
  decide

/-- A 32-bit aligned store in the window. -/
theorem step_store (s : State) (offset : Fin 64) (v : Word) (rest : List Input)
    (hp : s.port = .write 4 offset v :: rest) (ho : offset.val % 4 = 0) :
    step s = .next (State.storeReg (regAt offset) v { s with port := rest }) := by
  rw [step_event s _ rest hp, State.serve, hostStore_good _ _ _ ho]

/-- A 32-bit aligned load in the window. -/
theorem step_load (s : State) (offset : Fin 64) (rest : List Input)
    (hp : s.port = .read 4 offset :: rest) (ho : offset.val % 4 = 0) :
    step s = .next { s with port := rest, readData := s.regValue (regAt offset) } := by
  rw [step_event s _ rest hp, State.serve, hostLoad_good _ _ ho]
  cases regAt offset <;> rfl

/-- A store of the wrong width or at a misaligned offset. -/
theorem step_oddStore (s : State) (size : Nat) (offset : Fin 64) (v : Word) (rest : List Input)
    (hp : s.port = .write size offset v :: rest) (hg : ¬ (size = 4 ∧ offset.val % 4 = 0)) :
    step s = .next (State.protocolError { s with port := rest }) := by
  rw [step_event s _ rest hp, State.serve, hostStore_bad _ _ _ _ hg]

/-- A load of the wrong width or at a misaligned offset. -/
theorem step_oddLoad (s : State) (size : Nat) (offset : Fin 64) (rest : List Input)
    (hp : s.port = .read size offset :: rest) (hg : ¬ (size = 4 ∧ offset.val % 4 = 0)) :
    step s = .next (State.protocolError { s with port := rest }) := by
  rw [step_event s _ rest hp, State.serve, hostLoad_bad _ _ _ hg]

/-! ## The phase after a command, and of a faulted block -/

theorem encDestroy_not_busy (h : Nat) (s : State) : (s.encDestroy h).phase ≠ .busy := by
  unfold State.encDestroy
  split <;> simp

theorem decDestroy_not_busy (h : Nat) (s : State) : (s.decDestroy h).phase ≠ .busy := by
  unfold State.decDestroy
  split <;> simp

theorem encCreate_idle (s : State) : s.encCreate.phase = .idle := by
  unfold State.encCreate
  split
  · rfl
  · split <;> rfl

theorem decCreate_idle (s : State) : s.decCreate.phase = .idle := by
  unfold State.decCreate
  split
  · rfl
  · split <;> rfl

theorem runPlan_not_busy {τ : Type} (e : Slot τ → State → Progress)
    (he : ∀ slot s t, e slot s = .stopped t → t.phase = .faulted .busError) (p : Plan τ)
    (s : State) : (runPlan e p s).phase ≠ .busy := by
  rcases runPlan_phase e he p s with h | ⟨c, _, h⟩ | h <;> simp [h]

/-- A whole command has ended: the block is no longer busy (60_exceptions.md R200, R203). -/
theorem afterCommand_not_busy (i : Instr) (s : State) : (afterCommand i s).phase ≠ .busy := by
  cases i with
  | encCreate => simp [afterCommand, encCreate_idle]
  | encEncode h => exact runPlan_not_busy encodeElement encodeElement_stopped _ s
  | encDestroy h => exact encDestroy_not_busy h s
  | decCreate => simp [afterCommand, decCreate_idle]
  | decDecode h => exact runPlan_not_busy decodeElement decodeElement_stopped _ s
  | decDestroy h => exact decDestroy_not_busy h s

/-- Only reset leaves the fault state (60_exceptions.md R204). -/
theorem step_keeps_fault (s t : State) (c : Cause) (h : step s = .next t)
    (hr : s.port.head? ≠ some .reset) (hc : s.phase = .faulted c) : t.phase = .faulted c := by
  have hb : s.phase ≠ .busy := by simp [hc]
  have hi : s.phase ≠ .idle := by simp [hc]
  cases step_cases s t h with
  | quiet _ ht => rw [ht, blockStep_still s hb]; exact hc
  | turn rest _ ht => rw [ht, blockStep_still { s with port := rest } hb]; exact hc
  | store offset v rest _ _ ht => rw [ht, storeReg_faulted _ _ { s with port := rest } c hc]; exact hc
  | load _ _ _ _ ht => rw [ht]; exact hc
  | odd _ rest _ _ _ _ ht => rw [ht, protocolError_faulted { s with port := rest } c hc]; exact hc
  | memWrite _ _ _ _ _ _ ht => rw [ht]; exact hc
  | memRead _ _ _ _ ht => rw [ht]; exact hc
  | waitIdle _ _ hs _ => exact absurd hs hi
  | waitBusy _ _ hs _ => exact absurd hs hb
  | waitFaulted _ _ _ _ ht => rw [ht]; exact hc
  | illegal _ _ _ hs _ _ _ => exact absurd hs hi
  | command _ _ _ _ hs _ _ => exact absurd hs hi
  | commandBusy _ _ _ hs _ => exact absurd hs hb
  | commandFaulted _ _ _ _ _ ht => rw [ht]; exact hc
  | reset rest hp _ => exact absurd (by rw [hp]; rfl) hr

end Sys2Proof.Machine
end

section
/-! PROOF (10_state.md R33). No operation reads a stored sample rate or an encoder's channel count. The
proof is relational: two states that are `SameButUnread` are taken through each operation side by side.
Whatever touches no slot keeps the relation (`IgnoresSlots`); what a handle names, the plan of a transform
and its elements agree on both sides as far as they are read (`SameName`, `SamePlan`, `SameProgress`); a
create and a destroy write related slots at one position of both lists. -/

namespace Sys2Proof.Machine

/-! ## Slots that agree in what is read of them -/

/-- Encoder slots that differ at most in their sample rate and channels. -/
def EncAgree (x y : EncSlot) : Prop := x.live = y.live ∧ x.table = y.table

/-- Decoder slots that differ at most in their sample rate. -/
def DecAgree (x y : DecSlot) : Prop :=
  x.live = y.live ∧ x.channels = y.channels ∧ x.table = y.table

theorem EncAgree.refl (x : EncSlot) : EncAgree x x := ⟨rfl, rfl⟩
theorem EncAgree.live {x y : EncSlot} (h : EncAgree x y) : x.live = y.live := h.1
theorem EncAgree.table {x y : EncSlot} (h : EncAgree x y) : x.table = y.table := h.2

theorem DecAgree.refl (x : DecSlot) : DecAgree x x := ⟨rfl, rfl, rfl⟩
theorem DecAgree.live {x y : DecSlot} (h : DecAgree x y) : x.live = y.live := h.1
theorem DecAgree.channels {x y : DecSlot} (h : DecAgree x y) : x.channels = y.channels := h.2.1
theorem DecAgree.table {x y : DecSlot} (h : DecAgree x y) : x.table = y.table := h.2.2

/-- The relation with the slots of the second state as the only thing that is new in it. -/
theorem SameButUnread.slots {s t : State} (h : SameButUnread s t) :
    ∃ e d, t = { s with enc := e, dec := d } ∧ List.Forall₂ EncAgree s.enc e ∧
      List.Forall₂ DecAgree s.dec d :=
  ⟨t.enc, t.dec, h⟩

theorem forall₂_set {α : Type} {R : α → α → Prop} {l m : List α} (h : List.Forall₂ R l m) {x y : α}
    (hxy : R x y) (i : Nat) : List.Forall₂ R (l.set i x) (m.set i y) := by
  induction h generalizing i with
  | nil => exact .nil
  | cons hab ht ih =>
    cases i with
    | zero => exact .cons hxy ht
    | succ i => exact .cons hab (ih i)

theorem forall₂_modify {α : Type} {R : α → α → Prop} {l m : List α} (h : List.Forall₂ R l m)
    {f : α → α} (hf : ∀ x y, R x y → R (f x) (f y)) (i : Nat) :
    List.Forall₂ R (l.modify i f) (m.modify i f) := by
  induction h generalizing i with
  | nil => cases i <;> exact .nil
  | cons hab ht ih =>
    cases i with
    | zero => exact .cons (hf _ _ hab) ht
    | succ i => exact .cons hab (ih i)

/-! ## Names, plans, progress and outcomes that agree -/

/-- A handle names the same on both sides, with agreeing slots. -/
inductive SameName {τ : Type} (R : Slot τ → Slot τ → Prop) : Named τ → Named τ → Prop
  | null : SameName R .null .null
  | dead : SameName R .dead .dead
  | live {x y : Slot τ} (h : R x y) : SameName R (.live x) (.live y)

/-- The checks of a transform have the same outcome on both sides, with agreeing slots. -/
inductive SamePlan {τ : Type} (R : Slot τ → Slot τ → Prop) : Plan τ → Plan τ → Prop
  | fault (c : Cause) : SamePlan R (.fault c) (.fault c)
  | done (r : Word) : SamePlan R (.done r) (.done r)
  | loop {x y : Slot τ} (h : R x y) (n : Nat) (r : Word) : SamePlan R (.loop x n r) (.loop y n r)

/-- Both sides go on, or both have stopped. -/
inductive SameProgress : Progress → Progress → Prop
  | running {s t : State} (h : SameButUnread s t) : SameProgress (.running s) (.running t)
  | stopped {s t : State} (h : SameButUnread s t) : SameProgress (.stopped s) (.stopped t)

/-- Both sides go on, or both stop with the same fault. -/
inductive SameOutcome :
    Host.Outcome State Fault Refusal → Host.Outcome State Fault Refusal → Prop
  | next {s t : State} (h : SameButUnread s t) : SameOutcome (.next s) (.next t)
  | fault (f : Fault) : SameOutcome (.fault f) (.fault f)

/-- Both sides take the same branch, and each branch agrees with its counterpart. -/
theorem ite_same {α : Type} {R : α → α → Prop} (c : Prop) [Decidable c] {p p' q q' : α}
    (h : R p q) (h' : R p' q') : R (if c then p else p') (if c then q else q') := by
  split
  · exact h
  · exact h'

/-! ## Operations that touch no slot -/

/-- The operation neither reads nor writes a slot. -/
def IgnoresSlots (g : State → State) : Prop :=
  ∀ (s : State) (e : List EncSlot) (d : List DecSlot),
    g { s with enc := e, dec := d } = { g s with enc := e, dec := d }

theorem IgnoresSlots.enc {g : State → State} (hg : IgnoresSlots g) (s : State) :
    (g s).enc = s.enc := by
  have hs : g s = { g s with enc := s.enc, dec := s.dec } := hg s s.enc s.dec
  rw [hs]

theorem IgnoresSlots.dec {g : State → State} (hg : IgnoresSlots g) (s : State) :
    (g s).dec = s.dec := by
  have hs : g s = { g s with enc := s.enc, dec := s.dec } := hg s s.enc s.dec
  rw [hs]

section Unread

variable {s t : State} (h : SameButUnread s t)
include h

theorem SameButUnread.map {g : State → State} (hg : IgnoresSlots g) : SameButUnread (g s) (g t) := by
  obtain ⟨e, d, rfl, he, hd⟩ := h.slots
  rw [hg s e d]
  exact ⟨rfl, (hg.enc s).symm ▸ he, (hg.dec s).symm ▸ hd⟩

theorem SameButUnread.phase : t.phase = s.phase := by rw [h.1]

theorem SameButUnread.lcmd : t.lcmd = s.lcmd := by rw [h.1]

theorem SameButUnread.k : t.k = s.k := by rw [h.1]

theorem SameButUnread.port : t.port = s.port := by rw [h.1]

theorem SameButUnread.raise (c : Cause) : SameButUnread (s.raise c) (t.raise c) :=
  h.map (g := State.raise c) fun _ _ _ => rfl

theorem SameButUnread.complete (r : Word) : SameButUnread (s.complete r) (t.complete r) :=
  h.map (g := State.complete r) fun _ _ _ => rfl

theorem SameButUnread.start (w : Word) : SameButUnread (s.start w) (t.start w) :=
  h.map (g := State.start w) fun _ _ _ => rfl

theorem SameButUnread.setN (n : Nat) : SameButUnread { s with n := n } { t with n := n } :=
  h.map (g := fun s => { s with n := n }) fun _ _ _ => rfl

theorem SameButUnread.setPort (p : List Input) :
    SameButUnread { s with port := p } { t with port := p } :=
  h.map (g := fun s => { s with port := p }) fun _ _ _ => rfl

theorem SameButUnread.readStatus :
    SameButUnread { s with readData := s.status } { t with readData := t.status } :=
  h.map (g := fun s => { s with readData := s.status }) fun _ _ _ => rfl

end Unread

theorem protocolError_ignoresSlots : IgnoresSlots State.protocolError := by
  intro s e d
  cases h : s.phase <;> simp only [State.protocolError, h] <;> rfl

theorem storeCmd_ignoresSlots (v : Word) : IgnoresSlots (State.storeCmd v) := by
  intro s e d
  cases h : s.phase <;> simp only [State.storeCmd, h] <;> rfl

theorem storeArg_ignoresSlots {put : State → State} (hput : IgnoresSlots put) :
    IgnoresSlots (State.storeArg put) := by
  intro s e d
  obtain h | h | ⟨c, h⟩ := phase_cases s
  · rw [storeArg_idle put s h]; exact (storeArg_idle put { s with enc := e, dec := d } h).trans (hput s e d)
  · rw [storeArg_busy put s h]; exact storeArg_busy put _ h
  · rw [storeArg_faulted put s c h]; exact storeArg_faulted put _ c h

theorem storeReg_ignoresSlots (r : Reg) (v : Word) : IgnoresSlots (State.storeReg r v) := by
  cases r with
  | cmd => exact storeCmd_ignoresSlots v
  | arg0 => exact storeArg_ignoresSlots fun _ _ _ => rfl
  | arg1 => exact storeArg_ignoresSlots fun _ _ _ => rfl
  | arg2 => exact storeArg_ignoresSlots fun _ _ _ => rfl
  | result => exact fun _ _ _ => rfl
  | status => exact fun _ _ _ => rfl
  | reserved => exact fun _ _ _ => rfl

theorem hostStore_ignoresSlots (size : Nat) (offset : Fin 64) (v : Word) :
    IgnoresSlots (State.hostStore size offset v) := by
  intro s e d
  unfold State.hostStore
  split
  · exact storeReg_ignoresSlots (regAt offset) v s e d
  · exact protocolError_ignoresSlots s e d

theorem regValue_slots (s : State) (e : List EncSlot) (d : List DecSlot) (r : Reg) :
    State.regValue { s with enc := e, dec := d } r = s.regValue r := by
  cases r <;> rfl

theorem hostLoad_ignoresSlots (size : Nat) (offset : Fin 64) :
    IgnoresSlots (State.hostLoad size offset) := by
  intro s e d
  unfold State.hostLoad
  split
  · rw [regValue_slots]
  · exact protocolError_ignoresSlots s e d

theorem afterDraw_ignoresSlots : IgnoresSlots State.afterDraw := by
  intro s e d
  by_cases h : s.params.createMayFail = true <;> simp [State.afterDraw, h]

/-! ## What a handle names, and the lowest free slot -/

section Slots

variable {τ : Type} {R : Slot τ → Slot τ → Prop} (live_eq : ∀ x y, R x y → x.live = y.live)
  {l m : List (Slot τ)} (h : List.Forall₂ R l m)
include live_eq h

theorem nameOf_same (i : Nat) : SameName R (nameOf l i) (nameOf m i) := by
  cases i with
  | zero => exact .null
  | succ i =>
    induction h generalizing i with
    | nil => exact .dead
    | @cons x y _ _ hxy _ ih =>
      cases i with
      | zero =>
        simp only [nameOf, List.getElem?_cons_zero, ← live_eq x y hxy]
        split
        · exact .live hxy
        · exact .dead
      | succ i => exact ih i

theorem firstFree_same : firstFree l = firstFree m := by
  induction h with
  | nil => rfl
  | @cons x y _ _ hxy _ ih => simp only [firstFree, live_eq x y hxy, ih]

end Slots

theorem nameOf_enc_same {l m : List EncSlot} (h : List.Forall₂ EncAgree l m) (i : Nat) :
    SameName EncAgree (nameOf l i) (nameOf m i) :=
  nameOf_same (fun _ _ => EncAgree.live) h i

theorem nameOf_dec_same {l m : List DecSlot} (h : List.Forall₂ DecAgree l m) (i : Nat) :
    SameName DecAgree (nameOf l i) (nameOf m i) :=
  nameOf_same (fun _ _ => DecAgree.live) h i

theorem release_enc_same {l m : List EncSlot} (h : List.Forall₂ EncAgree l m) (i : Nat) :
    List.Forall₂ EncAgree (release l i) (release m i) :=
  forall₂_modify h (f := fun slot => { slot with live := false })
    (fun _ _ hxy => ⟨rfl, hxy.2⟩) (i - 1)

theorem release_dec_same {l m : List DecSlot} (h : List.Forall₂ DecAgree l m) (i : Nat) :
    List.Forall₂ DecAgree (release l i) (release m i) :=
  forall₂_modify h (f := fun slot => { slot with live := false })
    (fun _ _ hxy => ⟨rfl, hxy.2⟩) (i - 1)

/-! ## Creates and destroys -/

section Commands

variable {s t : State} (h : SameButUnread s t)
include h

theorem encCreate_same : SameButUnread s.encCreate t.encCreate := by
  obtain ⟨e, d, rfl, he, hd⟩ := h.slots
  have hfree : firstFree s.enc = firstFree e := firstFree_same (fun _ _ => EncAgree.live) he
  simp only [State.encCreate, ← hfree]
  cases firstFree s.enc with
  | none => exact ⟨rfl, he, hd⟩
  | some i =>
    refine ite_same _ ((h.map afterDraw_ignoresSlots).complete 0) ?_
    rw [afterDraw_ignoresSlots s e d]
    exact ⟨rfl, forall₂_set he (EncAgree.refl _) i, s.afterDraw_dec.symm ▸ hd⟩

theorem decCreate_same : SameButUnread s.decCreate t.decCreate := by
  obtain ⟨e, d, rfl, he, hd⟩ := h.slots
  have hfree : firstFree s.dec = firstFree d := firstFree_same (fun _ _ => DecAgree.live) hd
  simp only [State.decCreate, ← hfree]
  cases firstFree s.dec with
  | none => exact ⟨rfl, he, hd⟩
  | some i =>
    refine ite_same _ ((h.map afterDraw_ignoresSlots).complete 0) ?_
    rw [afterDraw_ignoresSlots s e d]
    exact ⟨rfl, s.afterDraw_enc.symm ▸ he, forall₂_set hd (DecAgree.refl _) i⟩

theorem encDestroy_same (i : Nat) : SameButUnread (s.encDestroy i) (t.encDestroy i) := by
  obtain ⟨e, d, rfl, he, hd⟩ := h.slots
  have hn := nameOf_enc_same he i
  simp only [State.encDestroy]
  generalize nameOf s.enc i = a at hn ⊢
  generalize nameOf e i = b at hn ⊢
  cases hn with
  | null => exact ⟨rfl, he, hd⟩
  | dead => exact ⟨rfl, he, hd⟩
  | live _ => exact ⟨rfl, release_enc_same he i, hd⟩

theorem decDestroy_same (i : Nat) : SameButUnread (s.decDestroy i) (t.decDestroy i) := by
  obtain ⟨e, d, rfl, he, hd⟩ := h.slots
  have hn := nameOf_dec_same hd i
  simp only [State.decDestroy]
  generalize nameOf s.dec i = a at hn ⊢
  generalize nameOf d i = b at hn ⊢
  cases hn with
  | null => exact ⟨rfl, he, hd⟩
  | dead => exact ⟨rfl, he, hd⟩
  | live _ => exact ⟨rfl, he, release_dec_same hd i⟩

/-! ## Transforms -/

theorem planBuffers_same {τ : Type} {R : Slot τ → Slot τ → Prop} {x y : Slot τ} (hxy : R x y)
    (inBytes outBytes n : Nat) (r : Word) :
    SamePlan R (s.planBuffers x inBytes outBytes n r) (t.planBuffers y inBytes outBytes n r) := by
  obtain ⟨e, d, rfl, _, _⟩ := h.slots
  exact ite_same _ (.fault _) (ite_same _ (.fault _) (.loop hxy n r))

theorem encodePlan_same (i : Nat) : SamePlan EncAgree (s.encodePlan i) (t.encodePlan i) := by
  have hb := @planBuffers_same s t h _ EncAgree
  obtain ⟨e, d, rfl, he, _⟩ := h.slots
  have hn := nameOf_enc_same he i
  simp only [State.encodePlan]
  generalize nameOf s.enc i = a at hn ⊢
  generalize nameOf e i = b at hn ⊢
  cases hn with
  | null => exact .done _
  | dead => exact .fault _
  | live hxy => exact ite_same _ (.done _) (hb hxy _ _ _ _)

theorem decodePlan_same (i : Nat) : SamePlan DecAgree (s.decodePlan i) (t.decodePlan i) := by
  have hb := @planBuffers_same s t h _ DecAgree
  obtain ⟨e, d, rfl, _, hd⟩ := h.slots
  have hn := nameOf_dec_same hd i
  simp only [State.decodePlan]
  generalize nameOf s.dec i = a at hn ⊢
  generalize nameOf d i = b at hn ⊢
  cases hn with
  | null => exact .done _
  | dead => exact .fault _
  | live hxy =>
    dsimp only
    rw [← hxy.channels]
    exact ite_same _ (.done _) (ite_same _ (.fault _) (hb hxy _ _ _ _))

end Commands

theorem encodeElement_same (x y : EncSlot) (s t : State) (hxy : EncAgree x y)
    (h : SameButUnread s t) :
    SameProgress (encodeElement x s) (encodeElement y t) := by
  obtain ⟨e, d, rfl, he, hd⟩ := h.slots
  by_cases ha : EncodeElementAdmitted s s.k
  · rw [encodeElement_admitted x s ha, encodeElement_admitted y { s with enc := e, dec := d } ha,
      ← hxy.table]
    exact .running ⟨rfl, he, hd⟩
  · rw [encodeElement_refused x s ha, encodeElement_refused y { s with enc := e, dec := d } ha]
    exact .stopped ⟨rfl, he, hd⟩

theorem decodeElement_same (x y : DecSlot) (s t : State) (hxy : DecAgree x y)
    (h : SameButUnread s t) :
    SameProgress (decodeElement x s) (decodeElement y t) := by
  obtain ⟨e, d, rfl, he, hd⟩ := h.slots
  by_cases hr : s.params.admits (s.inAddress + s.k) .read = true ∧
      s.params.admits (s.outAddress + 2 * s.k) .write = true
  · obtain ⟨h0, h1⟩ := hr
    by_cases h2 : s.params.admits (s.outAddress + 2 * s.k + 1) .write = true
    · rw [decodeElement_admitted x s ⟨h0, h1, h2⟩,
        decodeElement_admitted y { s with enc := e, dec := d } ⟨h0, h1, h2⟩, ← hxy.table]
      exact .running ⟨rfl, he, hd⟩
    · rw [decodeElement_half x s h0 h1 h2,
        decodeElement_half y { s with enc := e, dec := d } h0 h1 h2, ← hxy.table]
      exact .stopped ⟨rfl, he, hd⟩
  · rw [decodeElement_refused x s hr, decodeElement_refused y { s with enc := e, dec := d } hr]
    exact .stopped ⟨rfl, he, hd⟩

theorem SameProgress.state {p q : Progress} (h : SameProgress p q) :
    SameButUnread p.state q.state := by
  cases h with
  | running h => exact h
  | stopped h => exact h

theorem SameProgress.andThen {p q : Progress} (h : SameProgress p q) {f g : State → Progress}
    (hfg : ∀ s t, SameButUnread s t → SameProgress (f s) (g t)) :
    SameProgress (p.andThen f) (q.andThen g) := by
  cases h with
  | running h => exact hfg _ _ h
  | stopped h => exact .stopped h

theorem SameProgress.finish {p q : Progress} (h : SameProgress p q) (r : Word) :
    SameButUnread (p.finish r) (q.finish r) := by
  cases h with
  | running h => exact h.complete r
  | stopped h => exact h

theorem runElements_same {f g : State → Progress}
    (hfg : ∀ s t, SameButUnread s t → SameProgress (f s) (g t)) (m : Nat) {s t : State}
    (h : SameButUnread s t) : SameProgress (runElements f m s) (runElements g m t) := by
  induction m generalizing s t with
  | zero => exact .running h
  | succ m ih => exact (hfg s t h).andThen fun _ _ h => ih h

section Plans

variable {τ : Type} {R : Slot τ → Slot τ → Prop} {f : Slot τ → State → Progress}
  (hf : ∀ x y s t, R x y → SameButUnread s t → SameProgress (f x s) (f y t))
  {p q : Plan τ} (hp : SamePlan R p q) {s t : State} (h : SameButUnread s t)
include hf hp h

theorem runPlan_same : SameButUnread (runPlan f p s) (runPlan f q t) := by
  cases hp with
  | fault c => exact h.raise c
  | done r => exact h.complete r
  | loop hxy n r =>
    have h0 : SameButUnread { s with n := n, k := 0 } { t with n := n, k := 0 } :=
      h.map (g := fun s => { s with n := n, k := 0 }) fun _ _ _ => rfl
    exact (runElements_same (fun s t h => hf _ _ s t hxy h) n h0).finish r

theorem stepPlan_same : SameButUnread (stepPlan f p s) (stepPlan f q t) := by
  cases hp with
  | fault c => exact h.raise c
  | done r => exact h.complete r
  | @loop x y hxy n r =>
    by_cases hc : s.k < n
    · rw [stepPlan_element f x n r s hc, stepPlan_element f y n r t (h.k ▸ hc)]
      exact (hf x y _ _ hxy (h.setN n)).state
    · rw [stepPlan_end f x n r s (Nat.not_lt.1 hc),
        stepPlan_end f y n r t (h.k ▸ Nat.not_lt.1 hc)]
      exact (h.setN n).complete r

end Plans

theorem afterCommand_same (i : Instr) {s t : State} (h : SameButUnread s t) :
    SameButUnread (afterCommand i s) (afterCommand i t) := by
  cases i with
  | encCreate => exact encCreate_same h
  | encEncode a => exact runPlan_same encodeElement_same (encodePlan_same h a) h
  | encDestroy a => exact encDestroy_same h a
  | decCreate => exact decCreate_same h
  | decDecode a => exact runPlan_same decodeElement_same (decodePlan_same h a) h
  | decDestroy a => exact decDestroy_same h a

theorem commandStep_same (i : Instr) {s t : State} (h : SameButUnread s t) :
    SameButUnread (commandStep i s) (commandStep i t) := by
  cases i with
  | encCreate => exact encCreate_same h
  | encEncode a => exact stepPlan_same encodeElement_same (encodePlan_same h a) h
  | encDestroy a => exact encDestroy_same h a
  | decCreate => exact decCreate_same h
  | decDecode a => exact stepPlan_same decodeElement_same (decodePlan_same h a) h
  | decDestroy a => exact decDestroy_same h a

/-! ## Steps -/

section Steps

variable {s t : State} (h : SameButUnread s t)
include h

theorem blockStep_same : SameButUnread s.blockStep t.blockStep := by
  rcases blockStep_cases s with ⟨hp, hs⟩ | ⟨hp, ⟨e, he⟩, hs⟩ | ⟨i, hp, hi, hs⟩
  · rw [hs, blockStep_still t (h.phase ▸ hp)]
    exact h
  · rw [hs, blockStep_illegal t e (h.phase.trans hp) (h.lcmd ▸ he)]
    exact h.raise _
  · rw [hs, blockStep_busy t i (h.phase.trans hp) (h.lcmd ▸ hi)]
    exact commandStep_same i h

/-- Both sides have the same command in flight, on the same buffers. -/
theorem busyByte_same (a : Nat) : s.busyByte a = t.busyByte a := by
  have hE := encodePlan_same h
  have hD := decodePlan_same h
  obtain ⟨e, d, rfl, _⟩ := h.slots
  unfold State.busyByte
  dsimp only
  split
  · next i _ _ =>
    have := hE i
    generalize s.encodePlan i = p at this ⊢
    generalize State.encodePlan i _ = q at this ⊢
    cases this <;> rfl
  · next i _ _ =>
    have := hD i
    generalize s.decodePlan i = p at this ⊢
    generalize State.decodePlan i _ = q at this ⊢
    cases this <;> rfl
  · rfl

theorem hostByte_same (dir : Dir) (a : Nat) {go : State → State} (hgo : IgnoresSlots go) :
    SameOutcome (s.hostByte dir a go) (t.hostByte dir a go) := by
  have hb := busyByte_same h a
  have hgo' := h.map hgo
  have hodd := h.map protocolError_ignoresSlots
  obtain ⟨e, d, rfl, _⟩ := h.slots
  unfold State.hostByte
  rw [← hb]
  exact ite_same _ (.next hodd) <| ite_same _ (.fault _) <| ite_same _ (.fault _) <|
    ite_same _ (.fault _) (.next hgo')

theorem runCommand_same (w : Word) : SameOutcome (s.runCommand w) (t.runCommand w) := by
  unfold State.runCommand
  rw [h.phase]
  cases s.phase with
  | idle =>
    simp only [State.runStarted]
    cases decode w with
    | error e => exact .next ((h.start w).raise _)
    | ok i =>
      simp only [exec_eq]
      exact .next (afterCommand_same i (h.start w))
  | busy => exact .next (h.raise _)
  | faulted c => exact .next h

theorem poll_same (rest : List Input) : SameButUnread (s.poll rest) (t.poll rest) := by
  obtain hs | hs | ⟨c, hs⟩ := phase_cases s
  · rw [poll_idle rest s hs, poll_idle rest t (h.phase.trans hs)]
    exact h.readStatus.setPort rest
  · rw [poll_busy rest s hs, poll_busy rest t (h.phase.trans hs)]
    exact blockStep_same h.readStatus
  · rw [poll_faulted rest s c hs, poll_faulted rest t c (h.phase.trans hs)]
    exact h.readStatus.setPort (endProgram rest)

theorem applyReset_same : SameButUnread s.applyReset t.applyReset := by
  obtain ⟨e, d, rfl, he, hd⟩ := h.slots
  refine ⟨rfl, ?_, ?_⟩
  · simp only [State.applyReset_enc, ← he.length_eq]
    exact List.forall₂_same.2 fun x _ => EncAgree.refl x
  · simp only [State.applyReset_dec, ← hd.length_eq]
    exact List.forall₂_same.2 fun x _ => DecAgree.refl x

theorem serve_same (e : Input) : SameOutcome (s.serve e) (t.serve e) := by
  cases e with
  | write size offset v => exact .next (h.map (hostStore_ignoresSlots size offset v))
  | read size offset => exact .next (h.map (hostLoad_ignoresSlots size offset))
  | memWrite a v =>
    exact hostByte_same h .write a (go := fun s => { s with mem := s.mem.write a v })
      fun _ _ _ => rfl
  | memRead a =>
    exact hostByte_same h .read a (go := fun s => { s with readData := (s.mem.read a).setWidth 32 })
      fun _ _ _ => rfl
  | wait =>
    simp only [State.serve, h.port]
    exact .next (poll_same (h.setPort (.wait :: s.port)) s.port)
  | command w => exact runCommand_same h w
  | blockTurn => exact .next (blockStep_same h)
  | reset => exact .next (applyReset_same h)

theorem step_same : SameOutcome (step s) (step t) := by
  cases hp : s.port with
  | nil =>
    rw [step_empty s hp, step_empty t (h.port.trans hp)]
    exact .next (blockStep_same h)
  | cons e rest =>
    rw [step_event s e rest hp, step_event t e rest (h.port.trans hp)]
    exact serve_same (h.setPort rest) e

end Steps

/-- Settles O18: the two steps have the same outcome (`step_same`), and each clause of the statement reads
one constructor of `SameOutcome`. -/
theorem sampleRatesAreNeverRead : Obligations.SampleRatesAreNeverRead := by
  intro s t h
  have hst := step_same h
  generalize step s = p at hst ⊢
  generalize step t = q at hst ⊢
  cases hst with
  | next h =>
    refine ⟨fun u hu => ?_, nofun⟩
    cases hu
    exact ⟨_, rfl, h⟩
  | fault f =>
    refine ⟨nofun, fun f' hf => ?_⟩
    cases hf
    rfl

end Sys2Proof.Machine
end

section
/-! PROOF (10_state.md R23). A command starts by a 32-bit store to `CMD` in the phase `IDLE`, and by
nothing else. -/

namespace Sys2Proof.Machine

/-- The only event that leaves an idle block busy is a store to `CMD`. -/
theorem idle_step_busy (s t : State) (hi : s.phase = .idle) (h : step s = .next t)
    (hb : t.phase = .busy) : ∃ w rest, s.port = .write 4 0 w :: rest ∧ t.cmd = w := by
  have hne : s.phase ≠ .busy := by simp [hi]
  have not_busy : ∀ u : State, t = u → u.phase ≠ .busy → False := fun u hu hn => hn (hu ▸ hb)
  cases step_cases s t h with
  | quiet _ ht => exact (not_busy _ ht (by rwa [blockStep_still s hne])).elim
  | turn rest _ ht => exact (not_busy _ ht (by rwa [blockStep_still { s with port := rest } hne])).elim
  | store offset v rest hp _ ht =>
    by_cases hr : regAt offset = .cmd
    · obtain rfl := regAt_cmd offset hr
      refine ⟨v, rest, hp, ?_⟩
      rw [ht, hr, State.storeReg, storeCmd_idle v { s with port := rest } hi]
      rfl
    · refine (not_busy _ ht ?_).elim
      rw [storeReg_idle_phase _ v { s with port := rest } hi hr]
      nofun
  | load _ _ _ _ ht => exact (not_busy _ ht hne).elim
  | odd _ rest _ _ _ _ ht =>
    refine (not_busy _ ht ?_).elim
    rw [protocolError_notFaulted { s with port := rest } (notFaulted_of_idle s hi)]
    nofun
  | memWrite _ _ _ _ _ _ ht => exact (not_busy _ ht hne).elim
  | memRead _ _ _ _ ht => exact (not_busy _ ht hne).elim
  | waitIdle _ _ _ ht => exact (not_busy _ ht hne).elim
  | waitBusy _ _ hs _ => exact absurd hs hne
  | waitFaulted c _ _ hs _ => exact absurd hs (notFaulted_of_idle s hi c)
  | illegal _ _ _ _ _ _ ht => exact (not_busy _ ht nofun).elim
  | command _ i _ _ _ _ ht => exact (not_busy _ ht (afterCommand_not_busy i _)).elim
  | commandBusy _ _ _ hs _ => exact absurd hs hne
  | commandFaulted _ c _ _ hs _ => exact absurd hs (notFaulted_of_idle s hi c)
  | reset _ _ ht => exact (not_busy _ ht nofun).elim

/-- Settles O7, from the equations of a store to `CMD` and the inversion of a step. -/
theorem onlyACmdStoreStartsACommand : Obligations.OnlyACmdStoreStartsACommand := by
  refine ⟨fun s w rest hp => ?_, fun s t hi h hb => idle_step_busy s t hi h hb⟩
  rw [step_store s 0 w rest hp rfl]
  refine ⟨fun hi => ?_, fun hb => ?_, fun c hc => ?_⟩
  · exact congrArg _ (storeCmd_idle w { s with port := rest } hi)
  · exact congrArg _ (storeCmd_busy w { s with port := rest } hb)
  · exact congrArg _ (storeReg_faulted .cmd w { s with port := rest } c hc)

end Sys2Proof.Machine
end

section
/-! PROOF (10_state.md R32). A live slot is changed by its own destroy alone. A transform writes no slot,
a create writes a slot that is free, a destroy writes the slot its handle names, and no host access
writes any. -/

namespace Sys2Proof.Machine

/-- Every live slot is the same live slot in the new list, or `released` holds of its handle and it
differs in `live` alone. -/
def LiveKept {τ : Type} (slots slots' : List (Slot τ)) (released : Nat → Prop) : Prop :=
  ∀ h x, LiveAt slots h x →
    LiveAt slots' h x ∨ (slotOf slots' h = some { x with live := false } ∧ released h)

/-- Both units keep their live slots, but for those that a destroy of which `runs` holds releases. -/
def SlotsKept (s t : State) (runs : Instr → Prop) : Prop :=
  LiveKept s.enc t.enc (fun h => runs (.encDestroy h)) ∧
    LiveKept s.dec t.dec (fun h => runs (.decDestroy h))

theorem LiveKept.refl {τ : Type} (slots : List (Slot τ)) (released : Nat → Prop) :
    LiveKept slots slots released := fun _ _ hx => .inl hx

theorem SlotsKept.of_eq {s t : State} (runs : Instr → Prop) (he : t.enc = s.enc)
    (hd : t.dec = s.dec) : SlotsKept s t runs := by
  unfold SlotsKept
  rw [he, hd]
  exact ⟨.refl _ _, .refl _ _⟩

theorem LiveKept.mono {τ : Type} {slots slots' : List (Slot τ)} {P Q : Nat → Prop}
    (h : LiveKept slots slots' P) (hPQ : ∀ a, P a → Q a) : LiveKept slots slots' Q :=
  fun a x hx => (h a x hx).imp_right fun ⟨hs, hp⟩ => ⟨hs, hPQ a hp⟩

theorem SlotsKept.mono {s t : State} {P Q : Instr → Prop} (h : SlotsKept s t P)
    (hPQ : ∀ i, P i → Q i) : SlotsKept s t Q :=
  ⟨h.1.mono fun _ => hPQ _, h.2.mono fun _ => hPQ _⟩

/-- Writing another position leaves a slot where it is. -/
theorem LiveAt.set_ne {τ : Type} {slots : List (Slot τ)} {h : Nat} {x : Slot τ}
    (hx : LiveAt slots h x) (y : Slot τ) (i : Nat) (hne : i + 1 ≠ h) : LiveAt (slots.set i y) h x := by
  obtain ⟨hs, hl⟩ := hx
  refine ⟨?_, hl⟩
  cases h with
  | zero => simp at hs
  | succ j => rwa [slotOf_succ, List.getElem?_set_ne (by omega)]

/-- A create writes the lowest free slot, which no live handle names. -/
theorem liveKept_create {τ : Type} (slots : List (Slot τ)) (i : Nat) (y : Slot τ)
    (hi : firstFree slots = some i) (released : Nat → Prop) :
    LiveKept slots (slots.set i y) released := by
  intro h x hx
  refine .inl (hx.set_ne y i ?_)
  rintro rfl
  obtain ⟨⟨z, hz, hf⟩, _⟩ := lowest_of_firstFree slots i hi
  obtain ⟨hs, hl⟩ := hx
  rw [hz] at hs
  cases hs
  rw [hf] at hl
  cases hl

/-- A destroy writes the slot of its own handle. -/
theorem liveKept_release {τ : Type} (slots : List (Slot τ)) (a : Nat) (y : Slot τ)
    (hy : LiveAt slots a y) : LiveKept slots (release slots a) (a = ·) := by
  intro h x hx
  obtain ⟨hs, _⟩ := hy
  rw [release_eq_set slots a y hs]
  cases a with
  | zero => simp at hs
  | succ i =>
    by_cases hih : i + 1 = h
    · subst hih
      obtain rfl : y = x := Option.some.inj (hs.symm.trans hx.1)
      have hlt : i < slots.length := (List.getElem?_eq_some_iff.1 hs).1
      exact .inr ⟨by simp [hlt], rfl⟩
    · exact .inl (hx.set_ne _ i hih)

theorem encCreate_slotsKept (s : State) (runs : Instr → Prop) : SlotsKept s s.encCreate runs := by
  unfold State.encCreate
  split
  · exact .of_eq runs rfl rfl
  · next i hi =>
    split
    · exact .of_eq runs s.afterDraw_enc s.afterDraw_dec
    · exact ⟨liveKept_create s.enc i _ hi _, s.afterDraw_dec.symm ▸ .refl _ _⟩

theorem decCreate_slotsKept (s : State) (runs : Instr → Prop) : SlotsKept s s.decCreate runs := by
  unfold State.decCreate
  split
  · exact .of_eq runs rfl rfl
  · next i hi =>
    split
    · exact .of_eq runs s.afterDraw_enc s.afterDraw_dec
    · exact ⟨s.afterDraw_enc.symm ▸ .refl _ _, liveKept_create s.dec i _ hi _⟩

theorem encDestroy_slotsKept (a : Nat) (s : State) :
    SlotsKept s (s.encDestroy a) (Instr.encDestroy a = ·) := by
  unfold State.encDestroy
  split
  · exact .of_eq _ rfl rfl
  · exact .of_eq _ rfl rfl
  · next y hy =>
    have hk := liveKept_release s.enc a y ((nameOf_live_iff _ _ _).1 hy)
    exact ⟨hk.mono fun _ => congrArg Instr.encDestroy, .refl _ _⟩

theorem decDestroy_slotsKept (a : Nat) (s : State) :
    SlotsKept s (s.decDestroy a) (Instr.decDestroy a = ·) := by
  unfold State.decDestroy
  split
  · exact .of_eq _ rfl rfl
  · exact .of_eq _ rfl rfl
  · next y hy =>
    have hk := liveKept_release s.dec a y ((nameOf_live_iff _ _ _).1 hy)
    exact ⟨.refl _ _, hk.mono fun _ => congrArg Instr.decDestroy⟩

theorem PlanFrame.slotsKept {s t : State} (h : PlanFrame s t) (runs : Instr → Prop) :
    SlotsKept s t runs := by
  unfold PlanFrame at h
  exact .of_eq runs (by rw [h]) (by rw [h])

theorem afterCommand_slotsKept (i : Instr) (s : State) : SlotsKept s (afterCommand i s) (i = ·) := by
  cases i with
  | encCreate => exact encCreate_slotsKept s _
  | encEncode h => exact (runPlan_frame encodeElement encodeElement_frame _ s).slotsKept _
  | encDestroy h => exact encDestroy_slotsKept h s
  | decCreate => exact decCreate_slotsKept s _
  | decDecode h => exact (runPlan_frame decodeElement decodeElement_frame _ s).slotsKept _
  | decDestroy h => exact decDestroy_slotsKept h s

theorem commandStep_slotsKept (i : Instr) (s : State) : SlotsKept s (commandStep i s) (i = ·) := by
  cases i with
  | encCreate => exact encCreate_slotsKept s _
  | encEncode h => exact (stepPlan_frame encodeElement encodeElement_frame _ s).slotsKept _
  | encDestroy h => exact encDestroy_slotsKept h s
  | decCreate => exact decCreate_slotsKept s _
  | decDecode h => exact (stepPlan_frame decodeElement decodeElement_frame _ s).slotsKept _
  | decDestroy h => exact decDestroy_slotsKept h s

/-- A block step releases a slot only where the block is busy with that slot's destroy. The state `u` it
starts from differs from `s` in neither the slots nor the command in flight. -/
theorem blockStep_slotsKept (s u : State) (he : u.enc = s.enc) (hd : u.dec = s.dec)
    (hp : u.phase = s.phase) (hl : u.lcmd = s.lcmd) : SlotsKept s u.blockStep (RunsNow · s) := by
  rcases blockStep_cases u with ⟨_, h⟩ | ⟨_, _, h⟩ | ⟨i, hb, hi, h⟩
  · rw [h]; exact .of_eq _ he hd
  · rw [h]; exact .of_eq _ he hd
  · rw [h]
    have hruns : RunsNow i s := .inr ⟨hp ▸ hb, hl ▸ hi⟩
    have hk := (commandStep_slotsKept i u).mono (Q := (RunsNow · s)) fun _ h => h ▸ hruns
    unfold SlotsKept at hk ⊢
    rwa [he, hd] at hk

/-- Every step but a reset keeps the live slots, but for the one whose destroy it runs. -/
theorem step_slotsKept (s t : State) (h : step s = .next t) (hr : s.port.head? ≠ some .reset) :
    SlotsKept s t (RunsNow · s) := by
  cases step_cases s t h with
  | quiet _ ht => subst ht; exact blockStep_slotsKept s s rfl rfl rfl rfl
  | turn rest _ ht =>
    subst ht; exact blockStep_slotsKept s { s with port := rest } rfl rfl rfl rfl
  | store offset v rest _ _ ht =>
    have hg := storeReg_ignoresSlots (regAt offset) v
    subst ht; exact .of_eq _ (hg.enc { s with port := rest }) (hg.dec { s with port := rest })
  | load _ _ _ _ ht => subst ht; exact .of_eq _ rfl rfl
  | odd _ rest _ _ _ _ ht =>
    have hg := protocolError_ignoresSlots
    subst ht; exact .of_eq _ (hg.enc { s with port := rest }) (hg.dec { s with port := rest })
  | memWrite _ _ _ _ _ _ ht => subst ht; exact .of_eq _ rfl rfl
  | memRead _ _ _ _ ht => subst ht; exact .of_eq _ rfl rfl
  | waitIdle _ _ _ ht => subst ht; exact .of_eq _ rfl rfl
  | waitBusy _ _ _ ht =>
    subst ht; exact blockStep_slotsKept s { s with readData := s.status } rfl rfl rfl rfl
  | waitFaulted _ _ _ _ ht => subst ht; exact .of_eq _ rfl rfl
  | illegal _ _ _ _ _ _ ht => subst ht; exact .of_eq _ rfl rfl
  | command w i rest hp hs hd ht =>
    subst ht
    have hruns : RunsNow i s := .inl ⟨w, by rw [hp]; rfl, hs, hd⟩
    exact (afterCommand_slotsKept i (State.start w { s with port := rest })).mono
      (Q := (RunsNow · s)) fun _ hi => hi ▸ hruns
  | commandBusy _ _ _ _ ht => subst ht; exact .of_eq _ rfl rfl
  | commandFaulted _ _ _ _ _ ht => subst ht; exact .of_eq _ rfl rfl
  | reset rest hp _ => exact absurd (by rw [hp]; rfl) hr

/-- Settles O14: `step_slotsKept`, unit by unit. -/
theorem liveInstancesAreImmutable : Obligations.LiveInstancesAreImmutable := by
  intro s t h hst hr
  obtain ⟨he, hd⟩ := step_slotsKept s t hst hr
  exact ⟨he h, hd h⟩

end Sys2Proof.Machine
end

section
/-! PROOF (10_state.md R21, 42_encoder.md R166, 41_decoder.md R133). One block step of a transform in
flight is one element, or its end: the plan of a transform whose checks pass is its loop, and a step of a
loop is its element `K` while `K` is below the count. -/

namespace Sys2Proof.Machine

/-- A step in which the block carries on the command it is busy with. -/
theorem step_command (s : State) (i : Instr) (hm : BlockMovesNext s) (hb : s.phase = .busy)
    (hd : decode s.lcmd = .ok i) :
    step s = .next (commandStep i { s with port := s.port.tail }) := by
  rw [step_block s hm, blockStep_busy { s with port := s.port.tail } i hb hd]

/-- An element of a decode with a refused access: `BUS_ERROR`, after the first output byte where that
was admitted (60_exceptions.md R203). -/
theorem decodeElement_not_admitted (slot : DecSlot) (s : State) (h : ¬ DecodeElementAdmitted s s.k) :
    decodeElement slot s = .stopped (State.raise .busError { s with
      mem :=
        if s.params.admits (s.inAddress + s.k) .read = true ∧
            s.params.admits (s.outAddress + 2 * s.k) .write = true then
          s.mem.write (s.outAddress + 2 * s.k) (lowerByte s.params.sampleEndian
            (expansionOf slot.table (codeRead s s.mem s.k)))
        else s.mem }) := by
  split
  · next hr =>
    obtain ⟨h0, h1⟩ := hr
    exact decodeElement_half slot s h0 h1 fun h2 => h ⟨h0, h1, h2⟩
  · next hr => exact decodeElement_refused slot s hr

/-- Settles O32: the loop of the plan (`encodePlan_loop`, `decodePlan_loop`), its step at an element and
at its end (`stepPlan_element`, `stepPlan_end`), and what an element does. -/
theorem oneElementIsOneBlockStep : Obligations.OneElementIsOneBlockStep := by
  refine ⟨fun s h x hm hb hd hx hg hfit => ?_, fun s h x hm hb hd hx hg hn hin hout => ?_⟩
  · have hp : State.encodePlan h { s with port := s.port.tail } = _ :=
      encodePlan_loop s h x hx hg (hfit.imp_right And.left) (hfit.imp_right And.right)
    rw [step_command s _ hm hb hd, commandStep, hp]
    refine ⟨fun hk ha => ?_, fun hk ha => ?_, fun hk => ?_⟩
    · rw [stepPlan_element _ _ _ _ { s with port := s.port.tail } hk,
        encodeElement_admitted _ { s with port := s.port.tail, n := encodeCount s } ha]; rfl
    · rw [stepPlan_element _ _ _ _ { s with port := s.port.tail } hk,
        encodeElement_refused _ { s with port := s.port.tail, n := encodeCount s } ha]; rfl
    · rw [stepPlan_end _ _ _ _ { s with port := s.port.tail } hk.ge]
  · have hp : State.decodePlan h { s with port := s.port.tail } = _ :=
      decodePlan_loop s h x hx hg hn hin hout
    rw [step_command s _ hm hb hd, commandStep, hp]
    refine ⟨fun hk ha => ?_, fun hk ha => ?_, fun hk => ?_⟩
    · rw [stepPlan_element _ _ _ _ { s with port := s.port.tail } hk,
        decodeElement_admitted _ { s with port := s.port.tail, n := decodeCount x s } ha]; rfl
    · rw [stepPlan_element _ _ _ _ { s with port := s.port.tail } hk,
        decodeElement_not_admitted _ { s with port := s.port.tail, n := decodeCount x s } ha]; rfl
    · rw [stepPlan_end _ _ _ _ { s with port := s.port.tail } hk.ge]

end Sys2Proof.Machine
end

section
/-! PROOF (10_state.md R26). `STATUS` is a function of the phase: its word in each phase, and from that
its fields; a step that keeps the phase keeps it. -/

namespace Sys2Proof.Machine

theorem status_idle (s : State) (h : s.phase = .idle) : s.status = 0 := by
  simp only [State.status, State.busyFlag, State.faultFlag, State.causeField, h]
  rfl

theorem status_busy (s : State) (h : s.phase = .busy) : s.status = 1 := by
  simp only [State.status, State.busyFlag, State.faultFlag, State.causeField, h]
  rfl

theorem status_faulted (s : State) (c : Cause) (h : s.phase = .faulted c) :
    s.status = (0 : BitVec 24) ++ c.code ++ (0b0010 : BitVec 4) := by
  simp only [State.status, State.busyFlag, State.faultFlag, State.causeField, h]
  cases c <;> rfl

theorem status_eq_of_phase {s t : State} (h : t.phase = s.phase) : t.status = s.status := by
  simp only [State.status, State.busyFlag, State.faultFlag, State.causeField, h]

/-- `STATUS.FAULT` is set in the phase `FAULTED` only. -/
theorem faulted_of_status (s : State) (h : s.status.getLsbD 1 = true) : ∃ c, s.phase = .faulted c := by
  obtain hs | hs | hs := phase_cases s
  · rw [status_idle s hs] at h; cases h
  · rw [status_busy s hs] at h; cases h
  · exact hs

/-- Settles O50: the fields phase by phase, the equation of a store to `STATUS`, and that only reset
leaves the fault state (`step_keeps_fault`). -/
theorem statusFields : Obligations.StatusFields := by
  refine ⟨fun s => ?_, fun s v rest hp => ?_, fun s t h hr hf => ?_⟩
  · obtain hs | hs | ⟨c, hs⟩ := phase_cases s
    · rw [status_idle s hs, hs]
      exact ⟨iff_of_false (by decide) nofun, iff_of_false (by decide) nofun, rfl, rfl, by decide, rfl⟩
    · rw [status_busy s hs, hs]
      exact ⟨iff_of_true (by decide) rfl, iff_of_false (by decide) nofun, rfl, rfl, by decide, rfl⟩
    · rw [status_faulted s c hs, hs]
      cases c <;> exact ⟨iff_of_false (by decide) nofun, iff_of_true (by decide) ⟨_, rfl⟩, rfl, rfl,
        by decide, rfl⟩
  · exact step_store s 0x14 v rest hp rfl
  · obtain ⟨c, hc⟩ := faulted_of_status s hf
    exact status_eq_of_phase ((step_keeps_fault s t c h hr hc).trans hc.symm)

end Sys2Proof.Machine
end

section
/-! PROOF (10_state.md R22, R24, R25, R27-R29). The registers of the window: loads by the map, stores to
the `ARG` registers by the phase, the reserved offsets, and accesses the window does not allow. -/

namespace Sys2Proof.Machine

/-- Settles O53: the store to an `ARG` register by phase, and the frame of a command, which names neither
a register of the host nor a latch. -/
theorem argRegistersBelongToTheHost : Obligations.ArgRegistersBelongToTheHost := by
  refine ⟨fun s v rest hi => ⟨?_, ?_, ?_⟩, fun s v rest offset ho => ?_, fun s v rest => ?_,
    fun i s t h => ?_⟩
  · exact (step_store _ 0x04 v rest rfl rfl).trans
      (congrArg _ (storeReg_arg0_idle v { s with port := rest } hi))
  · exact (step_store _ 0x08 v rest rfl rfl).trans
      (congrArg _ (storeReg_arg1_idle v { s with port := rest } hi))
  · exact (step_store _ 0x0C v rest rfl rfl).trans
      (congrArg _ (storeReg_arg2_idle v { s with port := rest } hi))
  · obtain ⟨ha, hr⟩ := regAt_arg offset ho
    have hstep := step_store { s with port := .write 4 offset v :: rest } offset v rest rfl ha
    exact ⟨fun hb => hstep.trans (congrArg _ (storeReg_arg_busy _ v { s with port := rest } hb hr)),
      fun c hc => hstep.trans (congrArg _ (storeReg_faulted _ v { s with port := rest } c hc))⟩
  · exact step_store _ 0x10 v rest rfl rfl
  · have hf := afterCommand_frame i s
    rw [← (exec_next_iff i s t).1 h] at hf
    unfold CommandFrame at hf
    rw [hf]
    exact ⟨rfl, rfl, rfl, rfl, rfl, rfl, rfl, rfl⟩

/-- Settles O51: the register at such an offset is `reserved`, which loads 0 and ignores a store. -/
theorem reservedOffsetsReadAsZero : Obligations.ReservedOffsetsReadAsZero := by
  intro s offset v rest hlo ho
  have hr := regAt_reserved offset hlo
  refine ⟨(step_load _ offset rest rfl ho).trans ?_, (step_store _ offset v rest rfl ho).trans ?_⟩
  · rw [hr]; rfl
  · rw [hr]; rfl

/-- Settles O52: `step_load` at the six offsets of the map. -/
theorem registerLoadsFollowTheMap : Obligations.RegisterLoadsFollowTheMap := fun _ rest =>
  ⟨step_load _ 0x00 rest rfl rfl, step_load _ 0x04 rest rfl rfl, step_load _ 0x08 rest rfl rfl,
    step_load _ 0x0C rest rfl rfl, step_load _ 0x10 rest rfl rfl, step_load _ 0x14 rest rfl rfl⟩

/-- Settles O55: such an access is a protocol error, which raises the fault where none is recorded. -/
theorem oddRegisterAccessesFault : Obligations.OddRegisterAccessesFault := by
  intro s size offset v rest hg
  have hload : step { s with port := .read size offset :: rest } =
      .next (State.protocolError { s with port := rest }) := step_oddLoad _ size offset rest rfl hg
  have hstore : step { s with port := .write size offset v :: rest } =
      .next (State.protocolError { s with port := rest }) :=
    step_oddStore _ size offset v rest rfl hg
  rw [hload, hstore]
  refine ⟨fun hn => ?_, fun c hc => ?_⟩
  · rw [protocolError_notFaulted { s with port := rest } hn]
    exact ⟨rfl, rfl⟩
  · rw [protocolError_faulted { s with port := rest } c hc]
    exact ⟨rfl, rfl⟩

end Sys2Proof.Machine
end

section
/-! PROOF (10_state.md R37, 00_scope.md R7). The state after reset. -/

namespace Sys2Proof.Machine

/-- After reset every slot of a unit is free, however many there are. -/
theorem replicate_free_live {τ : Type} (n : Nat) (blank : τ) :
    ∀ x ∈ List.replicate n (Slot.free blank), x.live = false := by
  intro x hx
  rw [List.eq_of_mem_replicate hx]
  rfl

theorem afterReset_enc_live (p : Params) (ne nd : Nat) :
    ∀ x ∈ (State.afterReset p ne nd).enc, x.live = false := replicate_free_live ne _

theorem afterReset_dec_live (p : Params) (ne nd : Nat) :
    ∀ x ∈ (State.afterReset p ne nd).dec, x.live = false := replicate_free_live nd _

/-- Settles O56, by the fields of `State.afterReset`. -/
theorem resetStateIsAsTheSpecSays : Obligations.ResetStateIsAsTheSpecSays := by
  refine ⟨fun p ne nd => ?_, rfl, rfl, rfl, rfl⟩
  exact ⟨rfl, rfl, rfl, rfl, rfl, rfl, status_idle _ rfl, List.length_replicate,
    List.length_replicate, afterReset_enc_live p ne nd, afterReset_dec_live p ne nd⟩

/-- No slot is live after reset, so the tables are right whatever the free slots hold. -/
theorem afterReset_tables (p : Params) (ne nd : Nat) : TablesInv (State.afterReset p ne nd) := by
  refine ⟨fun x hx hl => ?_, fun x hx hl => ?_⟩
  · rw [afterReset_enc_live p ne nd x hx] at hl; cases hl
  · rw [afterReset_dec_live p ne nd x hx] at hl; cases hl

/-- Settles O10: memory is empty, no slot is live, the counters are 0 and the parameters are the
defaults of 00_scope.md R7. -/
theorem resetSatisfiesTheInvariant : Obligations.ResetSatisfiesTheInvariant where
  memory := ⟨State.reset_mem_wf, rfl⟩
  tables := afterReset_tables _ _ _
  counters := ⟨Nat.two_pow_pos 32, Nat.two_pow_pos 32⟩
  params := ⟨rfl, rfl, rfl⟩

end Sys2Proof.Machine
end

section
/-! SUPPORT. What every element of a transform does, whichever of the two it is: the facts that a proof
about the element loop needs of its element (10_state.md R21, 20_memory.md R55). -/

namespace Sys2Proof.Machine

/-- An element that goes on counts itself in `K`. -/
theorem encodeElement_running_k (slot : EncSlot) (s t : State)
    (h : encodeElement slot s = .running t) : t.k = s.k + 1 := by
  by_cases ha : EncodeElementAdmitted s s.k
  · rw [encodeElement_admitted slot s ha] at h; cases h; rfl
  · rw [encodeElement_refused slot s ha] at h; cases h

/-- An element that goes on counts itself in `K`. -/
theorem decodeElement_running_k (slot : DecSlot) (s t : State)
    (h : decodeElement slot s = .running t) : t.k = s.k + 1 := by
  by_cases ha : DecodeElementAdmitted s s.k
  · rw [decodeElement_admitted slot s ha] at h; cases h; rfl
  · rw [decodeElement_not_admitted slot s ha] at h; cases h

/-- The element of a transform: it changes memory, `K` and the phase alone; one that goes on counts
itself in `K` and leaves the phase. -/
structure IsElement {τ : Type} (e : Slot τ → State → Progress) : Prop where
  frame : ∀ slot s, ElementFrame s (e slot s).state
  running_k : ∀ slot s t, e slot s = .running t → t.k = s.k + 1
  running_phase : ∀ slot s t, e slot s = .running t → t.phase = s.phase

theorem encodeElement_isElement : IsElement encodeElement :=
  ⟨encodeElement_frame, encodeElement_running_k, encodeElement_running_phase⟩

theorem decodeElement_isElement : IsElement decodeElement :=
  ⟨decodeElement_frame, decodeElement_running_k, decodeElement_running_phase⟩

end Sys2Proof.Machine
end

section
/-! PROOF (20_memory.md R50, R57, 10_state.md R21, 41_decoder.md R130, 42_encoder.md R160). Every step
keeps the invariant. A create makes a slot live together with its table and a destroy makes one free. The
loop of a transform has an invariant of its own, `InLoop`: `K` is at most the count and the output buffer
lies in the address space, so the bytes that element `K` writes exist. It holds of a loop that runs as one
step and of one that runs element by element. -/

namespace Sys2Proof.Machine

theorem SameBlock.paramsInv {s t : State} (h : SameBlock s t) (hs : ParamsInv s) : ParamsInv t := by
  obtain ⟨hp, he, hd⟩ := h
  unfold ParamsInv
  rwa [hp, he, hd]

/-! ## Tables -/

/-- Every live slot of a unit holds its table. -/
def LiveSlotsHold {τ : Type} (table : τ) (slots : List (Slot τ)) : Prop :=
  ∀ x ∈ slots, x.live = true → x.table = table

theorem LiveSlotsHold.set {τ : Type} {table : τ} {slots : List (Slot τ)}
    (h : LiveSlotsHold table slots) (i : Nat) (y : Slot τ) (hy : y.live = true → y.table = table) :
    LiveSlotsHold table (slots.set i y) := by
  intro x hx
  rcases List.mem_or_eq_of_mem_set hx with hx | rfl
  · exact h x hx
  · exact hy

theorem LiveSlotsHold.release {τ : Type} {table : τ} {slots : List (Slot τ)}
    (h : LiveSlotsHold table slots) (a : Nat) (y : Slot τ) (hy : nameOf slots a = .live y) :
    LiveSlotsHold table (release slots a) := by
  obtain ⟨hs, _⟩ := (nameOf_live_iff _ _ _).1 hy
  rw [release_eq_set slots a y hs]
  exact h.set _ _ nofun

theorem encCreate_tables (s : State) (h : TablesInv s) : TablesInv s.encCreate := by
  obtain ⟨he, hd⟩ := h
  refine ⟨?_, s.encCreate_frame.2.symm ▸ hd⟩
  unfold State.encCreate
  split
  · exact he
  · split
    · exact s.afterDraw_enc.symm ▸ he
    · exact LiveSlotsHold.set he _ _ fun _ => rfl

theorem decCreate_tables (s : State) (h : TablesInv s) : TablesInv s.decCreate := by
  obtain ⟨he, hd⟩ := h
  refine ⟨s.decCreate_frame.2.symm ▸ he, ?_⟩
  unfold State.decCreate
  split
  · exact hd
  · split
    · exact s.afterDraw_dec.symm ▸ hd
    · exact LiveSlotsHold.set hd _ _ fun _ => rfl

theorem encDestroy_tables (a : Nat) (s : State) (h : TablesInv s) : TablesInv (s.encDestroy a) := by
  obtain ⟨he, hd⟩ := h
  unfold State.encDestroy
  split
  · exact ⟨he, hd⟩
  · exact ⟨he, hd⟩
  · next y hy => exact ⟨LiveSlotsHold.release he a y hy, hd⟩

theorem decDestroy_tables (a : Nat) (s : State) (h : TablesInv s) : TablesInv (s.decDestroy a) := by
  obtain ⟨he, hd⟩ := h
  unfold State.decDestroy
  split
  · exact ⟨he, hd⟩
  · exact ⟨he, hd⟩
  · next y hy => exact ⟨he, LiveSlotsHold.release hd a y hy⟩

/-! ## The loop of a transform -/

/-- A store of a byte that exists. -/
theorem MemoryInv.write {s : State} (h : MemoryInv s) (a : Nat) (v : Byte)
    (ha : a < s.params.memorySize) : MemoryInv { s with mem := s.mem.write a v } := by
  obtain ⟨hw, hin⟩ := h
  exact ⟨Memory.write_wf _ a v hw, Memory.write_within _ _ a v ha hin⟩

/-- The invariant of a transform's loop of `m` elements that write `width` bytes each. -/
structure InLoop (width m : Nat) (s : State) : Prop where
  memory : MemoryInv s
  k_le : s.k ≤ m
  n_eq : s.n = m
  fits : m = 0 ∨ BufferFits s s.outAddress (width * m)

/-- The output bytes of an element below the count exist. -/
theorem InLoop.out_lt {width m : Nat} {s : State} (h : InLoop width m s) (hk : s.k < m) (j : Nat)
    (hj : j < width) : s.outAddress + width * s.k + j < s.params.memorySize := by
  have hfit : s.outAddress + width * m ≤ s.params.memorySize := h.fits.resolve_left (by omega)
  have hmul : width * (s.k + 1) ≤ width * m := Nat.mul_le_mul_left width hk
  rw [Nat.mul_succ] at hmul
  omega

theorem encodeElement_inLoop (slot : EncSlot) (m : Nat) (s : State) (h : InLoop 1 m s)
    (hk : s.k < m) : InLoop 1 m (encodeElement slot s).state := by
  have hout : s.outAddress + s.k < s.params.memorySize := by
    simpa using h.out_lt hk 0 (by decide)
  by_cases ha : EncodeElementAdmitted s s.k
  · rw [encodeElement_admitted slot s ha]
    exact ⟨h.memory.write _ _ hout, hk, h.n_eq, h.fits⟩
  · rw [encodeElement_refused slot s ha]
    exact ⟨h.memory, h.k_le, h.n_eq, h.fits⟩

theorem decodeElement_inLoop (slot : DecSlot) (m : Nat) (s : State) (h : InLoop 2 m s)
    (hk : s.k < m) : InLoop 2 m (decodeElement slot s).state := by
  have hfirst (v : Byte) := h.memory.write _ v (h.out_lt hk 0 (by decide))
  by_cases ha : DecodeElementAdmitted s s.k
  · rw [decodeElement_admitted slot s ha]
    exact ⟨(hfirst _).write _ _ (h.out_lt hk 1 (by decide)), hk, h.n_eq, h.fits⟩
  · rw [decodeElement_not_admitted slot s ha]
    refine ⟨?_, h.k_le, h.n_eq, h.fits⟩
    show MemoryInv { s with mem := _ }
    split
    · exact hfirst _
    · exact h.memory

/-- A transform keeps the slots, so its state satisfies the invariant with memory and the counters. -/
theorem PlanFrame.inv {s t : State} (h : PlanFrame s t) (hs : s.Inv) (hm : MemoryInv t)
    (hc : CountersInv t) : t.Inv where
  memory := hm
  tables := by
    unfold PlanFrame at h
    rw [h]
    exact hs.tables
  counters := hc
  params := h.sameBlock.paramsInv hs.params

theorem PlanFrame.inv_of_inLoop {s t : State} (h : PlanFrame s t) (hs : s.Inv) {width m : Nat}
    (ht : InLoop width m t) (hm : m < 2 ^ 32) : t.Inv :=
  h.inv hs ht.memory ⟨ht.k_le.trans_lt hm, ht.n_eq.trans_lt hm⟩

/-- The end of the loop writes `RESULT` and the phase, of which `InLoop` says nothing. -/
theorem InLoop.finish {width m : Nat} {p : Progress} (h : InLoop width m p.state) (r : Word) :
    InLoop width m (p.finish r) := by
  cases p with
  | running t => exact ⟨h.memory, h.k_le, h.n_eq, h.fits⟩
  | stopped t => exact h

/-- The plan's loop, if it is one, has a 32-bit count and an output buffer in the address space. -/
def LoopFits {τ : Type} (width : Nat) (p : Plan τ) (s : State) : Prop :=
  ∀ slot m r, p = .loop slot m r → m < 2 ^ 32 ∧ (m = 0 ∨ BufferFits s s.outAddress (width * m))

theorem encodePlan_loopFits (h : Nat) (s : State) : LoopFits 1 (s.encodePlan h) s := by
  intro slot m r hp
  obtain ⟨_, _, hm, _, hfit⟩ := encodePlan_loop_inv s h slot m r hp
  have hle := encodeCount_le s
  rw [Nat.one_mul]
  exact ⟨by omega, hfit.imp_right And.right⟩

theorem decodePlan_loopFits (h : Nat) (s : State) : LoopFits 2 (s.decodePlan h) s := by
  intro slot m r hp
  obtain ⟨_, _, _, _, hle, hfit⟩ := decodePlan_loop_inv s h slot m r hp
  exact ⟨by omega, hfit.imp_right And.right⟩

section Loops

variable {τ : Type} {e : Slot τ → State → Progress} (he : IsElement e) {width : Nat}
  (hloop : ∀ slot m s, InLoop width m s → s.k < m → InLoop width m (e slot s).state)
include he hloop

theorem runElements_inLoop (slot : Slot τ) (m i : Nat) (s : State) (h : InLoop width m s)
    (hi : s.k + i ≤ m) : InLoop width m (runElements (e slot) i s).state := by
  induction i generalizing s with
  | zero => exact h
  | succ i ih =>
    have hs := hloop slot m s h (by omega)
    rw [runElements]
    cases hr : e slot s with
    | stopped t => rw [hr] at hs; exact hs
    | running t =>
      rw [hr] at hs
      have hk := he.running_k slot s t hr
      exact ih t hs (by omega)

theorem runPlan_inv (p : Plan τ) (s : State) (hs : s.Inv) (hp : LoopFits width p s) :
    (runPlan e p s).Inv := by
  have hf := runPlan_frame e he.frame p s
  cases p with
  | fault c => exact hf.inv hs hs.memory hs.counters
  | done r => exact hf.inv hs hs.memory hs.counters
  | loop slot m r =>
    obtain ⟨hm, hfit⟩ := hp slot m r rfl
    have h0 : InLoop width m { s with n := m, k := 0 } := ⟨hs.memory, Nat.zero_le m, rfl, hfit⟩
    have hend := runElements_inLoop he hloop slot m m _ h0 (Nat.zero_add m).le
    exact hf.inv_of_inLoop hs (hend.finish r) hm

theorem stepPlan_inv (p : Plan τ) (s : State) (hs : s.Inv) (hp : LoopFits width p s) :
    (stepPlan e p s).Inv := by
  have hf := stepPlan_frame e he.frame p s
  cases p with
  | fault c => exact hf.inv hs hs.memory hs.counters
  | done r => exact hf.inv hs hs.memory hs.counters
  | loop slot m r =>
    obtain ⟨hm, hfit⟩ := hp slot m r rfl
    by_cases hk : s.k < m
    · have h0 : InLoop width m { s with n := m } := ⟨hs.memory, hk.le, rfl, hfit⟩
      rw [stepPlan_element e slot m r s hk] at hf ⊢
      exact hf.inv_of_inLoop hs (hloop slot m _ h0 hk) hm
    · rw [stepPlan_end e slot m r s (Nat.not_lt.1 hk)] at hf ⊢
      exact hf.inv hs hs.memory ⟨hs.counters.1, hm⟩

end Loops

/-! ## Commands and host accesses -/

/-- A create or a destroy changes neither memory nor the counters. -/
theorem CreateFrame.inv {s t : State} (h : CreateFrame s t) (hb : SameBlock s t)
    (ht : TablesInv t) (hs : s.Inv) : t.Inv := by
  have hparams := hb.paramsInv hs.params
  unfold CreateFrame at h
  exact ⟨by rw [h]; exact hs.memory, ht, by rw [h]; exact hs.counters, hparams⟩

theorem encCreate_inv (s : State) (hs : s.Inv) : s.encCreate.Inv :=
  s.encCreate_frame.1.inv s.encCreate_sameBlock (encCreate_tables s hs.tables) hs

theorem decCreate_inv (s : State) (hs : s.Inv) : s.decCreate.Inv :=
  s.decCreate_frame.1.inv s.decCreate_sameBlock (decCreate_tables s hs.tables) hs

theorem encDestroy_inv (a : Nat) (s : State) (hs : s.Inv) : (s.encDestroy a).Inv :=
  (s.encDestroy_frame a).1.inv (s.encDestroy_sameBlock a) (encDestroy_tables a s hs.tables) hs

theorem decDestroy_inv (a : Nat) (s : State) (hs : s.Inv) : (s.decDestroy a).Inv :=
  (s.decDestroy_frame a).1.inv (s.decDestroy_sameBlock a) (decDestroy_tables a s hs.tables) hs

theorem afterCommand_inv (i : Instr) (s : State) (hs : s.Inv) : (afterCommand i s).Inv := by
  cases i with
  | encCreate => exact encCreate_inv s hs
  | encEncode h =>
    exact runPlan_inv encodeElement_isElement encodeElement_inLoop _ s hs (encodePlan_loopFits h s)
  | encDestroy h => exact encDestroy_inv h s hs
  | decCreate => exact decCreate_inv s hs
  | decDecode h =>
    exact runPlan_inv decodeElement_isElement decodeElement_inLoop _ s hs (decodePlan_loopFits h s)
  | decDestroy h => exact decDestroy_inv h s hs

theorem commandStep_inv (i : Instr) (s : State) (hs : s.Inv) : (commandStep i s).Inv := by
  cases i with
  | encCreate => exact encCreate_inv s hs
  | encEncode h =>
    exact stepPlan_inv encodeElement_isElement encodeElement_inLoop _ s hs (encodePlan_loopFits h s)
  | encDestroy h => exact encDestroy_inv h s hs
  | decCreate => exact decCreate_inv s hs
  | decDecode h =>
    exact stepPlan_inv decodeElement_isElement decodeElement_inLoop _ s hs (decodePlan_loopFits h s)
  | decDestroy h => exact decDestroy_inv h s hs

section HostAccesses

variable {s : State} (hs : s.Inv)
include hs

/-- The invariant says nothing of the port and of what a host has read. -/
theorem State.Inv.setHost (p : List Input) (v : Word) : { s with port := p, readData := v }.Inv :=
  ⟨hs.memory, hs.tables, hs.counters, hs.params⟩

theorem State.Inv.setPort (p : List Input) : { s with port := p }.Inv := hs.setHost p s.readData

theorem State.Inv.raise (c : Cause) : (s.raise c).Inv :=
  ⟨hs.memory, hs.tables, hs.counters, hs.params⟩

/-- The start of a command sets `K` to 0. -/
theorem State.Inv.start (w : Word) : (s.start w).Inv :=
  ⟨hs.memory, hs.tables, ⟨Nat.two_pow_pos 32, hs.counters.2⟩, hs.params⟩

theorem State.Inv.memWrite (a : Nat) (v : Byte) (ha : a < s.params.memorySize) :
    { s with mem := s.mem.write a v }.Inv :=
  ⟨hs.memory.write a v ha, hs.tables, hs.counters, hs.params⟩

theorem State.Inv.applyReset : s.applyReset.Inv :=
  ⟨hs.memory, afterReset_tables s.params _ _, ⟨Nat.two_pow_pos 32, Nat.two_pow_pos 32⟩,
    (applyReset_sameBlock s).paramsInv hs.params⟩

theorem State.Inv.protocolError : s.protocolError.Inv := by
  unfold State.protocolError
  split
  · exact hs
  · exact hs.raise _
  · exact hs.raise _

theorem State.Inv.storeCmd (v : Word) : (s.storeCmd v).Inv := by
  unfold State.storeCmd
  split
  · exact hs.start v
  · exact hs.raise _
  · exact hs

/-- A store to an `ARG` register keeps the invariant as its write does. -/
theorem State.Inv.storeArg (put : State → State) (h : (put s).Inv) : (s.storeArg put).Inv := by
  unfold State.storeArg
  split
  · exact h
  · exact hs.raise _
  · exact hs

theorem State.Inv.setArgs (a0 a1 a2 : Word) : { s with arg0 := a0, arg1 := a1, arg2 := a2 }.Inv :=
  ⟨hs.memory, hs.tables, hs.counters, hs.params⟩

theorem State.Inv.storeReg (r : Reg) (v : Word) : (s.storeReg r v).Inv := by
  cases r with
  | cmd => exact hs.storeCmd v
  | arg0 => exact hs.storeArg (fun s => { s with arg0 := v }) (hs.setArgs v s.arg1 s.arg2)
  | arg1 => exact hs.storeArg (fun s => { s with arg1 := v }) (hs.setArgs s.arg0 v s.arg2)
  | arg2 => exact hs.storeArg (fun s => { s with arg2 := v }) (hs.setArgs s.arg0 s.arg1 v)
  | result => exact hs
  | status => exact hs
  | reserved => exact hs

theorem State.Inv.blockStep : s.blockStep.Inv := by
  rcases blockStep_cases s with ⟨_, h⟩ | ⟨_, _, h⟩ | ⟨i, _, _, h⟩
  · rw [h]; exact hs
  · rw [h]; exact hs.raise _
  · rw [h]; exact commandStep_inv i s hs

end HostAccesses

/-- Settles O11, by the inversion of a step: each thing a step can be keeps the invariant. -/
theorem stepKeepsTheInvariant : Obligations.StepKeepsTheInvariant := by
  intro s t hs h
  cases step_cases s t h with
  | quiet _ ht => subst ht; exact hs.blockStep
  | turn rest _ ht => subst ht; exact (hs.setPort rest).blockStep
  | store offset v rest _ _ ht => subst ht; exact (hs.setPort rest).storeReg (regAt offset) v
  | load _ rest _ _ ht => subst ht; exact hs.setHost rest _
  | odd _ rest _ _ _ _ ht => subst ht; exact (hs.setPort rest).protocolError
  | memWrite a v rest _ ha _ ht => subst ht; exact (hs.setPort rest).memWrite a v ha
  | memRead _ rest _ _ ht => subst ht; exact hs.setHost rest _
  | waitIdle rest _ _ ht => subst ht; exact hs.setHost rest _
  | waitBusy _ _ _ ht => subst ht; exact (hs.setHost s.port s.status).blockStep
  | waitFaulted _ rest _ _ ht => subst ht; exact hs.setHost (endProgram rest) _
  | illegal w rest _ _ _ _ ht => subst ht; exact ((hs.setPort rest).start w).raise _
  | command w i rest _ _ _ ht => subst ht; exact afterCommand_inv i _ ((hs.setPort rest).start w)
  | commandBusy _ rest _ _ ht => subst ht; exact (hs.setPort rest).raise _
  | commandFaulted _ _ rest _ _ ht => subst ht; exact hs.setPort rest
  | reset rest _ ht => subst ht; exact (hs.setPort rest).applyReset

end Sys2Proof.Machine
end

section
/-! PROOF (20_memory.md R68, 10_state.md R21, R29). A command run by block steps reaches the state of the one
atomic step. A create, a destroy and a transform stopped at its checks are one block step, and that step
is the atomic one. A transform's loop is unrolled from the front: a block step at an element is the first
of the elements still to run, and the plan is the same in the state it leaves, since an element changes
nothing that the checks read. The atomic step itself is `exec` of the decoded command. -/

namespace Sys2Proof.Machine

/-! ## What the checks read stays while a transform runs -/

theorem PlanFrame.refl (s : State) : PlanFrame s s := rfl

theorem PlanFrame.trans {s t u : State} (h : PlanFrame s t) (h' : PlanFrame t u) : PlanFrame s u := by
  unfold PlanFrame at *
  rw [h', h]

theorem ElementFrame.plan {s t : State} (n : Nat) (h : ElementFrame { s with n := n } t) :
    PlanFrame s t := by
  unfold ElementFrame at h
  unfold PlanFrame
  rw [h]

theorem ElementFrame.n_eq {s t : State} (h : ElementFrame s t) : t.n = s.n := by
  unfold ElementFrame at h
  rw [h]

theorem PlanFrame.lcmd_eq {s t : State} (h : PlanFrame s t) : t.lcmd = s.lcmd := by
  unfold PlanFrame at h
  rw [h]

theorem PlanFrame.encodePlan_eq {s t : State} (h : PlanFrame s t) (a : Nat) :
    t.encodePlan a = s.encodePlan a := by
  unfold PlanFrame at h
  rw [h]
  rfl

theorem PlanFrame.decodePlan_eq {s t : State} (h : PlanFrame s t) (a : Nat) :
    t.decodePlan a = s.decodePlan a := by
  unfold PlanFrame at h
  rw [h]
  rfl

/-! ## A transform -/

/-- The command `i` is a transform with the checks `plan` and the element `e`, as one step
and as block steps. -/
structure IsTransform {τ : Type} (i : Instr) (plan : State → Plan τ)
    (e : Slot τ → State → Progress) : Prop where
  element : IsElement e
  plan_eq : ∀ s t, PlanFrame s t → plan t = plan s
  step_eq : ∀ s, commandStep i s = stepPlan e (plan s) s
  after_eq : ∀ s, afterCommand i s = runPlan e (plan s) s

theorem encEncode_isTransform (h : Nat) :
    IsTransform (.encEncode h) (State.encodePlan h) encodeElement :=
  ⟨encodeElement_isElement, fun _ _ hf => hf.encodePlan_eq h, fun _ => rfl, fun _ => rfl⟩

theorem decDecode_isTransform (h : Nat) :
    IsTransform (.decDecode h) (State.decodePlan h) decodeElement :=
  ⟨decodeElement_isElement, fun _ _ hf => hf.decodePlan_eq h, fun _ => rfl, fun _ => rfl⟩

section Transforms

variable {τ : Type} {i : Instr} {plan : State → Plan τ} {e : Slot τ → State → Progress}
  (hi : IsTransform i plan e)
include hi

theorem IsTransform.blockStep_eq (s : State) (hb : s.phase = .busy) (hd : decode s.lcmd = .ok i) :
    s.blockStep = stepPlan e (plan s) s := by
  rw [blockStep_busy s i hb hd, hi.step_eq]

/-- The last `j` elements of a loop and its end are at most `j + 1` block steps. -/
theorem blockSteps_loop (slot : Slot τ) (m : Nat) (r : Word) (j : Nat) (s : State)
    (hb : s.phase = .busy) (hd : decode s.lcmd = .ok i) (hp : plan s = .loop slot m r)
    (hj : s.k + j = m) :
    ∃ a, a ≤ j + 1 ∧
      State.blockSteps a s = (runElements (e slot) j { s with n := m }).finish r := by
  induction j generalizing s with
  | zero =>
    refine ⟨1, le_rfl, ?_⟩
    rw [blockSteps_succ, hi.blockStep_eq s hb hd, hp, stepPlan_end e slot m r s (by omega)]
    rfl
  | succ j ih =>
    have hstep : s.blockStep = (e slot { s with n := m }).state := by
      rw [hi.blockStep_eq s hb hd, hp, stepPlan_element e slot m r s (by omega)]
    have hf := hi.element.frame slot { s with n := m }
    rw [runElements]
    cases hr : e slot { s with n := m } with
    | stopped t =>
      refine ⟨1, by omega, ?_⟩
      rw [blockSteps_succ, hstep, hr]
      rfl
    | running t =>
      rw [hr, Progress.state_running] at hstep hf
      have hk : t.k = s.k + 1 := hi.element.running_k slot { s with n := m } t hr
      have hbusy : t.phase = .busy := (hi.element.running_phase slot { s with n := m } t hr).trans hb
      have hdec : decode t.lcmd = .ok i := (hf.plan m).lcmd_eq ▸ hd
      have hplan : plan t = .loop slot m r := (hi.plan_eq s t (hf.plan m)).trans hp
      have hn : { t with n := m } = t := by rw [← show t.n = m from hf.n_eq]
      obtain ⟨a, ha, hrun⟩ := ih t hbusy hdec hplan (by omega)
      rw [hn] at hrun
      exact ⟨a + 1, by omega, by rw [blockSteps_succ, hstep, hrun]; rfl⟩

theorem runPlan_loop_n (slot : Slot τ) (m : Nat) (r : Word) (s : State) :
    (runPlan e (.loop slot m r) s).n = m := by
  have hf := runElements_frame (e slot) (hi.element.frame slot) m { s with n := m, k := 0 }
  rw [runPlan]
  cases hr : runElements (e slot) m { s with n := m, k := 0 } with
  | running t => rw [hr] at hf; exact hf.n_eq
  | stopped t => rw [hr] at hf; exact hf.n_eq

theorem blockSteps_transform (s : State) (hb : s.phase = .busy) (hd : decode s.lcmd = .ok i)
    (hk : s.k = 0) :
    ∃ a, a ≤ (afterCommand i s).n + 1 ∧ State.blockSteps a s = afterCommand i s := by
  have hstep := hi.blockStep_eq s hb hd
  rw [hi.after_eq]
  cases hp : plan s with
  | fault c => exact ⟨1, by omega, by rw [blockSteps_succ, hstep, hp]; rfl⟩
  | done r => exact ⟨1, by omega, by rw [blockSteps_succ, hstep, hp]; rfl⟩
  | loop slot m r =>
    obtain ⟨a, ha, hrun⟩ := blockSteps_loop hi slot m r m s hb hd hp (by omega)
    rw [runPlan_loop_n hi]
    exact ⟨a, ha, by rw [hrun, runPlan, ← hk]⟩

end Transforms

/-! ## A whole command -/

/-- A started command reaches its end by block steps, `N + 1` of them at most. -/
theorem blockSteps_command (i : Instr) (s : State) (hb : s.phase = .busy)
    (hd : decode s.lcmd = .ok i) (hk : s.k = 0) :
    ∃ a, a ≤ (afterCommand i s).n + 1 ∧ State.blockSteps a s = afterCommand i s := by
  have once (h : commandStep i s = afterCommand i s) :
      ∃ a, a ≤ (afterCommand i s).n + 1 ∧ State.blockSteps a s = afterCommand i s :=
    ⟨1, by omega, by rw [blockSteps_succ, blockStep_busy s i hb hd, h]; rfl⟩
  cases i with
  | encCreate => exact once rfl
  | encEncode h => exact blockSteps_transform (encEncode_isTransform h) s hb hd hk
  | encDestroy h => exact once rfl
  | decCreate => exact once rfl
  | decDecode h => exact blockSteps_transform (decDecode_isTransform h) s hb hd hk
  | decDestroy h => exact once rfl

/-- What a started word leaves, a command or an illegal word, and the block steps that lead there. -/
theorem runStarted_blockSteps (w : Word) (s : State) :
    ∃ t, (s.start w).runStarted w = .next t ∧ t.phase ≠ .busy ∧
      ∃ a, a ≤ t.n + 1 ∧ State.blockSteps a (s.start w) = t := by
  cases hd : decode w with
  | error err =>
    refine ⟨(s.start w).raise .illegalCommand, by rw [State.runStarted, hd], nofun, 1, by omega, ?_⟩
    rw [blockSteps_succ, blockStep_illegal (s.start w) err rfl hd, blockSteps_zero]
  | ok i =>
    exact ⟨afterCommand i (s.start w), by rw [State.runStarted, hd]; exact exec_eq i _,
      afterCommand_not_busy i _, blockSteps_command i (s.start w) rfl hd rfl⟩

/-- A command event at an idle block. -/
theorem step_command_idle (s : State) (w : Word) (rest : List Input) (hi : s.phase = .idle)
    (hp : s.port = .command w :: rest) :
    step s = (State.start w { s with port := rest }).runStarted w := by
  rw [step_event s _ rest hp]
  simp only [State.serve, State.runCommand, hi]

/-- Settles O8: the store to `CMD` starts the command, and with an empty port the run goes on by block
steps, of which those past the command's end change nothing. -/
theorem elementStepsReachTheAtomicResult : Obligations.ElementStepsReachTheAtomicResult := by
  intro s w hi _
  obtain ⟨t, hrun, hend, a, ha, hsteps⟩ := runStarted_blockSteps w { s with port := [] }
  refine ⟨t, (step_command_idle { s with port := [.command w] } w [] hi rfl).trans hrun, fun m hm => ?_⟩
  obtain ⟨m, rfl⟩ : ∃ m', m = m' + 1 := ⟨m - 1, by omega⟩
  have hstart : step { s with port := [.write 4 0 w] } =
      .next (State.start w { s with port := [] }) :=
    (step_store _ 0 w [] rfl rfl).trans (congrArg _ (storeCmd_idle w { s with port := [] } hi))
  rw [core_run_succ m _ _ hstart, core_run_quiet m _ rfl]
  exact congrArg _ (blockSteps_past _ t a m hsteps hend (by omega))

/-- Settles O6: `runStarted` of a word that decodes is `exec` of its command; `withFetchWord` puts the
same event at the head of the port. -/
theorem stepRunsDecodedCommand : Obligations.StepRunsDecodedCommand := by
  have hrun (s : State) (w : Word) (i : Instr) (rest : List Input) (hi : s.phase = .idle)
      (hp : s.port = .command w :: rest) (hd : decode w = .ok i) :
      step s = exec i (State.start w { s with port := rest }) := by
    rw [step_command_idle s w rest hi hp, State.runStarted, hd]
  refine ⟨hrun, fun s w i hi hd => ?_⟩
  have hw : BitVec.ofNat 32 (w.toNat % 2 ^ 32) = w := by
    rw [Nat.mod_eq_of_lt w.isLt, BitVec.ofNat_toNat, BitVec.setWidth_eq]
  exact hrun (s.withFetchWord 32 w.toNat) w i s.port hi
    (by rw [State.withFetchWord, State.issueNext, hw]) hd

end Sys2Proof.Machine
end

section
/-! SUPPORT. The three outcomes of a create (42_encoder.md R165, 41_decoder.md R131, 60_exceptions.md
R211): no free slot, a draw that fails, the lowest free slot taken. -/

namespace Sys2Proof.Machine

theorem encCreate_full (s : State) (hf : firstFree s.enc = none) : s.encCreate = s.complete 0 := by
  simp only [State.encCreate, hf]

theorem encCreate_draw_fails (s : State) (i : Nat) (hf : firstFree s.enc = some i)
    (hd : s.drawFails = true) : s.encCreate = s.afterDraw.complete 0 := by
  simp only [State.encCreate, hf, hd, if_true]

theorem encCreate_takes (s : State) (i : Nat) (hf : firstFree s.enc = some i)
    (hd : s.drawFails = false) : s.encCreate =
      State.complete (BitVec.ofNat 32 (i + 1))
        { s.afterDraw with enc := s.enc.set i (s.newSlot compressionTable) } := by
  simp only [State.encCreate, hf, hd, Bool.false_eq_true, if_false]

theorem decCreate_full (s : State) (hf : firstFree s.dec = none) : s.decCreate = s.complete 0 := by
  simp only [State.decCreate, hf]

theorem decCreate_draw_fails (s : State) (i : Nat) (hf : firstFree s.dec = some i)
    (hd : s.drawFails = true) : s.decCreate = s.afterDraw.complete 0 := by
  simp only [State.decCreate, hf, hd, if_true]

theorem decCreate_takes (s : State) (i : Nat) (hf : firstFree s.dec = some i)
    (hd : s.drawFails = false) : s.decCreate =
      State.complete (BitVec.ofNat 32 (i + 1))
        { s.afterDraw with dec := s.dec.set i (s.newSlot expansionTable) } := by
  simp only [State.decCreate, hf, hd, Bool.false_eq_true, if_false]

end Sys2Proof.Machine
end

section
/-! PROOF (20_memory.md R50). A create and a destroy neither read nor write host memory: each commutes
with a replacement of memory. -/

namespace Sys2Proof.Machine

/-- The operation neither reads nor writes host memory. -/
def IgnoresMemory (g : State → State) : Prop :=
  ∀ (s : State) (m : Memory), g { s with mem := m } = { g s with mem := m }

theorem afterDraw_ignoresMemory : IgnoresMemory State.afterDraw := by
  intro s m
  by_cases h : s.params.createMayFail = true <;> simp [State.afterDraw, h]

theorem encCreate_ignoresMemory : IgnoresMemory State.encCreate := by
  intro s m
  have hdraw := afterDraw_ignoresMemory s m
  cases hf : firstFree s.enc with
  | none =>
    rw [encCreate_full s hf]
    exact encCreate_full { s with mem := m } hf
  | some i =>
    cases hd : s.drawFails with
    | true =>
      rw [encCreate_draw_fails s i hf hd, encCreate_draw_fails { s with mem := m } i hf hd, hdraw]
      rfl
    | false =>
      rw [encCreate_takes s i hf hd, encCreate_takes { s with mem := m } i hf hd, hdraw]
      rfl

theorem decCreate_ignoresMemory : IgnoresMemory State.decCreate := by
  intro s m
  have hdraw := afterDraw_ignoresMemory s m
  cases hf : firstFree s.dec with
  | none =>
    rw [decCreate_full s hf]
    exact decCreate_full { s with mem := m } hf
  | some i =>
    cases hd : s.drawFails with
    | true =>
      rw [decCreate_draw_fails s i hf hd, decCreate_draw_fails { s with mem := m } i hf hd, hdraw]
      rfl
    | false =>
      rw [decCreate_takes s i hf hd, decCreate_takes { s with mem := m } i hf hd, hdraw]
      rfl

theorem encDestroy_ignoresMemory (h : Nat) : IgnoresMemory (State.encDestroy h) := by
  intro s m
  simp only [State.encDestroy]
  cases nameOf s.enc h <;> rfl

theorem decDestroy_ignoresMemory (h : Nat) : IgnoresMemory (State.decDestroy h) := by
  intro s m
  simp only [State.decDestroy]
  cases nameOf s.dec h <;> rfl

theorem afterCommand_ignoresMemory (i : Instr) (h : isTransform i = false) :
    IgnoresMemory (afterCommand i) := by
  cases i with
  | encCreate => exact encCreate_ignoresMemory
  | encEncode a => cases h
  | encDestroy a => exact encDestroy_ignoresMemory a
  | decCreate => exact decCreate_ignoresMemory
  | decDecode a => cases h
  | decDestroy a => exact decDestroy_ignoresMemory a

/-- Settles O15: `afterCommand_ignoresMemory`, in the terms of `exec`. -/
theorem onlyTransformsTouchMemory : Obligations.OnlyTransformsTouchMemory := by
  intro i s t m hi h
  rw [exec_next_iff] at h ⊢
  rw [h]
  exact (afterCommand_ignoresMemory i hi s m).symm

end Sys2Proof.Machine
end

section
/-! PROOF (20_memory.md R53, R54, R62, R63). Host memory, byte by byte: the bytes of a stored sample, and a
host's access to a byte. -/

namespace Sys2Proof.Machine

/-- `Write16` where both bytes are admitted. -/
theorem store16_admitted (s : State) (a : Nat) (p : Sample) (h0 : s.params.admits a .write = true)
    (h1 : s.params.admits (a + 1) .write = true) :
    s.store16 a p = .running { s with
      mem := (s.mem.write a (lowerByte s.params.sampleEndian p)).write (a + 1)
        (higherByte s.params.sampleEndian p) } := by
  rw [State.store16, State.storeByte_admitted s a _ h0, Progress.andThen_running]
  exact State.storeByte_admitted { s with mem := _ } (a + 1) _ h1

/-- Settles O36: the two bytes read back as they were written, and `joinSample` puts them together. -/
theorem sampleBytesAreInTheBlocksOrder : Obligations.SampleBytesAreInTheBlocksOrder := by
  intro s a p hw h0 h1
  refine ⟨_, store16_admitted s a p h0 h1, ?_⟩
  generalize s.params.sampleEndian = e
  have hlow : Memory.read ((s.mem.write a (lowerByte e p)).write (a + 1) (higherByte e p)) a =
      lowerByte e p := by
    rw [Memory.read_write_ne _ _ _ _ (by omega), Memory.read_write_same _ _ _ hw]
  have hhigh : Memory.read ((s.mem.write a (lowerByte e p)).write (a + 1) (higherByte e p)) (a + 1) =
      higherByte e p := Memory.read_write_same _ _ _ (Memory.write_wf _ _ _ hw)
  refine ⟨?_, ?_, ?_⟩
  · rintro rfl
    exact ⟨hlow, hhigh⟩
  · rintro rfl
    exact ⟨hlow, hhigh⟩
  · rw [sampleAt, hlow, hhigh, joinSample_bytes]

theorem busyByte_of_not_inBusyBuffers (s : State) (a : Nat) (h : ¬ InBusyBuffers s a) :
    s.busyByte a = false := by
  rw [← Bool.not_eq_true]
  exact mt (busyByte_sound s a) h

theorem busyByte_of_inEncodeBuffers (s : State) (h : Nat) (x : EncSlot) (a : Nat)
    (hb : s.phase = .busy) (hd : decode s.lcmd = .ok (.encEncode h)) (hx : LiveAt s.enc h x)
    (hg : GoodArguments s) (hin : BufferFits s s.inAddress (2 * encodeCount s))
    (hout : BufferFits s s.outAddress (encodeCount s)) (ha : InEncodeBuffers s a) :
    s.busyByte a = true := by
  rw [busyByte_encode s h x _ _ hb hd (encodePlan_loop s h x hx hg (.inr hin) (.inr hout))]
  simpa [inBuffer, InEncodeBuffers] using ha

theorem busyByte_of_inDecodeBuffers (s : State) (h : Nat) (x : DecSlot) (a : Nat)
    (hb : s.phase = .busy) (hd : decode s.lcmd = .ok (.decDecode h)) (hx : LiveAt s.dec h x)
    (hg : GoodArguments s) (hn : decodeCount x s ≤ 0x3FFFFFFF)
    (hin : BufferFits s s.inAddress (decodeCount x s))
    (hout : BufferFits s s.outAddress (2 * decodeCount x s)) (ha : InDecodeBuffers x s a) :
    s.busyByte a = true := by
  rw [busyByte_decode s h x _ _ hb hd (decodePlan_loop s h x hx hg hn hin hout)]
  simpa [inBuffer, InDecodeBuffers] using ha

/-- A host's access to an admitted byte that exists and is a byte of the command in flight. -/
theorem step_race (s : State) (a : Nat) (v : Byte) (rest : List Input)
    (ha : a < s.params.memorySize) (hb : s.busyByte a = true) (hr : s.params.admits a .read = true)
    (hw : s.params.admits a .write = true) :
    step { s with port := .memRead a :: rest } = .fault (.bufferRace a) ∧
      step { s with port := .memWrite a v :: rest } = .fault (.bufferRace a) := by
  rw [step_memRead s a rest ha hr, step_memWrite s a v rest ha hw, if_pos hb, if_pos hb]
  exact ⟨rfl, rfl⟩

/-- Settles O60: an access stops exactly on the bytes of `busyByte`, which are those of `InBusyBuffers`
where the transform's checks pass; its buffers lie in the address space, so its bytes exist. -/
theorem hostMemoryAccesses : Obligations.HostMemoryAccesses := by
  refine ⟨fun s a v rest hwf hna ha hd => ?_, fun s a rest hna ha hd => ?_,
    fun s h x a v rest hb hd hx hg hin hout hbuf hr hw => ?_,
    fun s h x a v rest hb hd hx hg hn hin hout hbuf hr hw => ?_⟩
  · rw [step_memWrite s a v rest ha hd, busyByte_of_not_inBusyBuffers s a hna]
    exact ⟨_, rfl, rfl, Memory.read_write_same _ _ _ hwf, fun b hne => Memory.read_write_ne _ _ _ _ hne⟩
  · rw [step_memRead s a rest ha hd, busyByte_of_not_inBusyBuffers s a hna]
    rfl
  · have ha : a < 2 ^ s.params.addrWidth := by
      unfold BufferFits at hin hout
      unfold InEncodeBuffers at hbuf
      omega
    exact step_race s a v rest ha
      (busyByte_of_inEncodeBuffers s h x a hb hd hx hg hin hout hbuf) hr hw
  · have ha : a < 2 ^ s.params.addrWidth := by
      unfold BufferFits at hin hout
      unfold InDecodeBuffers at hbuf
      omega
    exact step_race s a v rest ha
      (busyByte_of_inDecodeBuffers s h x a hb hd hx hg hn hin hout hbuf) hr hw

end Sys2Proof.Machine
end

section
/-! SUPPORT (30_encoding.md R80, R81, R84). The command word: its fields read back from a packed word, a
word packed again from its fields, and one equation of the decoder for each row of the opcode map. -/

namespace Sys2Proof

/-! ## Packing and reading the fields -/

section Fields

variable (h : Nat) (u : BitVec 1) (f : BitVec 2)

@[simp] theorem fieldFn_packWord : fieldFn (packWord h u f) = f :=
  BitVec.extractLsb'_append_eq_right

@[simp] theorem fieldUnit_packWord : fieldUnit (packWord h u f) = u := by
  rw [fieldUnit, packWord, BitVec.extractLsb'_append_eq_of_le le_rfl]
  exact BitVec.extractLsb'_append_eq_right

@[simp] theorem fieldLowReserved_packWord : fieldLowReserved (packWord h u f) = 0 := by
  rw [fieldLowReserved, packWord, BitVec.extractLsb'_append_eq_of_le (by decide),
    BitVec.extractLsb'_append_eq_of_le (by decide)]
  exact BitVec.extractLsb'_append_eq_right

@[simp] theorem fieldHandle_packWord : fieldHandle (packWord h u f) = BitVec.ofNat 8 h := by
  rw [fieldHandle, packWord, BitVec.extractLsb'_append_eq_of_le (by decide),
    BitVec.extractLsb'_append_eq_of_le (by decide), BitVec.extractLsb'_append_eq_of_le (by decide)]
  exact BitVec.extractLsb'_append_eq_right

@[simp] theorem fieldHighReserved_packWord : fieldHighReserved (packWord h u f) = 0 := by
  rw [fieldHighReserved, packWord, BitVec.extractLsb'_append_eq_of_le (by decide),
    BitVec.extractLsb'_append_eq_of_le (by decide), BitVec.extractLsb'_append_eq_of_le (by decide),
    BitVec.extractLsb'_append_eq_of_le (by decide)]
  exact BitVec.extractLsb'_eq_self

end Fields

/-- The reserved bits of the word are zero (R80). -/
def ReservedZero (w : Word) : Prop := fieldLowReserved w = 0 ∧ fieldHighReserved w = 0

theorem packWord_reservedZero (h : Nat) (u : BitVec 1) (f : BitVec 2) :
    ReservedZero (packWord h u f) :=
  ⟨fieldLowReserved_packWord h u f, fieldHighReserved_packWord h u f⟩

/-- A word whose reserved bits are zero is packed from its other three fields. -/
theorem packWord_fields (w : Word) (hr : ReservedZero w) :
    packWord (fieldHandle w).toNat (fieldUnit w) (fieldFn w) = w := by
  obtain ⟨hlow, hhigh⟩ := hr
  rw [packWord, BitVec.ofNat_toNat, BitVec.setWidth_eq, ← hlow, ← hhigh]
  simp only [fieldHighReserved, fieldHandle, fieldLowReserved, fieldUnit, fieldFn]
  rw [BitVec.extractLsb'_append_extractLsb'_eq_extractLsb' (show 16 = 8 + 8 from rfl),
    BitVec.extractLsb'_append_extractLsb'_eq_extractLsb' (show 8 = 3 + 5 from rfl),
    BitVec.extractLsb'_append_extractLsb'_eq_extractLsb' (show 3 = 2 + 1 from rfl),
    BitVec.extractLsb'_append_extractLsb'_eq_extractLsb' (show 2 = 0 + 2 from rfl)]
  exact BitVec.extractLsb'_eq_self

/-- A field outside the handle stays under the mask of a row with a handle. -/
theorem extractLsb'_handleMask (w : Word) (start len : Nat)
    (h : (0xFFFF00FF : Word).extractLsb' start len = BitVec.allOnes len) :
    (w &&& 0xFFFF00FF).extractLsb' start len = w.extractLsb' start len := by
  rw [BitVec.extractLsb'_and, h, BitVec.and_allOnes]

/-- A word that is a packed word under the mask of a row with a handle is that packed word with its own
handle. -/
theorem packWord_of_masked (w : Word) (u : BitVec 1) (f : BitVec 2)
    (hm : w &&& 0xFFFF00FF = packWord 0 u f) : packWord (fieldHandle w).toNat u f = w := by
  have hfield (start len : Nat)
      (h : (0xFFFF00FF : Word).extractLsb' start len = BitVec.allOnes len) :
      w.extractLsb' start len = (packWord 0 u f).extractLsb' start len := by
    rw [← hm, extractLsb'_handleMask w start len h]
  have hfn : fieldFn w = f := (hfield 0 2 rfl).trans (fieldFn_packWord 0 u f)
  have hunit : fieldUnit w = u := (hfield 2 1 rfl).trans (fieldUnit_packWord 0 u f)
  have hlow : fieldLowReserved w = 0 := (hfield 3 5 rfl).trans (fieldLowReserved_packWord 0 u f)
  have hhigh : fieldHighReserved w = 0 := (hfield 16 16 rfl).trans (fieldHighReserved_packWord 0 u f)
  rw [← hfn, ← hunit]
  exact packWord_fields w ⟨hlow, hhigh⟩

/-! ## The decoder by its fields -/

theorem decode_reserved (w : Word) (hr : ¬ ReservedZero w) : decode w = .error .reservedBits :=
  if_neg hr

theorem decode_reservedZero (w : Word) (hr : ReservedZero w) : decode w = decodeOpcode w :=
  if_pos hr

section Opcodes

variable (w : Word) (hr : ReservedZero w)
include hr

theorem decode_fn00 (hf : fieldFn w = 0b00) : decode w = .error .reservedFn := by
  rw [decode_reservedZero w hr, decodeOpcode, hf]
  rfl

theorem decode_fn01 (hf : fieldFn w = 0b01) :
    decode w = decodeCreate w (if fieldUnit w = 0 then .encCreate else .decCreate) := by
  rw [decode_reservedZero w hr, decodeOpcode, hf]
  rfl

theorem decode_fn10 (hf : fieldFn w = 0b10) :
    decode w = .ok (if fieldUnit w = 0 then .encEncode (fieldHandle w).toNat
      else .decDecode (fieldHandle w).toNat) := by
  rw [decode_reservedZero w hr, decodeOpcode, hf]
  rfl

theorem decode_fn11 (hf : fieldFn w = 0b11) :
    decode w = .ok (if fieldUnit w = 0 then .encDestroy (fieldHandle w).toNat
      else .decDestroy (fieldHandle w).toNat) := by
  rw [decode_reservedZero w hr, decodeOpcode, hf]
  rfl

end Opcodes

theorem decodeCreate_legal (w : Word) (i : Instr) (hh : fieldHandle w = 0) :
    decodeCreate w i = .ok i := if_pos hh

theorem decodeCreate_illegal (w : Word) (i : Instr) (hh : fieldHandle w ≠ 0) :
    decodeCreate w i = .error .handleOnCreate := if_neg hh

theorem fn_cases (f : BitVec 2) : f = 0b00 ∨ f = 0b01 ∨ f = 0b10 ∨ f = 0b11 := by decide +revert

theorem unit_cases (u : BitVec 1) : u = 0 ∨ u = 1 := by decide +revert

/-- The rule R84 in the terms of the decoder's fields. -/
theorem illegalWord_iff (w : Word) :
    Machine.illegalWord w ↔ ¬ ReservedZero w ∨ fieldFn w = 0b00 ∨
      (fieldFn w = 0b01 ∧ fieldHandle w ≠ 0) := by
  have hw : Machine.illegalWord w ↔ fieldFn w = 0 ∨ fieldLowReserved w ≠ 0 ∨
      fieldHighReserved w ≠ 0 ∨ (fieldFn w = 1 ∧ fieldHandle w ≠ 0) := Iff.rfl
  rw [hw, ReservedZero]
  tauto

/-- The two things decoding a word can be: an illegal word is rejected, and any other word is the
encoding of the well-formed command it decodes to. -/
inductive DecodeCase (w : Word) : Prop
  | illegal (e : DecodeError) (hl : Machine.illegalWord w) (hd : decode w = .error e)
  | legal (i : Instr) (hl : ¬ Machine.illegalWord w) (hd : decode w = .ok i) (hwf : i.wf = true)
      (he : encode i = w)

/-- A handle read from its field fits it. -/
theorem handleFits_fieldHandle (w : Word) : handleFits (fieldHandle w).toNat = true :=
  decide_eq_true (fieldHandle w).isLt

theorem decode_cases (w : Word) : DecodeCase w := by
  by_cases hr : ReservedZero w
  case neg => exact .illegal _ ((illegalWord_iff w).2 (.inl hr)) (decode_reserved w hr)
  have hpack := packWord_fields w hr
  have hfits := handleFits_fieldHandle w
  obtain hf | hf | hf | hf := fn_cases (fieldFn w)
  · exact .illegal _ ((illegalWord_iff w).2 (.inr (.inl hf))) (decode_fn00 w hr hf)
  · have hd := decode_fn01 w hr hf
    by_cases hh : fieldHandle w = 0
    · have hl : ¬ Machine.illegalWord w := by simp [illegalWord_iff, hr, hf, hh]
      rw [decodeCreate_legal w _ hh] at hd
      rw [hh, hf] at hpack
      obtain hu | hu := unit_cases (fieldUnit w) <;> rw [hu] at hd hpack
      · exact .legal .encCreate hl hd rfl hpack
      · exact .legal .decCreate hl hd rfl hpack
    · exact .illegal _ ((illegalWord_iff w).2 (.inr (.inr ⟨hf, hh⟩)))
        (hd.trans (decodeCreate_illegal w _ hh))
  · have hl : ¬ Machine.illegalWord w := by simp [illegalWord_iff, hr, hf]
    have hd := decode_fn10 w hr hf
    rw [hf] at hpack
    obtain hu | hu := unit_cases (fieldUnit w) <;> rw [hu] at hd hpack
    · exact .legal (.encEncode _) hl hd hfits hpack
    · exact .legal (.decDecode _) hl hd hfits hpack
  · have hl : ¬ Machine.illegalWord w := by simp [illegalWord_iff, hr, hf]
    have hd := decode_fn11 w hr hf
    rw [hf] at hpack
    obtain hu | hu := unit_cases (fieldUnit w) <;> rw [hu] at hd hpack
    · exact .legal (.encDestroy _) hl hd hfits hpack
    · exact .legal (.decDestroy _) hl hd hfits hpack

end Sys2Proof
end

section
/-! PROOF (30_encoding.md R80, R81, R84). The command word round trip, in both directions, and the opcode
table: a row's words are the encodings of its command. -/

namespace Sys2Proof.Machine

/-- The handle of a packed word, where it fits its field. -/
theorem toNat_fieldHandle_packWord (h : Nat) (u : BitVec 1) (f : BitVec 2)
    (hh : handleFits h = true) : (fieldHandle (packWord h u f)).toNat = h := by
  rw [fieldHandle_packWord, BitVec.toNat_ofNat, Nat.mod_eq_of_lt (of_decide_eq_true hh)]

section PackedWords

variable (h : Nat) (u : BitVec 1)

theorem decode_packWord_fn01 :
    decode (packWord 0 u 0b01) = .ok (if u = 0 then .encCreate else .decCreate) := by
  rw [decode_fn01 _ (packWord_reservedZero 0 u 0b01) (fieldFn_packWord 0 u 0b01),
    decodeCreate_legal _ _ (fieldHandle_packWord 0 u 0b01), fieldUnit_packWord]

theorem decode_packWord_fn10 (hh : handleFits h = true) :
    decode (packWord h u 0b10) = .ok (if u = 0 then .encEncode h else .decDecode h) := by
  rw [decode_fn10 _ (packWord_reservedZero h u 0b10) (fieldFn_packWord h u 0b10),
    toNat_fieldHandle_packWord h u 0b10 hh, fieldUnit_packWord]

theorem decode_packWord_fn11 (hh : handleFits h = true) :
    decode (packWord h u 0b11) = .ok (if u = 0 then .encDestroy h else .decDestroy h) := by
  rw [decode_fn11 _ (packWord_reservedZero h u 0b11) (fieldFn_packWord h u 0b11),
    toNat_fieldHandle_packWord h u 0b11 hh, fieldUnit_packWord]

end PackedWords

/-- Settles O1: a packed word gives its fields back, so the decoder's equation for its `FN` gives the
command back. -/
theorem everyCommandDecodesFromItsWord : Obligations.EveryCommandDecodesFromItsWord := by
  intro i hwf
  cases i with
  | encCreate => exact decode_packWord_fn01 0
  | encEncode h => exact decode_packWord_fn10 h 0 hwf
  | encDestroy h => exact decode_packWord_fn11 h 0 hwf
  | decCreate => exact decode_packWord_fn01 1
  | decDecode h => exact decode_packWord_fn10 h 1 hwf
  | decDestroy h => exact decode_packWord_fn11 h 1 hwf

/-- Settles O2, by `decode_cases`. -/
theorem decodedWordIsItsEncoding : Obligations.DecodedWordIsItsEncoding := by
  intro w i hi
  cases decode_cases w with
  | illegal e _ hd => rw [hd] at hi; cases hi
  | legal j _ hd hwf he =>
    rw [hd] at hi
    cases hi
    exact ⟨hwf, he⟩

/-- Settles O5, by evaluation of the ten words. -/
theorem writtenOutWordsDecode : Obligations.WrittenOutWordsDecode := by
  unfold Obligations.WrittenOutWordsDecode
  decide

/-! ## The opcode table -/

theorem fitsTable (i : Instr) : Laws.FitsTable.Statement i := by
  cases i with
  | encCreate => exact Laws.FitsTable.encCreate
  | encEncode h => exact Laws.FitsTable.encEncode h
  | encDestroy h => exact Laws.FitsTable.encDestroy h
  | decCreate => exact Laws.FitsTable.decCreate
  | decDecode h => exact Laws.FitsTable.decDecode h
  | decDestroy h => exact Laws.FitsTable.decDestroy h

theorem opcodeTable_mnemonic_inj :
    ∀ r ∈ opcodeTable, ∀ r' ∈ opcodeTable, r.mnemonic = r'.mnemonic → r = r' := by decide

/-- A word of a row is the encoding of a command with the row's mnemonic. -/
theorem encode_of_matches (w : Word) (r : OpcodeRow) (hr : r ∈ opcodeTable)
    (hm : r.matches w = true) : ∃ i : Instr, i.wf = true ∧ encode i = w ∧ i.mnemonic = r.mnemonic := by
  have hm : w &&& r.mask = r.pattern := beq_iff_eq.1 hm
  have hone : w &&& 0xFFFFFFFF = w := BitVec.and_allOnes
  have hfits := handleFits_fieldHandle w
  simp only [opcodeTable, List.mem_cons, List.not_mem_nil, or_false] at hr
  rcases hr with rfl | rfl | rfl | rfl | rfl | rfl
  · exact ⟨.encCreate, rfl, hm.symm.trans hone, rfl⟩
  · exact ⟨.encEncode (fieldHandle w).toNat, hfits, packWord_of_masked w 0 0b10 hm, rfl⟩
  · exact ⟨.encDestroy (fieldHandle w).toNat, hfits, packWord_of_masked w 0 0b11 hm, rfl⟩
  · exact ⟨.decCreate, rfl, hm.symm.trans hone, rfl⟩
  · exact ⟨.decDecode (fieldHandle w).toNat, hfits, packWord_of_masked w 1 0b10 hm, rfl⟩
  · exact ⟨.decDestroy (fieldHandle w).toNat, hfits, packWord_of_masked w 1 0b11 hm, rfl⟩

/-- Settles O4: a word of a row is an encoding (`encode_of_matches`), which decodes; and a word that
decodes is the encoding of its command, which is of the one row with that mnemonic (`fitsTable`). -/
theorem decoderAgreesWithTheOpcodeTable : Obligations.DecoderAgreesWithTheOpcodeTable := by
  intro w r hr
  constructor
  · intro hm
    obtain ⟨i, hwf, rfl, hn⟩ := encode_of_matches w r hr hm
    exact ⟨i, everyCommandDecodesFromItsWord i hwf, hn⟩
  · rintro ⟨i, hd, hn⟩
    obtain ⟨hwf, rfl⟩ := decodedWordIsItsEncoding w i hd
    obtain ⟨r', hr', hn', hm'⟩ := fitsTable i hwf
    rw [← opcodeTable_mnemonic_inj r' hr' r hr (hn'.trans hn)]
    exact hm'

/-! ## Illegal words -/

theorem illegalWord_iff_error (w : Word) : illegalWord w ↔ ∃ e, decode w = .error e := by
  cases decode_cases w with
  | illegal e hl hd => exact iff_of_true hl ⟨e, hd⟩
  | legal i hl hd => exact iff_of_false hl (by rw [hd]; rintro ⟨e, he⟩; cases he)

/-- A word that decodes is of exactly one row. -/
theorem matches_one_row (w : Word) (i : Instr) (hd : decode w = .ok i) :
    ∃ r ∈ opcodeTable, r.matches w = true ∧
      ∀ r' ∈ opcodeTable, r'.matches w = true → r' = r := by
  obtain ⟨hwf, he⟩ := decodedWordIsItsEncoding w i hd
  obtain ⟨r, hr, hn, hm⟩ := fitsTable i hwf
  refine ⟨r, hr, he ▸ hm, fun r' hr' hm' => ?_⟩
  obtain ⟨j, hj, hn'⟩ := (decoderAgreesWithTheOpcodeTable w r' hr').1 hm'
  rw [hd] at hj
  cases hj
  exact opcodeTable_mnemonic_inj r' hr' r hr (hn'.symm.trans hn.symm)

/-- A word that the decoder rejects is of no row. -/
theorem matches_no_row (w : Word) (e : DecodeError) (hd : decode w = .error e) (r : OpcodeRow)
    (hr : r ∈ opcodeTable) : r.matches w = false := by
  rw [← Bool.not_eq_true]
  intro hm
  obtain ⟨i, hi, _⟩ := (decoderAgreesWithTheOpcodeTable w r hr).1 hm
  rw [hd] at hi
  cases hi

/-- A store to `CMD` of an idle block starts the command (10_state.md R23). -/
theorem step_store_cmd_idle (s : State) (w : Word) (rest : List Input) (hi : s.phase = .idle)
    (hp : s.port = .write 4 0 w :: rest) :
    step s = .next (State.start w { s with port := rest }) := by
  rw [step_store s 0 w rest hp rfl]
  exact congrArg _ (storeCmd_idle w { s with port := rest } hi)

/-- Settles O3: the rejected words by `illegalWord_iff_error`, the rows by the opcode table, and the fault
by the two ways of running a started word. -/
theorem illegalWordsFaultAndOthersAreOneCommand :
    Obligations.IllegalWordsFaultAndOthersAreOneCommand := by
  refine ⟨illegalWord_iff_error, fun w hl => ?_, fun w hl r hr => ?_, fun s w rest hi hl => ?_⟩
  · cases decode_cases w with
    | illegal _ hl' => exact absurd hl' hl
    | legal i _ hd => exact matches_one_row w i hd
  · obtain ⟨e, hd⟩ := (illegalWord_iff_error w).1 hl
    exact matches_no_row w e hd r hr
  · obtain ⟨e, hd⟩ := (illegalWord_iff_error w).1 hl
    refine ⟨?_, State.start w { s with port := .blockTurn :: rest },
      step_store_cmd_idle _ w _ hi rfl, rfl, ?_⟩
    · rw [step_command_idle { s with port := .command w :: rest } w rest hi rfl, State.runStarted, hd]
      rfl
    · rw [step_block _ (.inr rfl)]
      exact congrArg _ (blockStep_illegal (State.start w { s with port := rest }) e rfl hd)

end Sys2Proof.Machine
end

section
/-! PROOF (30_encoding.md R82, 10_state.md R32). A command reads and writes the slots of its own unit only,
and nothing of the host's side of the state (the port and `readData`): it commutes with a replacement of
both. An element of a transform uses no slot list at all, so one replacement of everything it leaves alone
serves both transforms; the checks and the creates and destroys use their own unit's slots. -/

namespace Sys2Proof.Machine

/-- The state with the slots of each unit, the port and `readData` replaced, each by a map, so that the
identity leaves a field out of the replacement. -/
def State.replace (e : List EncSlot → List EncSlot) (d : List DecSlot → List DecSlot)
    (p : List Input → List Input) (v : Word → Word) (s : State) : State :=
  { s with enc := e s.enc, dec := d s.dec, port := p s.port, readData := v s.readData }

/-- The outcome of a part of the pseudocode with its state mapped. -/
def Progress.map (g : State → State) : Progress → Progress
  | .running s => .running (g s)
  | .stopped s => .stopped (g s)

/-- A loop commutes with a map of the state that its element commutes with. -/
theorem runElements_map (elem : State → Progress) (g : State → State)
    (hg : ∀ s, elem (g s) = (elem s).map g) (m : Nat) (s : State) :
    runElements elem m (g s) = (runElements elem m s).map g := by
  induction m generalizing s with
  | zero => rfl
  | succ m ih =>
    rw [runElements, runElements, hg]
    cases elem s with
    | running t => exact ih t
    | stopped t => rfl

section Replace

variable (e : List EncSlot → List EncSlot) (d : List DecSlot → List DecSlot)
  (p : List Input → List Input) (v : Word → Word)

/-! ## Transforms -/

theorem encodeElement_replace (slot : EncSlot) (s : State) :
    encodeElement slot (s.replace e d p v) = (encodeElement slot s).map (State.replace e d p v) := by
  by_cases h : EncodeElementAdmitted s s.k
  · rw [encodeElement_admitted slot s h]
    exact encodeElement_admitted slot (s.replace e d p v) h
  · rw [encodeElement_refused slot s h]
    exact encodeElement_refused slot (s.replace e d p v) h

theorem decodeElement_replace (slot : DecSlot) (s : State) :
    decodeElement slot (s.replace e d p v) = (decodeElement slot s).map (State.replace e d p v) := by
  by_cases hr : s.params.admits (s.inAddress + s.k) .read = true ∧
      s.params.admits (s.outAddress + 2 * s.k) .write = true
  · obtain ⟨h0, h1⟩ := hr
    by_cases h2 : s.params.admits (s.outAddress + 2 * s.k + 1) .write = true
    · rw [decodeElement_admitted slot s ⟨h0, h1, h2⟩]
      exact decodeElement_admitted slot (s.replace e d p v) ⟨h0, h1, h2⟩
    · rw [decodeElement_half slot s h0 h1 h2]
      exact decodeElement_half slot (s.replace e d p v) h0 h1 h2
  · rw [decodeElement_refused slot s hr]
    exact decodeElement_refused slot (s.replace e d p v) hr

theorem finish_map_replace (r : Word) (pr : Progress) :
    (pr.map (State.replace e d p v)).finish r = (pr.finish r).replace e d p v := by
  cases pr <;> rfl

theorem runPlan_replace {τ : Type} (elem : Slot τ → State → Progress)
    (hg : ∀ slot s, elem slot (s.replace e d p v) = (elem slot s).map (State.replace e d p v))
    (plan : Plan τ) (s : State) :
    runPlan elem plan (s.replace e d p v) = (runPlan elem plan s).replace e d p v := by
  cases plan with
  | fault c => rfl
  | done r => rfl
  | loop slot m r =>
    have hloop := runElements_map (elem slot) (State.replace e d p v) (hg slot) m
      { s with n := m, k := 0 }
    rw [runPlan, runPlan, ← finish_map_replace, ← hloop]
    rfl

/-! ## Creates and destroys -/

theorem afterDraw_replace (s : State) :
    (s.replace e d p v).afterDraw = s.afterDraw.replace e d p v := by
  by_cases h : s.params.createMayFail = true
  · rw [State.afterDraw, State.afterDraw, if_pos h]
    exact if_pos h
  · rw [State.afterDraw, State.afterDraw, if_neg h]
    exact if_neg h

theorem encCreate_replace (s : State) :
    (s.replace id d p v).encCreate = s.encCreate.replace id d p v := by
  have hdraw := afterDraw_replace id d p v s
  cases hf : firstFree s.enc with
  | none =>
    rw [encCreate_full s hf]
    exact encCreate_full (s.replace id d p v) hf
  | some i =>
    cases hd : s.drawFails with
    | true =>
      rw [encCreate_draw_fails s i hf hd, encCreate_draw_fails (s.replace id d p v) i hf hd, hdraw]
      rfl
    | false =>
      rw [encCreate_takes s i hf hd, encCreate_takes (s.replace id d p v) i hf hd, hdraw]
      rfl

theorem decCreate_replace (s : State) :
    (s.replace e id p v).decCreate = s.decCreate.replace e id p v := by
  have hdraw := afterDraw_replace e id p v s
  cases hf : firstFree s.dec with
  | none =>
    rw [decCreate_full s hf]
    exact decCreate_full (s.replace e id p v) hf
  | some i =>
    cases hd : s.drawFails with
    | true =>
      rw [decCreate_draw_fails s i hf hd, decCreate_draw_fails (s.replace e id p v) i hf hd, hdraw]
      rfl
    | false =>
      rw [decCreate_takes s i hf hd, decCreate_takes (s.replace e id p v) i hf hd, hdraw]
      rfl

theorem encDestroy_replace (h : Nat) (s : State) :
    (s.replace id d p v).encDestroy h = (s.encDestroy h).replace id d p v := by
  simp only [State.encDestroy, State.replace, id]
  cases nameOf s.enc h <;> rfl

theorem decDestroy_replace (h : Nat) (s : State) :
    (s.replace e id p v).decDestroy h = (s.decDestroy h).replace e id p v := by
  simp only [State.decDestroy, State.replace, id]
  cases nameOf s.dec h <;> rfl

/-! ## Whole commands -/

theorem afterCommand_replace_dec (i : Instr) (s : State) (hi : isEncoderCommand i = true) :
    afterCommand i (s.replace id d p v) = (afterCommand i s).replace id d p v := by
  cases i with
  | encCreate => exact encCreate_replace d p v s
  | encEncode h => exact runPlan_replace id d p v _ (encodeElement_replace id d p v) (s.encodePlan h) s
  | encDestroy h => exact encDestroy_replace d p v h s
  | decCreate => cases hi
  | decDecode h => cases hi
  | decDestroy h => cases hi

theorem afterCommand_replace_enc (i : Instr) (s : State) (hi : isEncoderCommand i = false) :
    afterCommand i (s.replace e id p v) = (afterCommand i s).replace e id p v := by
  cases i with
  | encCreate => cases hi
  | encEncode h => cases hi
  | encDestroy h => cases hi
  | decCreate => exact decCreate_replace e p v s
  | decDecode h => exact runPlan_replace e id p v _ (decodeElement_replace e id p v) (s.decodePlan h) s
  | decDestroy h => exact decDestroy_replace e p v h s

/-- No command of either unit reads or writes the host's side. -/
theorem afterCommand_replace_host (i : Instr) (s : State) :
    afterCommand i (s.replace id id p v) = (afterCommand i s).replace id id p v := by
  cases hi : isEncoderCommand i with
  | true => exact afterCommand_replace_dec id p v i s hi
  | false => exact afterCommand_replace_enc id p v i s hi

end Replace

/-- Settles O16: a command commutes with the replacement of the other unit's slots alone. -/
theorem unitsAreSeparate : Obligations.UnitsAreSeparate := by
  intro i s t h
  rw [exec_next_iff] at h
  subst h
  refine ⟨fun hi d => ?_, fun hi e => ?_⟩
  · rw [exec_next_iff]
    exact (afterCommand_replace_dec (fun _ => d) id id i s hi).symm
  · rw [exec_next_iff]
    exact (afterCommand_replace_enc (fun _ => e) id id i s hi).symm

end Sys2Proof.Machine
end

section
/-! PROOF (30_encoding.md R86, R87). The script line `WAIT`, and the three lines of a command. A `WAIT` that
polls a busy block makes the block's steps one by one, with `readData` at the value of `STATUS` throughout,
so it ends in the state of the atomic step with the host's side replaced. -/

namespace Sys2Proof.Machine

theorem step_wait (s : State) (rest : List Input) (hp : s.port = .wait :: rest) :
    step s = .next (s.poll rest) := by
  rw [step_event s _ rest hp, State.serve, ← hp]

/-- A block step leaves the host's side. -/
theorem blockStep_host (s : State) :
    s.blockStep.port = s.port ∧ s.blockStep.readData = s.readData := by
  have hf := blockStep_frame s
  unfold CommandFrame at hf
  rw [hf]
  exact ⟨rfl, rfl⟩

/-- Settles O58, by the equation of a poll in each phase. -/
theorem waitPollsUntilNotBusy : Obligations.WaitPollsUntilNotBusy := by
  intro s rest hp
  have hstep := step_wait s rest hp
  refine ⟨fun hs => ?_, fun hs => ?_, fun c hs => ?_⟩
  · rw [hstep, poll_idle rest s hs]
  · obtain ⟨hport, hread⟩ := blockStep_host { s with readData := s.status }
    exact ⟨_, hstep.trans (congrArg _ (poll_busy rest s hs)), hport, hread, rfl⟩
  · rw [hstep, poll_faulted rest s c hs]

/-- A `WAIT` on a busy block makes the block steps that end its command. -/
theorem run_wait_busy (a : Nat) (s t : State) (rest : List Input) (hp : s.port = .wait :: rest)
    (hb : s.phase = .busy) (ha : State.blockSteps a { s with readData := s.status } = t)
    (ht : t.phase ≠ .busy) :
    ∃ m, ∀ j, Sys2Proof.core.run (j + m) s = Sys2Proof.core.run j t := by
  induction a generalizing s with
  | zero => exact absurd (ha ▸ hb) ht
  | succ a ih =>
    rw [blockSteps_succ] at ha
    have hhost := blockStep_host { s with readData := s.status }
    have hstep : step s = .next (State.blockStep { s with readData := s.status }) :=
      (step_wait s rest hp).trans (congrArg _ (poll_busy rest s hb))
    generalize State.blockStep { s with readData := s.status } = u at *
    obtain ⟨hport, hread⟩ : u.port = s.port ∧ u.readData = s.status := hhost
    by_cases hu : u.phase = .busy
    · have hself : ({ u with readData := u.status } : State) = u := by
        rw [status_eq_of_phase (hu.trans hb.symm), ← hread]
      obtain ⟨m, hm⟩ := ih u (hport.trans hp) hu (hself ▸ ha)
      exact ⟨m + 1, fun j => (core_run_succ (j + m) s u hstep).trans (hm j)⟩
    · rw [blockSteps_still a u hu] at ha
      exact ⟨1, fun j => ha ▸ core_run_succ j s u hstep⟩

/-- A started word run as one step neither reads nor writes the host's side. -/
theorem runStarted_replace_host (p : List Input → List Input) (v : Word → Word) (w : Word) (s t : State)
    (h : s.runStarted w = .next t) :
    (s.replace id id p v).runStarted w = .next (t.replace id id p v) := by
  unfold State.runStarted at *
  cases hd : decode w with
  | error e =>
    simp only [hd] at h ⊢
    cases h
    rfl
  | ok i =>
    simp only [hd, exec_next_iff] at h ⊢
    rw [h, afterCommand_replace_host]

/-- The atomic step of a command word, in the terms of its started state. -/
theorem runStarted_of_step (s t : State) (w : Word) (rest : List Input) (hi : s.phase = .idle)
    (h : step { s with port := .command w :: rest } = .next t) :
    (State.start w { s with port := rest }).runStarted w = .next t :=
  (step_command_idle { s with port := .command w :: rest } w rest hi rfl).symm.trans h

/-- The atomic step of a command word takes its event off the port and leaves the rest. -/
theorem step_command_port (s t : State) (w : Word) (rest : List Input) (hi : s.phase = .idle)
    (h : step { s with port := .command w :: rest } = .next t) : t.port = rest := by
  have hrun := runStarted_of_step s t w rest hi h
  have hsame := runStarted_replace_host (fun _ => rest) id w _ t hrun
  have ht : t = t.replace id id (fun _ => rest) id := by
    injection hrun.symm.trans hsame
  rw [ht]
  rfl

/-- `WRITE CMD`, `WAIT` on an idle block, up to the poll that ends the `WAIT`: the state of the command's
atomic step, with the `WAIT` still at the port. -/
theorem run_write_wait (s t : State) (w : Word) (rest lines : List Input) (hi : s.phase = .idle)
    (h : step { s with port := .command w :: rest } = .next t) :
    ∃ m v, ∀ j, Sys2Proof.core.run (j + m) { s with port := lineWrite .cmd w :: .wait :: lines } =
      Sys2Proof.core.run j { t with port := .wait :: lines, readData := v } := by
  have hstart : step { s with port := lineWrite .cmd w :: .wait :: lines } =
      .next (State.start w { s with port := .wait :: lines }) := step_store_cmd_idle _ w _ hi rfl
  obtain ⟨t', hrun, hend, a, _, hsteps⟩ :=
    runStarted_blockSteps w { s with port := .wait :: lines, readData := (s.start w).status }
  have hrep := runStarted_replace_host (fun _ => .wait :: lines) (fun _ => (s.start w).status) w _ t
    (runStarted_of_step s t w rest hi h)
  have ht : t' = { t with port := .wait :: lines, readData := (s.start w).status } := by
    injection hrun.symm.trans hrep
  subst ht
  obtain ⟨m, hm⟩ := run_wait_busy a (State.start w { s with port := .wait :: lines }) _ lines rfl rfl
    hsteps hend
  exact ⟨m + 1, _, fun j => (core_run_succ (j + m) _ _ hstart).trans (hm j)⟩

/-- Settles O59: the `WAIT` ends in the state of the atomic step (`run_write_wait`); idle, it is followed by
the load of `RESULT`, and faulted, it drops the program's last line with the rest. -/
theorem scriptReturnsTheCommandsResult : Obligations.ScriptReturnsTheCommandsResult := by
  intro s t w rest hi h
  obtain rfl := step_command_port s t w rest hi h
  obtain ⟨m, v, hrun⟩ := run_write_wait s t w t.port (lineRead .result :: t.port) hi h
  have hwait := step_wait { t with port := .wait :: lineRead .result :: t.port, readData := v }
    (lineRead .result :: t.port) rfl
  refine ⟨fun ht => ⟨2 + m, (hrun 2).trans ?_⟩, fun c ht => ⟨1 + m, (hrun 1).trans ?_⟩⟩
  · have hpoll := hwait.trans (congrArg _ (poll_idle (lineRead .result :: t.port) _ ht))
    exact (core_run_succ 1 _ _ hpoll).trans (core_run_succ 0 _ _ (step_load _ 0x10 t.port rfl rfl))
  · exact core_run_succ 0 _ _ (hwait.trans (congrArg _ (poll_faulted _ _ c ht)))

end Sys2Proof.Machine
end

section
/-! PROOF (40_expansion.md R110 to R114). `EXPAND` in the terms of the magnitude code: its absolute value is
`magnitude (magnitudeCodeOf a)` and its sign is bit 7 of the code (`expand_eq`). What the rules say of the
absolute value is then a fact about `magnitude`, which is strictly increasing. -/

namespace Sys2Proof.Machine

/-! ## The magnitude of a magnitude code -/

/-- A magnitude code is `{seg, m}` (R113), and its magnitude is the formula of R111. -/
theorem magnitude_fields (s m : Nat) (hm : m < 16) :
    magnitude (16 * s + m) = if s = 0 then (2 * m + 1) * 2 ^ 3 else (2 * m + 33) * 2 ^ (s + 2) := by
  have hs : (16 * s + m) / 16 = s := by omega
  have ht : (16 * s + m) % 16 = m := by omega
  rw [magnitude, hs, ht]
  rfl

/-- In a segment the magnitude is linear in the mantissa (R111's table). -/
theorem magnitude_linear (s m : Nat) (hm : m < 16) :
    magnitude (16 * s + m) = magnitude (16 * s) + 2 ^ (max s 1 + 3) * m := by
  rw [magnitude_fields s m hm, ← Nat.add_zero (16 * s), magnitude_fields s 0 (by omega)]
  cases s with
  | zero =>
    rw [if_pos rfl, if_pos rfl, max_eq_right (by omega)]
    ring
  | succ s =>
    rw [if_neg s.succ_ne_zero, if_neg s.succ_ne_zero, max_eq_left (by omega)]
    ring

/-- The last magnitude of a segment is below the first of the next one. -/
theorem magnitude_segment_end_lt (s : Nat) : magnitude (16 * s + 15) < magnitude (16 * (s + 1)) := by
  rw [magnitude_fields s 15 (by omega), ← Nat.add_zero (16 * (s + 1)),
    magnitude_fields (s + 1) 0 (by omega), if_neg s.succ_ne_zero]
  cases s with
  | zero => decide
  | succ s =>
    rw [if_neg s.succ_ne_zero, Nat.pow_succ 2 (s + 1 + 2)]
    have := Nat.two_pow_pos (s + 1 + 2)
    omega

theorem magnitude_strictMono : StrictMono magnitude := by
  refine strictMono_nat_of_lt_succ fun i => ?_
  obtain ⟨s, m, hm, rfl⟩ : ∃ s m, m < 16 ∧ i = 16 * s + m := ⟨i / 16, i % 16, by omega, by omega⟩
  by_cases hend : m = 15
  · subst hend
    exact magnitude_segment_end_lt s
  · rw [Nat.add_assoc, magnitude_linear s m hm, magnitude_linear s (m + 1) (by omega)]
    have := Nat.two_pow_pos (max s 1 + 3)
    rw [Nat.mul_succ]
    omega

theorem magnitude_ge (i : Nat) : 8 ≤ magnitude i := magnitude_strictMono.monotone i.zero_le

theorem magnitude_le (i : Nat) (hi : i < 128) : magnitude i ≤ 32256 :=
  magnitude_strictMono.monotone (Nat.le_of_lt_succ hi)

/-! ## The fields of a code -/

theorem magnitudeCodeOf_eq_mod (a : Byte) : magnitudeCodeOf a = (a ^^^ 0x55).toNat % 128 :=
  BitVec.extractLsb'_toNat 0 7 (a ^^^ 0x55)

theorem magnitudeCodeOf_lt (a : Byte) : magnitudeCodeOf a < 128 := BitVec.isLt _

theorem mantissaOf_lt (a : Byte) : mantissaOf a < 16 := BitVec.isLt _

theorem segmentOf_eq_div_mod (a : Byte) : segmentOf a = (a ^^^ 0x55).toNat / 16 % 8 := by
  rw [segmentOf, BitVec.extractLsb'_toNat, Nat.shiftRight_eq_div_pow]

theorem mantissaOf_eq_mod (a : Byte) : mantissaOf a = (a ^^^ 0x55).toNat % 16 :=
  BitVec.extractLsb'_toNat 0 4 (a ^^^ 0x55)

/-- `M(a) = {seg, m}` (R113). -/
theorem magnitudeCodeOf_eq_fields (a : Byte) : magnitudeCodeOf a = 16 * segmentOf a + mantissaOf a := by
  rw [magnitudeCodeOf_eq_mod, segmentOf_eq_div_mod, mantissaOf_eq_mod]
  omega

/-- Bit 7 of `0x55` is 0 (R112). -/
theorem getLsbD_seven_xor (a : Byte) : (a ^^^ 0x55).getLsbD 7 = a.getLsbD 7 := by
  rw [BitVec.getLsbD_xor, show (0x55 : Byte).getLsbD 7 = false from rfl, Bool.xor_false]

theorem getLsbD_seven_eq (a : Byte) : a.getLsbD 7 = decide (128 ≤ a.toNat) :=
  BitVec.msb_eq_decide a

/-- A code is its magnitude code and its bit 7 (R113). -/
theorem code_ext (a b : Byte) (hcode : magnitudeCodeOf a = magnitudeCodeOf b)
    (hsign : a.getLsbD 7 = b.getLsbD 7) : a = b := by
  rw [magnitudeCodeOf_eq_mod, magnitudeCodeOf_eq_mod] at hcode
  rw [← getLsbD_seven_xor a, ← getLsbD_seven_xor b, getLsbD_seven_eq, getLsbD_seven_eq,
    decide_eq_decide] at hsign
  have ha := (a ^^^ 0x55).isLt
  have hb := (b ^^^ 0x55).isLt
  exact (BitVec.xor_left_inj 0x55).mp (BitVec.eq_of_toNat_eq (by omega))

/-! ## The expansion of a code -/

/-- The mantissa step of R110. -/
theorem toNat_and_mantissaMask (b : Byte) : (b &&& 0x0F).toNat = b.toNat % 16 := by
  rw [BitVec.toNat_and]
  exact Nat.and_two_pow_sub_one_eq_mod b.toNat 4

/-- The segment step of R110. -/
theorem toNat_and_segmentMask_shift (b : Byte) :
    ((b &&& 0x70) >>> (4 : Nat)).toNat = b.toNat / 16 % 8 := by
  rw [BitVec.toNat_ushiftRight, BitVec.toNat_and, Nat.shiftRight_and_distrib,
    Nat.shiftRight_eq_div_pow]
  exact Nat.and_two_pow_sub_one_eq_mod (b.toNat / 16) 3

/-- `EXPAND` is the magnitude of the magnitude code, with the sign of the code's own bit 7. -/
theorem expand_eq (a : Byte) :
    expand a = if a.getLsbD 7 then (magnitude (magnitudeCodeOf a) : Int)
      else -(magnitude (magnitudeCodeOf a) : Int) := by
  rw [magnitudeCodeOf_eq_fields, magnitude_fields _ _ (mantissaOf_lt a), expand,
    toNat_and_mantissaMask, toNat_and_segmentMask_shift, ← mantissaOf_eq_mod, ← segmentOf_eq_div_mod,
    getLsbD_seven_xor, Nat.shiftLeft_eq, Nat.shiftLeft_eq]

theorem natAbs_expand (a : Byte) : (expand a).natAbs = magnitude (magnitudeCodeOf a) := by
  rw [expand_eq]
  cases a.getLsbD 7 with
  | true => exact Int.natAbs_natCast _
  | false => exact (Int.natAbs_neg _).trans (Int.natAbs_natCast _)

/-- Settles O37: the absolute value is `magnitude` of segment and mantissa, which lies between its values
at the magnitude codes 0 and 127 and is linear within a segment. -/
theorem expansionMagnitudes : Obligations.ExpansionMagnitudes := by
  refine ⟨fun a => ?_, fun row hrow a hseg => ?_⟩
  · have hmin := magnitude_ge (magnitudeCodeOf a)
    have hmax := magnitude_le _ (magnitudeCodeOf_lt a)
    rw [← natAbs_expand] at hmin hmax
    refine ⟨by omega, by omega, by omega, hmin, hmax, ?_⟩
    rw [natAbs_expand, magnitudeCodeOf_eq_fields, magnitude_fields _ _ (mantissaOf_lt a)]
  · have hends : row.2.1 = magnitude (16 * row.1) ∧ row.2.2.2 = 2 ^ (max row.1 1 + 3) ∧
        row.2.2.1 = row.2.1 + row.2.2.2 * 15 := by
      clear hseg
      revert row
      decide
    obtain ⟨hfirst, hstep, hlast⟩ := hends
    have hlinear : (expand a).natAbs = row.2.1 + row.2.2.2 * mantissaOf a := by
      rw [natAbs_expand, magnitudeCodeOf_eq_fields, magnitude_linear _ _ (mantissaOf_lt a), hseg, hfirst,
        hstep]
    refine ⟨fun hm => ?_, fun hm => ?_, hlinear⟩
    · rw [hlinear, hm, Nat.mul_zero, Nat.add_zero]
    · rw [hlinear, hm, hlast]

/-- Settles O38: bit 7 is set from `0x80` on, and no magnitude is 0. -/
theorem expansionSignIsBitSeven : Obligations.ExpansionSignIsBitSeven := by
  intro a
  have hpos := magnitude_ge (magnitudeCodeOf a)
  have hexp := expand_eq a
  rw [getLsbD_seven_eq] at hexp
  refine ⟨getLsbD_seven_xor a, fun h => ?_, fun h => ?_⟩
  · rw [hexp, if_pos (decide_eq_true h)]
    omega
  · rw [hexp, if_neg (by simp only [decide_eq_true_eq]; omega)]
    omega

/-! ## The two codes of a magnitude code -/

/-- `(i ^ 0x55) ^ 0x55 = i` (R113). -/
theorem magnitudeCodeOf_negativeCode (i : Nat) (hi : i < 128) : magnitudeCodeOf (negativeCode i) = i := by
  rw [magnitudeCodeOf_eq_mod, negativeCode, BitVec.xor_assoc, BitVec.xor_self, BitVec.xor_zero,
    BitVec.toNat_ofNat]
  omega

/-- `(i ^ 0xD5) ^ 0x55 = i ^ 0x80` (R113). -/
theorem magnitudeCodeOf_positiveCode (i : Nat) (hi : i < 128) : magnitudeCodeOf (positiveCode i) = i := by
  rw [magnitudeCodeOf_eq_mod, positiveCode, BitVec.xor_assoc, BitVec.toNat_xor, BitVec.toNat_ofNat,
    show ((0xD5 : Byte) ^^^ 0x55).toNat = 2 ^ 7 from rfl, show 128 = 2 ^ 7 from rfl, Nat.xor_mod_two_pow,
    Nat.mod_self, Nat.xor_zero]
  omega

theorem getLsbD_seven_ofNat (i : Nat) (hi : i < 128) : (BitVec.ofNat 8 i).getLsbD 7 = false := by
  rw [getLsbD_seven_eq, BitVec.toNat_ofNat, decide_eq_false_iff_not]
  omega

theorem expand_positiveCode (i : Nat) (hi : i < 128) : expand (positiveCode i) = magnitude i := by
  have hsign : (positiveCode i).getLsbD 7 = true := by
    rw [positiveCode, BitVec.getLsbD_xor, getLsbD_seven_ofNat i hi]
    rfl
  rw [expand_eq, magnitudeCodeOf_positiveCode i hi, if_pos hsign]

theorem expand_negativeCode (i : Nat) (hi : i < 128) : expand (negativeCode i) = -(magnitude i : Int) := by
  have hsign : (negativeCode i).getLsbD 7 = false := by
    rw [negativeCode, getLsbD_seven_xor, getLsbD_seven_ofNat i hi]
  rw [expand_eq, magnitudeCodeOf_negativeCode i hi, hsign, if_neg Bool.false_ne_true]

/-- Settles O39: `magnitude` is strictly increasing, and a code is its magnitude code and its bit 7. -/
theorem magnitudeCodesAreOrdered : Obligations.MagnitudeCodesAreOrdered := by
  refine ⟨fun a b h => ?_, code_ext, fun i hi => ⟨expand_positiveCode i hi, expand_negativeCode i hi⟩⟩
  rw [natAbs_expand, natAbs_expand]
  exact magnitude_strictMono h

/-! ## The expansion as combinational logic -/

theorem extract_segment_xor (a : Byte) : (a.extractLsb' 4 3 ^^^ 0b101).toNat = segmentOf a := by
  rw [segmentOf, BitVec.extractLsb'_xor]
  rfl

theorem extract_mantissa_xor (a : Byte) : (a.extractLsb' 0 4 ^^^ 0b0101).toNat = mantissaOf a := by
  rw [mantissaOf, BitVec.extractLsb'_xor]
  rfl

/-- `{m, 1, 000}` is `(2m + 1) << 3`. -/
theorem toNat_mantissa_one_zeros :
    ∀ m : BitVec 4, (m ++ (1 : BitVec 1) ++ (0 : BitVec 3)).toNat = (2 * m.toNat + 1) * 2 ^ 3 := by
  decide

/-- `{1, m, 1}` is `33 + 2m`. -/
theorem toNat_one_mantissa_one :
    ∀ m : BitVec 4, ((1 : BitVec 1) ++ m ++ (1 : BitVec 1)).toNat = 2 * m.toNat + 33 := by
  decide

/-- Settles O40: the bits spell the formula of R111 for the segment and the mantissa. -/
theorem expansionAsCombinationalLogic : Obligations.ExpansionAsCombinationalLogic := by
  intro a seg m mag
  have hseg : seg.toNat = segmentOf a := extract_segment_xor a
  have hm : m.toNat = mantissaOf a := extract_mantissa_xor a
  have hzero : seg = 0 ↔ seg.toNat = 0 := BitVec.toNat_eq
  have hmag : mag = magnitude (magnitudeCodeOf a) := by
    rw [magnitudeCodeOf_eq_fields, magnitude_fields _ _ (mantissaOf_lt a), ← hm, ← hseg,
      ← toNat_mantissa_one_zeros, ← toNat_one_mantissa_one]
    exact if_congr hzero rfl rfl
  rw [expand_eq, hmag]

end Sys2Proof.Machine
end

section
/-! PROOF (41_decoder.md R132). `FRAME_LEN` by its three cases: the length where no frame is dropped, and
otherwise the whole frames `ch * (len / ch)`. -/

namespace Sys2Proof.Machine

theorem frameLen_of_nonpos (len ch : Int) (hch : ch ≤ 0) : frameLen len ch = len :=
  if_neg fun ⟨hpos, _⟩ => absurd hpos hch.not_gt

/-- Frames of one sample are never partial. -/
theorem frameLen_one (len : Int) : frameLen len 1 = len :=
  if_neg fun ⟨_, hmod, _⟩ => hmod (Int.emod_one len)

/-- No whole frame fits. -/
theorem frameLen_of_lt (len ch : Int) (hlen : 0 < len) (hlt : len < ch) : frameLen len ch = len := by
  refine if_neg fun ⟨hch, _, hge⟩ => ?_
  rw [Int.emod_eq_of_lt hlen.le hlt] at hge
  omega

theorem le_mul_ediv (len ch : Int) (hch : 0 < ch) (hle : ch ≤ len) : ch ≤ ch * (len / ch) :=
  le_mul_of_one_le_right hch.le ((Int.le_ediv_iff_mul_le hch).2 (by rwa [Int.one_mul]))

/-- At least one whole frame fits. -/
theorem frameLen_of_le (len ch : Int) (hch : 0 < ch) (hle : ch ≤ len) :
    frameLen len ch = ch * (len / ch) := by
  have hfit := le_mul_ediv len ch hch hle
  have hdiv := Int.mul_ediv_add_emod len ch
  unfold frameLen
  split
  · omega
  · next hn =>
    have hmod : len % ch = 0 := by
      by_contra hmod
      exact hn ⟨hch, hmod, by omega⟩
    omega

/-- `FRAME_LEN` of a positive length is positive and at most that length. -/
theorem frameLen_bounds (len ch : Int) (hlen : 0 < len) :
    1 ≤ frameLen len ch ∧ frameLen len ch ≤ len := by
  by_cases hch : 0 < ch
  · by_cases hle : ch ≤ len
    · rw [frameLen_of_le len ch hch hle]
      have hfit := le_mul_ediv len ch hch hle
      exact ⟨by omega, Int.mul_ediv_self_le hch.ne'⟩
    · rw [frameLen_of_lt len ch hlen (by omega)]
      exact ⟨hlen, le_rfl⟩
  · rw [frameLen_of_nonpos len ch (by omega)]
    exact ⟨hlen, le_rfl⟩

/-- Settles O35, by the cases of `frameLen`; a multiple `ch * q` that is at most `len` has
`q ≤ len / ch`. -/
theorem frameLenDropsATrailingPartialFrame : Obligations.FrameLenDropsATrailingPartialFrame := by
  intro len ch hlen
  refine ⟨frameLen_bounds len ch hlen, fun hch hle => ?_, fun _ hlt => frameLen_of_lt len ch hlen hlt,
    fun h => ?_⟩
  · rw [frameLen_of_le len ch hch hle]
    refine ⟨Int.dvd_mul_right _ _, ?_⟩
    rintro _ ⟨q, rfl⟩ hq
    have hquot : q ≤ len / ch := (Int.le_ediv_iff_mul_le hch).2 (by rwa [Int.mul_comm])
    exact Int.mul_le_mul_of_nonneg_left hquot hch.le
  · rcases h with hch | rfl
    · exact frameLen_of_nonpos len ch hch
    · exact frameLen_one len

end Sys2Proof.Machine
end

section
/-! PROOF (41_decoder.md R130). The table of a live decoder slot: the invariant names it, and every
`EXPAND` value is a 16-bit signed value, so its pattern reads back as the value. -/

namespace Sys2Proof.Machine

theorem toInt_u16_expand (c : Byte) : (u16 (expand c)).toInt = expand c := by
  have hmax := magnitude_le _ (magnitudeCodeOf_lt c)
  rw [← natAbs_expand] at hmax
  exact BitVec.toInt_ofInt_eq_self (by decide) (by omega) (by omega)

/-- Settles O41: the slot's table is `expansionTable`, by the invariant. -/
theorem liveDecoderTableIsTheExpansion : Obligations.LiveDecoderTableIsTheExpansion := by
  intro s h x hs hx c
  have htable : x.table = expansionTable := hs.tables.2 x hx.mem hx.2
  rw [htable, expansionOf_expansionTable]
  exact ⟨rfl, toInt_u16_expand c⟩

end Sys2Proof.Machine
end

section
/-! SUPPORT (20_memory.md R50, R55). Which bytes a transform's loop may write: element `K` writes `width`
bytes at `out + width * K`, so the loop writes the bytes of its elements and no other. -/

namespace Sys2Proof.Machine

/-- An element leaves every byte outside its own `width` output bytes as it was. -/
def WritesItsOutput {τ : Type} (width : Nat) (e : Slot τ → State → Progress) : Prop :=
  ∀ slot s a, a < s.outAddress + width * s.k ∨ s.outAddress + width * (s.k + 1) ≤ a →
    (e slot s).state.mem.read a = s.mem.read a

theorem ElementFrame.outAddress_eq {s t : State} (h : ElementFrame s t) :
    t.outAddress = s.outAddress := by
  unfold ElementFrame at h
  rw [h]
  rfl

@[simp] theorem Progress.finish_mem (r : Word) (p : Progress) : (p.finish r).mem = p.state.mem := by
  cases p <;> rfl

section Outputs

variable {τ : Type} {width : Nat} {e : Slot τ → State → Progress} (he : IsElement e)
  (hw : WritesItsOutput width e)
include he hw

theorem runElements_read_outside (slot : Slot τ) (i : Nat) (s : State) (a : Nat)
    (ha : a < s.outAddress + width * s.k ∨ s.outAddress + width * (s.k + i) ≤ a) :
    (runElements (e slot) i s).state.mem.read a = s.mem.read a := by
  induction i generalizing s with
  | zero => rfl
  | succ i ih =>
    have hfirst : width * (s.k + 1) ≤ width * (s.k + (i + 1)) :=
      Nat.mul_le_mul_left width (by omega)
    have hread := hw slot s a (by omega)
    have hf := he.frame slot s
    rw [runElements]
    cases hr : e slot s with
    | stopped t =>
      rw [hr] at hread
      exact hread
    | running t =>
      rw [hr, Progress.state_running] at hread hf
      have hk : t.k = s.k + 1 := he.running_k slot s t hr
      have hnext : width * s.k ≤ width * (s.k + 1) := Nat.mul_le_mul_left width (by omega)
      rw [← hread]
      refine ih t ?_
      rw [hf.outAddress_eq, hk, Nat.add_assoc, Nat.add_comm 1 i]
      omega

/-- A whole transform leaves every byte outside its output buffer as it was, and every byte where its
checks do not let the loop run. -/
theorem runPlan_read_outside (p : Plan τ) (s : State) (a : Nat)
    (ha : ∀ slot m r, p = .loop slot m r → a < s.outAddress ∨ s.outAddress + width * m ≤ a) :
    (runPlan e p s).mem.read a = s.mem.read a := by
  cases p with
  | fault c => rfl
  | done r => rfl
  | loop slot m r =>
    rw [runPlan, Progress.finish_mem]
    refine runElements_read_outside he hw slot m { s with n := m, k := 0 } a ?_
    rw [Nat.mul_zero, Nat.add_zero, Nat.zero_add]
    exact ha slot m r rfl

end Outputs

end Sys2Proof.Machine
end

section
/-! PROOF (41_decoder.md R133, R136). `DEC_DECODE`: the whole loop where every access is admitted, the
samples it leaves, and its frame however it ends. -/

namespace Sys2Proof.Machine

/-- The recursion of a decode reads neither `N` nor `K`. -/
theorem decodedUpTo_counters (t : ExpansionTable) (s : State) (n k m : Nat) :
    decodedUpTo t { s with n := n, k := k } m = decodedUpTo t s m := by
  induction m with
  | zero => rfl
  | succ m ih => rw [decodedUpTo, decodedUpTo, ih]; rfl

/-- A decode whose checks let its loop run, of `m` elements that the memory admits. -/
theorem runPlan_decode_admitted (slot : DecSlot) (m : Nat) (r : Word) (s : State)
    (h : ∀ k, k < m → DecodeElementAdmitted s k) :
    runPlan decodeElement (.loop slot m r) s =
      { s with mem := decodedUpTo slot.table s m, result := r, phase := .idle, k := m, n := m } := by
  have hloop := runElements_decode slot { s with n := m } m h
  rw [decodedUpTo_counters slot.table s m s.k m] at hloop
  rw [runPlan, hloop]
  rfl

/-- Settles O25: the checks let the loop run (`decodePlan_loop`), and the loop is that of
`runPlan_decode_admitted`. -/
theorem decodeCompletes : Obligations.DecodeCompletes := by
  intro s h x hx hg hn hin hout hadm
  rw [exec_next_iff, afterCommand, decodePlan_loop s h x hx hg hn hin hout,
    runPlan_decode_admitted x _ _ s hadm]

/-- With disjoint buffers no element before `k` has written the code that element `k` reads. -/
theorem codeRead_of_disjoint (t : ExpansionTable) (s : State) (m k : Nat) (hk : k < m)
    (hdis : s.inAddress + m ≤ s.outAddress ∨ s.outAddress + 2 * m ≤ s.inAddress) :
    codeRead s (decodedUpTo t s k) k = s.mem.read (s.inAddress + k) :=
  decodedUpTo_other t s k _ (by omega)

/-- Settles O27: the completed decode of O25 holds in output sample `k` the table's entry of the code that
element `k` read (`decodedUpTo_out`), and the table is that of O41. -/
theorem decodeWritesTheExpansionsOfItsCodes : Obligations.DecodeWritesTheExpansionsOfItsCodes := by
  intro s h x hs hx hg hn hin hout hadm
  refine ⟨_, decodeCompletes s h x hx hg hn hin hout hadm, rfl, fun k hk => ⟨?_, ?_⟩⟩
  · rw [decodedUpTo_out x.table s hs.memory.1 _ k hk]
    exact (liveDecoderTableIsTheExpansion s h x hs hx _).2
  · exact codeRead_of_disjoint x.table s _ k hk

/-- An element of a decode writes the two bytes of its sample at most. -/
theorem decodeElement_writesItsOutput : WritesItsOutput 2 decodeElement := by
  intro slot s a ha
  have hfirst (v : Byte) : (s.mem.write (s.outAddress + 2 * s.k) v).read a = s.mem.read a :=
    Memory.read_write_ne _ _ _ _ (by omega)
  by_cases h : DecodeElementAdmitted s s.k
  · rw [decodeElement_admitted slot s h]
    exact (Memory.read_write_ne _ _ _ _ (by omega)).trans (hfirst _)
  · rw [decodeElement_not_admitted slot s h, Progress.state_stopped, State.raise_mem]
    split
    · exact hfirst _
    · rfl

/-- Settles O29: the frame of a transform (`runPlan_frame`) and the bytes its loop may write
(`runPlan_read_outside`); a loop runs only for a live slot, with `decodeCount` elements. -/
theorem decodeFrame : Obligations.DecodeFrame := by
  intro h s t hst
  obtain rfl := (exec_next_iff _ s t).1 hst
  refine ⟨?_, fun a ha => ?_⟩
  · exact runPlan_frame decodeElement decodeElement_frame (s.decodePlan h) s
  · refine runPlan_read_outside decodeElement_isElement decodeElement_writesItsOutput _ s a
      fun slot m r hp => ?_
    obtain ⟨hx, _, rfl, _⟩ := decodePlan_loop_inv s h slot m r hp
    have hout := ha slot hx
    omega

end Sys2Proof.Machine
end

section
/-! PROOF (42_encoder.md R165, R167, 41_decoder.md R131, R134). A create on its lowest free slot, and a
destroy. -/

namespace Sys2Proof.Machine

/-- A lowest free slot's handle is not 0, and `firstFree` finds the slot's position. -/
theorem LowestFree.firstFree_eq {τ : Type} {slots : List (Slot τ)} {h : Nat} (hf : LowestFree slots h) :
    0 < h ∧ firstFree slots = some (h - 1) := by
  cases h with
  | zero =>
    obtain ⟨⟨x, hx, _⟩, _⟩ := hf
    cases hx
  | succ i => exact ⟨i.succ_pos, firstFree_lowest slots i hf⟩

/-- Settles O19: `firstFree` finds the slot, and without `CREATE_MAY_FAIL` no draw is made. -/
theorem createTakesTheLowestFreeSlot : Obligations.CreateTakesTheLowestFreeSlot := by
  refine ⟨fun s h hm hl => ?_, fun s h hm hl => ?_⟩
  · obtain ⟨hpos, hf⟩ := hl.firstFree_eq
    rw [exec_next_iff, afterCommand, encCreate_takes s (h - 1) hf (s.drawFails_of_not hm),
      s.afterDraw_of_not hm, Nat.sub_add_cancel hpos]
    rfl
  · obtain ⟨hpos, hf⟩ := hl.firstFree_eq
    rw [exec_next_iff, afterCommand, decCreate_takes s (h - 1) hf (s.drawFails_of_not hm),
      s.afterDraw_of_not hm, Nat.sub_add_cancel hpos]
    rfl

theorem encDestroy_live (s : State) (h : Nat) (x : EncSlot) (hx : LiveAt s.enc h x) :
    s.encDestroy h = State.complete 0 { s with enc := s.enc.set (h - 1) { x with live := false } } := by
  rw [State.encDestroy, nameOf_live _ _ _ hx, release_eq_set _ _ _ hx.1]

theorem decDestroy_live (s : State) (h : Nat) (x : DecSlot) (hx : LiveAt s.dec h x) :
    s.decDestroy h = State.complete 0 { s with dec := s.dec.set (h - 1) { x with live := false } } := by
  rw [State.decDestroy, nameOf_live _ _ _ hx, release_eq_set _ _ _ hx.1]

/-- Settles O21: the live handle by `encDestroy_live` and `decDestroy_live`, the null handle by
definition. -/
theorem destroyClearsLive : Obligations.DestroyClearsLive := by
  refine ⟨fun s h x hx => ?_, fun s h x hx => ?_, fun s => ⟨rfl, rfl⟩⟩
  · rw [exec_next_iff, afterCommand, encDestroy_live s h x hx]
    rfl
  · rw [exec_next_iff, afterCommand, decDestroy_live s h x hx]
    rfl

end Sys2Proof.Machine
end

section
/-! PROOF (60_exceptions.md R200). A transform with a live handle and an invalid argument ends at its
checks. -/

namespace Sys2Proof.Machine

theorem not_goodArguments (s : State) (h : s.larg0 = 0 ∨ s.larg2 = 0 ∨ s.larg1.toInt ≤ 0) :
    ¬ GoodArguments s := by
  rintro ⟨hin, hout, hlen⟩
  rcases h with h | h | h
  · exact hin (congrArg BitVec.toNat h)
  · exact hout (congrArg BitVec.toNat h)
  · exact absurd hlen (not_lt.2 h)

theorem encodePlan_not_good (s : State) (h : Nat) (x : EncSlot) (hx : LiveAt s.enc h x)
    (hg : ¬ GoodArguments s) : s.encodePlan h = .done minusOne := by
  simp only [State.encodePlan, nameOf_live _ _ _ hx, badArguments_of_not_good s hg, if_true]

theorem decodePlan_not_good (s : State) (h : Nat) (x : DecSlot) (hx : LiveAt s.dec h x)
    (hg : ¬ GoodArguments s) : s.decodePlan h = .done minusOne := by
  simp only [State.decodePlan, nameOf_live _ _ _ hx, badArguments_of_not_good s hg, if_true]

/-- Settles O23: the checks answer `-1` at once. -/
theorem invalidArgumentsReturnMinusOne : Obligations.InvalidArgumentsReturnMinusOne := by
  refine ⟨fun s h x hx hbad => ?_, fun s h x hx hbad => ?_⟩
  · rw [exec_next_iff, afterCommand, encodePlan_not_good s h x hx (not_goodArguments s hbad)]
    rfl
  · rw [exec_next_iff, afterCommand, decodePlan_not_good s h x hx (not_goodArguments s hbad)]
    rfl

end Sys2Proof.Machine
end

section
/-! PROOF (42_encoder.md R160, R166, 20_memory.md R55). `ENC_ENCODE`: the whole loop where every access is
admitted, the codes it leaves, and its frame however it ends. -/

namespace Sys2Proof.Machine

/-- The recursion of an encode reads neither `N` nor `K`. -/
theorem encodedUpTo_counters (t : CompressionTable) (s : State) (n k m : Nat) :
    encodedUpTo t { s with n := n, k := k } m = encodedUpTo t s m := by
  induction m with
  | zero => rfl
  | succ m ih => rw [encodedUpTo, encodedUpTo, ih]; rfl

/-- An encode whose checks let its loop run, of `m` elements that the memory admits. -/
theorem runPlan_encode_admitted (slot : EncSlot) (m : Nat) (r : Word) (s : State)
    (h : ∀ k, k < m → EncodeElementAdmitted s k) :
    runPlan encodeElement (.loop slot m r) s =
      { s with mem := encodedUpTo slot.table s m, result := r, phase := .idle, k := m, n := m } := by
  have hloop := runElements_encode slot { s with n := m } m h
  rw [encodedUpTo_counters slot.table s m s.k m] at hloop
  rw [runPlan, hloop]
  rfl

/-- Settles O24: the checks let the loop run (`encodePlan_loop`), and the loop is that of
`runPlan_encode_admitted`. -/
theorem encodeCompletes : Obligations.EncodeCompletes := by
  intro s h x hx hg hfit hadm
  rw [exec_next_iff, afterCommand,
    encodePlan_loop s h x hx hg (hfit.imp_right And.left) (hfit.imp_right And.right),
    runPlan_encode_admitted x _ _ s hadm]

/-- Where the output starts at or before the input, or behind it, no element before `k` has written a byte
of the sample that element `k` reads. -/
theorem sampleAt_of_output_not_inside (t : CompressionTable) (s : State) (m k : Nat) (hk : k < m)
    (hout : s.outAddress ≤ s.inAddress ∨ s.inAddress + 2 * m ≤ s.outAddress) :
    sampleAt s.params.sampleEndian (encodedUpTo t s k) (s.inAddress + 2 * k) =
      sampleAt s.params.sampleEndian s.mem (s.inAddress + 2 * k) := by
  have hread (j : Nat) (hj : j < 2) :
      (encodedUpTo t s k).read (s.inAddress + 2 * k + j) = s.mem.read (s.inAddress + 2 * k + j) :=
    encodedUpTo_other t s k _ (by omega)
  exact congrArg₂ (joinSample s.params.sampleEndian) (hread 0 (by omega)) (hread 1 (by omega))

/-- Settles O26: the completed encode of O24 holds in output byte `k` the code of the sample that element
`k` read (`encodedUpTo_out`), which is the input's own, and the table is the invariant's. -/
theorem encodeWritesTheCodesOfItsSamples : Obligations.EncodeWritesTheCodesOfItsSamples := by
  intro s h x hs hx hg hin hout hadm hplace
  refine ⟨_, encodeCompletes s h x hx hg (.inr ⟨hin, hout⟩) hadm, rfl, rfl, fun k hk => ?_⟩
  have htable : x.table = compressionTable := hs.tables.1 x hx.mem hx.2
  rw [encodedUpTo_out x.table s hs.memory.1 _ k hk,
    sampleAt_of_output_not_inside x.table s _ k hk hplace, htable, encodeSample]

/-- An element of an encode writes the byte of its code at most. -/
theorem encodeElement_writesItsOutput : WritesItsOutput 1 encodeElement := by
  intro slot s a ha
  by_cases h : EncodeElementAdmitted s s.k
  · rw [encodeElement_admitted slot s h]
    exact Memory.read_write_ne _ _ _ _ (by omega)
  · rw [encodeElement_refused slot s h]
    rfl

/-- Settles O28: the frame of a transform (`runPlan_frame`) and the bytes its loop may write
(`runPlan_read_outside`); a loop runs with `encodeCount` elements. -/
theorem encodeFrame : Obligations.EncodeFrame := by
  intro h s t hst
  obtain rfl := (exec_next_iff _ s t).1 hst
  refine ⟨?_, fun a ha => ?_⟩
  · exact runPlan_frame encodeElement encodeElement_frame (s.encodePlan h) s
  · refine runPlan_read_outside encodeElement_isElement encodeElement_writesItsOutput _ s a
      fun slot m r hp => ?_
    obtain ⟨_, _, rfl, _⟩ := encodePlan_loop_inv s h slot m r hp
    omega

end Sys2Proof.Machine
end

section
/-! SUPPORT (42_encoder.md R161, R168, R169). The boundaries between the magnitude codes, the magnitude
code `I(j)` of a distance `j` from the table's centre, and the closed form `CODE(k)`. -/

namespace Sys2Proof.Machine

/-! ## The boundaries -/

/-- Every magnitude is a multiple of 8 (R111). -/
theorem eight_dvd_magnitude (i : Nat) : 8 ∣ magnitude i := by
  rw [magnitude]
  split
  · exact Nat.dvd_mul_left 8 _
  · exact Dvd.dvd.mul_left (pow_dvd_pow 2 (show 3 ≤ i / 16 + 2 by omega)) _

/-- In samples, a boundary is the middle of its two magnitudes. -/
theorem two_mul_four_mul_boundaryV (i : Nat) :
    2 * (4 * boundaryV i) = magnitude i + magnitude (i + 1) := by
  have h0 := eight_dvd_magnitude i
  have h1 := eight_dvd_magnitude (i + 1)
  rw [boundaryV]
  omega

theorem boundaryV_mono : Monotone boundaryV := fun i j hij => by
  have h0 := magnitude_strictMono.monotone hij
  have h1 : magnitude (i + 1) ≤ magnitude (j + 1) :=
    magnitude_strictMono.monotone (Nat.add_le_add_right hij 1)
  exact Nat.div_le_div_right (by omega)

/-- The last boundary is `V[126] = 7936` (R161). -/
theorem boundaryV_le (i : Nat) (hi : i < 127) : boundaryV i ≤ 7936 :=
  boundaryV_mono (Nat.le_of_lt_succ hi)

/-- The boundaries that the build computes from `EXPAND` are those of the closed form. -/
theorem boundary_eq_boundaryV (i : Nat) (hi : i < 127) : boundary i = boundaryV i := by
  rw [boundary, expand_positiveCode i (by omega), expand_positiveCode (i + 1) (by omega), boundaryV,
    Int.shiftRight_eq_div_pow]
  omega

/-! ## The magnitude code of a distance -/

/-- `I(j)` (R168). -/
def magnitudeCodeAt (j : Nat) : Nat :=
  Nat.find (p := fun i => j < boundaryV i ∨ i = 127) ⟨127, .inr rfl⟩

theorem isMagnitudeCode_iff (j c : Nat) : IsMagnitudeCode j c ↔ magnitudeCodeAt j = c := by
  rw [magnitudeCodeAt, Nat.find_eq_iff]
  constructor
  · rintro ⟨hle, hbelow, hat⟩
    refine ⟨?_, fun i hi => ?_⟩
    · by_cases hc : c < 127
      · exact .inl (hat hc)
      · exact .inr (by omega)
    · have := hbelow i hi
      omega
  · rintro ⟨hat, hbelow⟩
    refine ⟨?_, fun i hi => ?_, fun hc => ?_⟩
    · by_contra hc
      exact hbelow 127 (by omega) (.inr rfl)
    · have := hbelow i hi
      omega
    · omega

theorem magnitudeCodeAt_spec (j : Nat) : IsMagnitudeCode j (magnitudeCodeAt j) :=
  (isMagnitudeCode_iff j _).2 rfl

theorem magnitudeCodeAt_lt (j : Nat) : magnitudeCodeAt j < 128 :=
  Nat.lt_succ_of_le (magnitudeCodeAt_spec j).1

theorem magnitudeCodeAt_mono : Monotone magnitudeCodeAt := by
  intro j j' hj
  obtain ⟨_, hbelow, _⟩ := magnitudeCodeAt_spec j
  obtain ⟨_, _, hat⟩ := magnitudeCodeAt_spec j'
  have hlt := magnitudeCodeAt_lt j
  by_contra hc
  have := hbelow _ (not_le.1 hc)
  have := hat (by omega)
  omega

/-- From the last boundary on, the magnitude code is 127. -/
theorem magnitudeCodeAt_of_ge (j : Nat) (hj : 7936 ≤ j) : magnitudeCodeAt j = 127 :=
  (isMagnitudeCode_iff j 127).1
    ⟨le_rfl, fun i hi => (boundaryV_le i hi).trans hj, fun h => absurd h (lt_irrefl 127)⟩

/-- The magnitude code 0 is that of the distances below `V[0] = 4`. -/
theorem magnitudeCodeAt_eq_zero_iff (j : Nat) : magnitudeCodeAt j = 0 ↔ j < 4 := by
  rw [← isMagnitudeCode_iff]
  exact ⟨fun h => h.2.2 (by omega), fun h => ⟨by omega, nofun, fun _ => h⟩⟩

/-- A magnitude, seen as a distance in the table, has its own magnitude code. -/
theorem magnitudeCodeAt_magnitude (c : Nat) (hc : c < 128) : magnitudeCodeAt (magnitude c / 4) = c := by
  refine (isMagnitudeCode_iff _ c).1 ⟨by omega, fun i hi => ?_, fun _ => ?_⟩
  · have hlt := magnitude_strictMono hi
    have hle : magnitude (i + 1) ≤ magnitude c := magnitude_strictMono.monotone hi
    have := two_mul_four_mul_boundaryV i
    omega
  · have hlt : magnitude c < magnitude (c + 1) := magnitude_strictMono c.lt_succ_self
    have := two_mul_four_mul_boundaryV c
    have := eight_dvd_magnitude c
    have := eight_dvd_magnitude (c + 1)
    omega

/-! ## The closed form of the table -/

/-- `CODE(k)` (R168). -/
def tableCode (k : Nat) : Byte :=
  if 8192 ≤ k then positiveCode (magnitudeCodeAt (k - 8192))
  else negativeCode (magnitudeCodeAt (8192 - k))

theorem tableCode_above (j : Nat) : tableCode (8192 + j) = positiveCode (magnitudeCodeAt j) := by
  rw [tableCode, if_pos (by omega), Nat.add_sub_cancel_left]

theorem tableCode_below (j : Nat) (h0 : 0 < j) (hj : j ≤ 8192) :
    tableCode (8192 - j) = negativeCode (magnitudeCodeAt j) := by
  rw [tableCode, if_neg (by omega), Nat.sub_sub_self hj]

theorem tableCode_centre : tableCode 8192 = 0xD5 := by
  rw [← Nat.add_zero 8192, tableCode_above, (magnitudeCodeAt_eq_zero_iff 0).2 (by omega)]
  rfl

/-- The lowest indices have the negative code of the magnitude code 127. -/
theorem tableCode_far_below (j : Nat) (h0 : 7936 ≤ j) (hj : j ≤ 8192) : tableCode (8192 - j) = 0x2A := by
  rw [tableCode_below j (by omega) hj, magnitudeCodeAt_of_ge j h0]
  rfl

/-- The fix-up of R164 gives index 0 the code that `CODE(0)` names. -/
theorem tableCode_zero_eq_one : tableCode 0 = tableCode 1 :=
  (tableCode_far_below 8192 (by omega) le_rfl).trans
    (tableCode_far_below 8191 (by omega) (by omega)).symm

theorem expand_tableCode_above (j : Nat) :
    expand (tableCode (8192 + j)) = magnitude (magnitudeCodeAt j) := by
  rw [tableCode_above, expand_positiveCode _ (magnitudeCodeAt_lt j)]

theorem expand_tableCode_below (j : Nat) (h0 : 0 < j) (hj : j ≤ 8192) :
    expand (tableCode (8192 - j)) = -(magnitude (magnitudeCodeAt j) : Int) := by
  rw [tableCode_below j h0 hj, expand_negativeCode _ (magnitudeCodeAt_lt j)]

/-- An index is on the centre or above it, or below it, at some distance. -/
theorem index_cases (k : Nat) :
    (∃ j, k = 8192 + j) ∨ ∃ j, 0 < j ∧ j ≤ 8192 ∧ k = 8192 - j := by
  by_cases hk : 8192 ≤ k
  · exact .inl ⟨k - 8192, by omega⟩
  · exact .inr ⟨8192 - k, by omega, by omega, by omega⟩

/-- The magnitude grows with the distance from the centre. -/
theorem magnitude_magnitudeCodeAt_mono : Monotone fun j => magnitude (magnitudeCodeAt j) :=
  magnitude_strictMono.monotone.comp magnitudeCodeAt_mono

theorem expand_tableCode_mono : Monotone fun k => expand (tableCode k) := by
  intro k k' hk
  dsimp only
  rcases index_cases k with ⟨j, rfl⟩ | ⟨j, h0, hj, rfl⟩ <;>
    rcases index_cases k' with ⟨j', rfl⟩ | ⟨j', h0', hj', rfl⟩
  · rw [expand_tableCode_above, expand_tableCode_above]
    exact Int.ofNat_le.2 (magnitude_magnitudeCodeAt_mono (by omega))
  · omega
  · rw [expand_tableCode_below j h0 hj, expand_tableCode_above]
    omega
  · rw [expand_tableCode_below j h0 hj, expand_tableCode_below j' h0' hj']
    exact Int.neg_le_neg (Int.ofNat_le.2 (magnitude_magnitudeCodeAt_mono (by omega)))

end Sys2Proof.Machine
end

section
/-! PROOF (42_encoder.md R161 to R164, R168). The loops of `BUILD_CTABLE` fill the distances from the centre
in rising order, and at each the loop variable `i` is `I(j)` (`schedule_fills`). This is said once of any
fill operation, then used of the model's two lists and of the array writes: both leave `tableCode`. -/

namespace Sys2Proof.Machine

/-! ## The schedule of the loops -/

section Schedule

variable {σ : Type} {fillTo : Nat → Nat → σ → σ} {Filled : Nat → σ → Prop}
  (hfill : ∀ i limit j x, j ≤ 8192 → limit ≤ 8192 →
    (∀ d, j ≤ d → d < limit → magnitudeCodeAt d = i) → Filled j x →
    Filled (max j limit) (fillTo i limit x))
include hfill

/-- After `for i in 0 .. m - 1`, with every boundary so far reached. -/
theorem schedule_codes (j : Nat) (x : σ) (hj : j ≤ 8192) (hx : Filled j x) (m : Nat) (hm : m ≤ 127) :
    ∃ j', j' ≤ 8192 ∧ (∀ i, i < m → boundaryV i ≤ j') ∧
      Filled j' ((List.range m).foldl (fun x i => fillTo i (boundary i) x) x) := by
  induction m with
  | zero => exact ⟨j, hj, nofun, hx⟩
  | succ m ih =>
    obtain ⟨j', hj', hreached, hx'⟩ := ih (by omega)
    have hlimit : boundary m ≤ 8192 := by
      rw [boundary_eq_boundaryV m hm]
      exact (boundaryV_le m hm).trans (by omega)
    rw [List.range_succ, List.foldl_append]
    refine ⟨max j' (boundary m), max_le hj' hlimit, fun i hi => ?_,
      hfill m (boundary m) j' _ hj' hlimit (fun d hd hlt => ?_) hx'⟩
    · rcases Nat.lt_succ_iff_lt_or_eq.1 hi with hi | rfl
      · exact (hreached i hi).trans (le_max_left _ _)
      · rw [boundary_eq_boundaryV i hm]
        exact le_max_right _ _
    · rw [boundary_eq_boundaryV m hm] at hlt
      exact (isMagnitudeCode_iff d m).1
        ⟨by omega, fun i hi => (hreached i hi).trans hd, fun _ => hlt⟩

/-- The whole of the loops fills every distance below 8192. -/
theorem schedule_fills (j : Nat) (x : σ) (hj : j ≤ 8192) (hx : Filled j x) :
    Filled 8192
      (fillTo 127 8192 ((List.range 127).foldl (fun x i => fillTo i (boundary i) x) x)) := by
  obtain ⟨j', hj', hreached, hx'⟩ := schedule_codes hfill j x hj hx 127 le_rfl
  have hend : Filled (max j' 8192) _ := hfill 127 8192 j' _ hj' le_rfl
    (fun d hd _ => magnitudeCodeAt_of_ge d ((hreached 126 (by omega)).trans hd)) hx'
  rwa [max_eq_right hj'] at hend

end Schedule

/-! ## The model's two lists -/

/-- The build with every distance below `j` filled. -/
def Build.upTo (j : Nat) : Build :=
  ⟨j, (List.range' (8193 - j) (j - 1)).map tableCode, ((List.range' 8192 j).map tableCode).reverse⟩

@[simp] theorem Build.upTo_j (j : Nat) : (Build.upTo j).j = j := rfl

theorem Build.seed_eq_upTo : Build.seed = Build.upTo 1 := by
  rw [Build.upTo, List.range'_one, List.map_singleton, tableCode_centre]
  rfl

theorem Build.fill_upTo (j : Nat) (h1 : 1 ≤ j) (hj : j < 8192) :
    (Build.upTo j).fill (magnitudeCodeAt j) = Build.upTo (j + 1) := by
  have hbelow : List.range' (8193 - (j + 1)) (j + 1 - 1) =
      (8192 - j) :: List.range' (8193 - j) (j - 1) := by
    rw [show j + 1 - 1 = j - 1 + 1 by omega, List.range'_succ, show 8193 - (j + 1) = 8192 - j by omega,
      show 8192 - j + 1 = 8193 - j by omega]
  have habove : List.range' 8192 (j + 1) = List.range' 8192 j ++ [8192 + j] := by
    rw [List.range'_concat, Nat.one_mul]
  rw [Build.upTo, Build.upTo, Build.fill, hbelow, habove, List.map_cons, List.map_append,
    List.reverse_append, List.map_singleton, tableCode_above, tableCode_below j h1 hj.le]
  rfl

theorem Build.fills_upTo (i rounds j : Nat) (h1 : 1 ≤ j) (hj : j + rounds ≤ 8192)
    (hi : ∀ d, j ≤ d → d < j + rounds → magnitudeCodeAt d = i) :
    Build.fills i rounds (Build.upTo j) = Build.upTo (j + rounds) := by
  induction rounds generalizing j with
  | zero => rfl
  | succ rounds ih =>
    obtain rfl := hi j le_rfl (by omega)
    rw [Build.fills, Build.fill_upTo j h1 (by omega), ← Nat.succ_add_eq_add_succ j rounds]
    exact ih (j + 1) (by omega) (by omega) fun d h0 h => hi d (by omega) (by omega)

/-- The build has been filled below `j`, the seed at least. -/
def Build.FilledBelow (j : Nat) (b : Build) : Prop := 1 ≤ j ∧ b = Build.upTo j

theorem Build.fillTo_filledBelow (i limit j : Nat) (b : Build) (hj : j ≤ 8192) (hlimit : limit ≤ 8192)
    (hi : ∀ d, j ≤ d → d < limit → magnitudeCodeAt d = i) (hb : b.FilledBelow j) :
    (b.fillTo i limit).FilledBelow (max j limit) := by
  obtain ⟨h1, rfl⟩ := hb
  have hmax : j + (limit - j) = max j limit := by omega
  rw [Build.fillTo, Build.upTo_j, ← hmax]
  exact ⟨by omega, Build.fills_upTo i _ j h1 (by omega) fun d h0 h => hi d h0 (by omega)⟩

theorem Build.whole_eq_upTo : Build.whole = Build.upTo 8192 :=
  (schedule_fills Build.fillTo_filledBelow 1 Build.seed (by omega) ⟨le_rfl, Build.seed_eq_upTo⟩).2

/-- The entries of the whole build, the fix-up included, are `CODE(0), .., CODE(16383)`. -/
theorem Build.whole_entries : Build.whole.entries = (List.range' 0 16384).map tableCode := by
  have hsplit : List.range' 0 16384 = 0 :: (List.range' 1 8191 ++ List.range' 8192 8192) := by
    rw [show List.range' 8192 8192 = List.range' (1 + 1 * 8191) 8192 from rfl, List.range'_append]
    exact List.range'_succ
  have hfirst : List.range' 1 8191 = 1 :: List.range' 2 8190 := List.range'_succ
  rw [Build.whole_eq_upTo, Build.entries, Build.upTo, List.reverse_reverse, hsplit, List.map_cons,
    List.map_append, tableCode_zero_eq_one]
  rw [show List.range' (8193 - 8192) (8192 - 1) = List.range' 1 8191 from rfl, hfirst]
  rfl

theorem compressionTable_get (k : Fin 16384) : compressionTable.get k = tableCode k := by
  rw [Vector.get_eq_getElem, compressionTable, Vector.getElem_mk, List.getElem_toArray,
    List.getElem_of_eq Build.whole_entries, List.getElem_map, List.getElem_range', Nat.zero_add,
    Nat.one_mul]

/-! ## The array writes -/

/-- The array holds the code of every index whose distance from the centre is below `j`. -/
def ArrayHolds (j : Nat) (t : CompressionTable) : Prop :=
  ∀ k : Fin 16384, 8192 < k + j → k < 8192 + j → t.get k = tableCode k

theorem get_setIfInBounds {n : Nat} (t : Vector Byte n) (i : Nat) (v : Byte) (k : Fin n) :
    (t.setIfInBounds i v).get k = if i = k then v else t.get k :=
  Vector.getElem_setIfInBounds k.isLt

theorem arrayRound_holds (j : Nat) (t : CompressionTable) (hj : j < 8192) (h : ArrayHolds j t) :
    ArrayHolds (j + 1) (arrayRound (magnitudeCodeAt j) j t) := by
  intro k hlo hhi
  rw [arrayRound, get_setIfInBounds, get_setIfInBounds]
  split
  · next hk => rw [← hk, tableCode_above]
  · next hk =>
    split
    · next hk' => rw [← hk', tableCode_below j (by omega) hj.le]
    · exact h k (by omega) (by omega)

theorem arrayRounds_holds (i rounds j : Nat) (t : CompressionTable) (hj : j + rounds ≤ 8192)
    (hi : ∀ d, j ≤ d → d < j + rounds → magnitudeCodeAt d = i) (h : ArrayHolds j t) :
    ArrayHolds (j + rounds) (arrayRounds i rounds j t) := by
  induction rounds generalizing j t with
  | zero => exact h
  | succ rounds ih =>
    obtain rfl := hi j le_rfl (by omega)
    rw [arrayRounds, ← Nat.succ_add_eq_add_succ j rounds]
    exact ih (j + 1) _ (by omega) (fun d h0 hd => hi d (by omega) (by omega))
      (arrayRound_holds j t (by omega) h)

/-- The array writes have filled every distance below `j`, the value of the loop variable. -/
def ArrayFilledBelow (j : Nat) (x : Nat × CompressionTable) : Prop := x.1 = j ∧ ArrayHolds j x.2

theorem arrayFillTo_filledBelow (i limit j : Nat) (x : Nat × CompressionTable) (hj : j ≤ 8192)
    (hlimit : limit ≤ 8192) (hi : ∀ d, j ≤ d → d < limit → magnitudeCodeAt d = i)
    (hx : ArrayFilledBelow j x) : ArrayFilledBelow (max j limit) (arrayFillTo i limit x) := by
  obtain ⟨rfl, h⟩ := hx
  have hmax : x.1 + (limit - x.1) = max x.1 limit := by omega
  rw [arrayFillTo, ← hmax]
  exact ⟨rfl, arrayRounds_holds i _ x.1 x.2 (by omega) (fun d h0 hd => hi d h0 (by omega)) h⟩

/-- The seed is the entry of distance 0, which counts as filled where `j` starts at 1. -/
theorem seeded_holds (start : Nat) (t : CompressionTable) (hstart : start ≤ 1) :
    ArrayHolds start (t.setIfInBounds 8192 0xD5) := by
  intro k hlo hhi
  have hk : 8192 = k.val := by omega
  rw [get_setIfInBounds, if_pos hk, ← hk, tableCode_centre]

theorem buildCTable_eq (start : Nat) (t : CompressionTable) (hstart : start ≤ 1) :
    buildCTable start t = compressionTable := by
  obtain ⟨_, hwhole⟩ := schedule_fills arrayFillTo_filledBelow start (start, t.setIfInBounds 8192 0xD5)
    (by omega) ⟨rfl, seeded_holds start t hstart⟩
  refine Vector.ext fun k hk => ?_
  have hget : (buildCTable start t).get ⟨k, hk⟩ = tableCode k := by
    rw [buildCTable, get_setIfInBounds]
    split
    · next h0 =>
      obtain rfl : 0 = k := h0
      exact (hwhole 1 (by decide) (by decide)).trans tableCode_zero_eq_one.symm
    · next h0 => exact hwhole ⟨k, hk⟩ (by dsimp only at *; omega) (by dsimp only at *; omega)
  exact hget.trans (compressionTable_get ⟨k, hk⟩).symm

/-- Settles O43: both forms hold `tableCode` in every entry, and so does the one that starts at 0. -/
theorem tableBuildAgreesWithArrayWrites : Obligations.TableBuildAgreesWithArrayWrites :=
  fun t => ⟨buildCTable_eq 1 t le_rfl, buildCTable_eq 0 t (by omega)⟩

/-- Settles O42: the invariant names the slot's table, and its entries are `tableCode`. -/
theorem liveEncoderTableIsTheClosedForm : Obligations.LiveEncoderTableIsTheClosedForm := by
  intro s h x hs hx k
  have htable : x.table = compressionTable := hs.tables.1 x hx.mem hx.2
  refine ⟨_, magnitudeCodeAt_spec _, ?_⟩
  rw [htable, compressionTable_get, tableCode]
  split <;> rfl

/-- Settles O44: the distances 8192, 8191 and 0 have the magnitude codes 127, 127 and 0. -/
theorem tableEndsAndCentre : Obligations.TableEndsAndCentre := by
  refine ⟨?_, ?_, ?_, ?_⟩
  · exact (compressionTable_get 0).trans (tableCode_far_below 8192 (by omega) le_rfl)
  · exact (compressionTable_get 1).trans (tableCode_far_below 8191 (by omega) (by omega))
  · refine (compressionTable_get 16383).trans ((tableCode_above 8191).trans ?_)
    rw [magnitudeCodeAt_of_ge 8191 (by omega)]
    rfl
  · exact (compressionTable_get 8192).trans tableCode_centre

end Sys2Proof.Machine
end

section
/-! PROOF (42_encoder.md R169, R170). What encoding and decoding do to each other. `ENC(s)` is `CODE` of the
sample's index (`encodeSample_eq`), so `EXPAND(ENC(s))` is, up to its sign, the magnitude of `I(j)` for the
index's distance `j` from the centre, and each rule is a fact about magnitudes and the boundaries between
them. -/

namespace Sys2Proof.Machine

/-! ## The index of a sample -/

theorem encodeSample_eq (p : Sample) : encodeSample p = tableCode (compressionIndex p) :=
  compressionTable_get _

theorem compressionIndex_val (p : Sample) :
    (compressionIndex p : Nat) = ((p.toInt + 32768) / 4).toNat :=
  congrArg Int.toNat (Int.shiftRight_eq_div_pow _ 2)

/-- A sample that is not negative has an index on the centre or above it, at a quarter of its value. -/
theorem compressionIndex_of_nonneg (p : Sample) (hp : 0 ≤ p.toInt) :
    ∃ j : Nat, (compressionIndex p : Nat) = 8192 + j ∧ j ≤ 8192 ∧ 4 * j ≤ p.toInt ∧
      p.toInt ≤ 4 * j + 3 := by
  have hmax := BitVec.toInt_lt (x := p)
  have hval := compressionIndex_val p
  exact ⟨(p.toInt / 4).toNat, by omega, by omega, by omega, by omega⟩

/-- A negative sample has an index below the centre, at a quarter of its absolute value, rounded up. -/
theorem compressionIndex_of_neg (p : Sample) (hp : p.toInt < 0) :
    ∃ j : Nat, (compressionIndex p : Nat) = 8192 - j ∧ 0 < j ∧ j ≤ 8192 ∧ 4 * j ≤ -p.toInt + 3 ∧
      -p.toInt ≤ 4 * j := by
  have hmin := BitVec.le_toInt (x := p)
  have hval := compressionIndex_val p
  exact ⟨((3 - p.toInt) / 4).toNat, by omega, by omega, by omega, by omega, by omega⟩

theorem compressionIndex_mono (p q : Sample) (h : p.toInt ≤ q.toInt) :
    (compressionIndex p : Nat) ≤ compressionIndex q := by
  rw [compressionIndex_val, compressionIndex_val]
  omega

/-! ## Decode, then encode -/

theorem getLsbD_seven_positiveCode (i : Nat) (hi : i < 128) : (positiveCode i).getLsbD 7 = true := by
  rw [positiveCode, BitVec.getLsbD_xor, getLsbD_seven_ofNat i hi]
  rfl

theorem getLsbD_seven_negativeCode (i : Nat) (hi : i < 128) : (negativeCode i).getLsbD 7 = false := by
  rw [negativeCode, getLsbD_seven_xor, getLsbD_seven_ofNat i hi]

/-- Every code is one of the two codes of a magnitude code (R113). -/
theorem code_cases (c : Byte) : ∃ i, i < 128 ∧ (c = positiveCode i ∨ c = negativeCode i) := by
  have hi := magnitudeCodeOf_lt c
  refine ⟨magnitudeCodeOf c, hi, ?_⟩
  cases hsign : c.getLsbD 7 with
  | true =>
    exact .inl (code_ext _ _ (magnitudeCodeOf_positiveCode _ hi).symm
      (hsign.trans (getLsbD_seven_positiveCode _ hi).symm))
  | false =>
    exact .inr (code_ext _ _ (magnitudeCodeOf_negativeCode _ hi).symm
      (hsign.trans (getLsbD_seven_negativeCode _ hi).symm))

/-- The index of a code's expansion is as far from the centre as a quarter of its magnitude, which is a
distance with the code's own magnitude code. -/
theorem encodeSample_u16_expand (c : Byte) : encodeSample (u16 (expand c)) = c := by
  obtain ⟨i, hi, hc⟩ := code_cases c
  have hmin := magnitude_ge i
  have hmax := magnitude_le i hi
  have hdvd := eight_dvd_magnitude i
  rw [encodeSample_eq, compressionIndex_val, toInt_u16_expand]
  rcases hc with rfl | rfl
  · have hk : ((expand (positiveCode i) + 32768) / 4).toNat = 8192 + magnitude i / 4 := by
      rw [expand_positiveCode i hi]
      omega
    rw [hk, tableCode_above, magnitudeCodeAt_magnitude i hi]
  · have hk : ((expand (negativeCode i) + 32768) / 4).toNat = 8192 - magnitude i / 4 := by
      rw [expand_negativeCode i hi]
      omega
    rw [hk, tableCode_below _ (by omega) (by omega), magnitudeCodeAt_magnitude i hi]

/-- Settles O45: the decoder's sample is the code's expansion. -/
theorem decodeThenEncodeIsTheIdentity : Obligations.DecodeThenEncodeIsTheIdentity := by
  intro c
  rw [expansionOf_expansionTable, encodeSample_u16_expand]

/-- `EXPAND` loses nothing, since encoding undoes it. -/
theorem expand_injective : Function.Injective expand :=
  Function.LeftInverse.injective (g := fun v => encodeSample (u16 v)) encodeSample_u16_expand

/-! ## Encode, then decode -/

/-- Settles O46: the index grows with the sample, and the expansion of the table's codes with the index. -/
theorem compandingIsMonotone : Obligations.CompandingIsMonotone := by
  intro p q h
  rw [encodeSample_eq, encodeSample_eq]
  exact expand_tableCode_mono (compressionIndex_mono p q h)

/-- Settles O48: a code is the value of its own expansion's index, and an index between two of one value
has an expansion between two equal ones. -/
theorem eachCodeIsOneRunOfIndices : Obligations.EachCodeIsOneRunOfIndices := by
  refine ⟨fun c => ⟨_, encodeSample_u16_expand c⟩, fun i j k hij hjk h => expand_injective ?_⟩
  rw [compressionTable_get, compressionTable_get] at h ⊢
  have hlo := expand_tableCode_mono hij
  have hhi := expand_tableCode_mono hjk
  dsimp only at hlo hhi
  rw [← h] at hhi
  exact le_antisymm hhi hlo

theorem segmentOf_eq_div (a : Byte) : segmentOf a = magnitudeCodeOf a / 16 := by
  have := magnitudeCodeOf_eq_fields a
  have := mantissaOf_lt a
  omega

/-- R169's largest errors against the steps of R111: half a step up from a magnitude code, and half a step
down to it with the 3 samples that rounding an index adds. -/
theorem magnitude_step_le_largestError : ∀ c, c < 127 →
    magnitude (c + 1) ≤ magnitude c + 2 * largestError (c / 16) + 2 ∧
      magnitude (c + 1) + 6 ≤ magnitude c + 2 * largestError ((c + 1) / 16) := by
  decide

/-- A distance is not far below the magnitude of its magnitude code. -/
theorem magnitude_le_distance (j : Nat) :
    magnitude (magnitudeCodeAt j) + 3 ≤ 4 * j + largestError (magnitudeCodeAt j / 16) := by
  obtain ⟨_, hbelow, _⟩ := magnitudeCodeAt_spec j
  have hlt := magnitudeCodeAt_lt j
  cases hc : magnitudeCodeAt j with
  | zero => exact Nat.le_add_left 11 (4 * j)
  | succ c =>
    have := hbelow c (by omega)
    have := two_mul_four_mul_boundaryV c
    have := (magnitude_step_le_largestError c (by omega)).2
    omega

/-- A distance is not far above the magnitude of its magnitude code. -/
theorem distance_le_magnitude (j : Nat) (hj : j ≤ 8192) :
    4 * j + 3 ≤ magnitude (magnitudeCodeAt j) + largestError (magnitudeCodeAt j / 16) := by
  obtain ⟨hle, _, hat⟩ := magnitudeCodeAt_spec j
  rcases Nat.lt_or_eq_of_le hle with hc | hc
  · have := hat hc
    have := two_mul_four_mul_boundaryV (magnitudeCodeAt j)
    have := (magnitude_step_le_largestError _ hc).1
    omega
  · have hlast : magnitude 127 + largestError (127 / 16) = 32771 := rfl
    rw [hc, hlast]
    omega

/-- Settles O47: a sample lies within 3 of four times its index's distance from the centre, and that
distance is near the magnitude of its code on both sides. -/
theorem roundTripErrorIsBounded : Obligations.RoundTripErrorIsBounded := by
  intro p
  rw [encodeSample_eq, segmentOf_eq_div]
  rcases le_or_gt 0 p.toInt with hp | hp
  · obtain ⟨j, hk, hj, hlo, hhi⟩ := compressionIndex_of_nonneg p hp
    have hdown := magnitude_le_distance j
    have hup := distance_le_magnitude j hj
    rw [hk, expand_tableCode_above, tableCode_above,
      magnitudeCodeOf_positiveCode _ (magnitudeCodeAt_lt j)]
    omega
  · obtain ⟨j, hk, h0, hj, hlo, hhi⟩ := compressionIndex_of_neg p hp
    have hdown := magnitude_le_distance j
    have hup := distance_le_magnitude j hj
    rw [hk, expand_tableCode_below j h0 hj, tableCode_below j h0 hj,
      magnitudeCodeOf_negativeCode _ (magnitudeCodeAt_lt j)]
    omega

/-! ## Silence -/

theorem encodeSample_zero : encodeSample 0 = 0xD5 := by
  have hk : (compressionIndex 0 : Nat) = 8192 := compressionIndex_val 0
  rw [encodeSample_eq, hk, tableCode_centre]

/-- A sample that is not negative has a positive expansion. -/
theorem expand_encodeSample_pos (p : Sample) (hp : 0 ≤ p.toInt) : 0 < expand (encodeSample p) := by
  obtain ⟨j, hk, _⟩ := compressionIndex_of_nonneg p hp
  have := magnitude_ge (magnitudeCodeAt j)
  rw [encodeSample_eq, hk, expand_tableCode_above]
  omega

/-- `0x55` is the negative code of the magnitude code 0, hence of the distances 1 to 3. -/
theorem encodeSample_eq_0x55_iff (p : Sample) (hp : p.toInt < 0) :
    encodeSample p = 0x55 ↔ -12 ≤ p.toInt := by
  obtain ⟨j, hk, h0, hj, hlo, hhi⟩ := compressionIndex_of_neg p hp
  have hcode : encodeSample p = 0x55 ↔ magnitudeCodeAt j = 0 := by
    rw [encodeSample_eq, hk, tableCode_below j h0 hj]
    constructor
    · intro h
      rw [← magnitudeCodeOf_negativeCode _ (magnitudeCodeAt_lt j), h]
      rfl
    · intro h
      rw [h]
      rfl
  rw [hcode, magnitudeCodeAt_eq_zero_iff]
  omega

/-- Settles O49: the code of 0 is the centre's, and `0x55` is the code of no sample that is not negative. -/
theorem silenceEncodesToD5 : Obligations.SilenceEncodesToD5 := by
  refine ⟨encodeSample_zero, expand_positiveCode 0 (by omega), expand_negativeCode 0 (by omega),
    fun p => ?_⟩
  rcases le_or_gt 0 p.toInt with hp | hp
  · have hne : encodeSample p ≠ 0x55 := fun h => by
      have hpos := expand_encodeSample_pos p hp
      have hneg : expand 0x55 = -8 := expand_negativeCode 0 (by omega)
      rw [h, hneg] at hpos
      exact absurd hpos (by omega)
    exact ⟨fun h => absurd h hne, fun h => by omega⟩
  · rw [encodeSample_eq_0x55_iff p hp]
    omega

end Sys2Proof.Machine
end

section
/-! SUPPORT (60_exceptions.md R200 to R211). The checks of a transform, each outcome as an equation: a dead
handle, the null handle, a count that overflows, a buffer that passes the top of the address space. -/

namespace Sys2Proof.Machine

/-! ## Handles -/

theorem encodePlan_dead (s : State) (h : Nat) (hd : DeadAt s.enc h) :
    s.encodePlan h = .fault .deadHandle := by rw [State.encodePlan, nameOf_dead _ _ hd]

theorem decodePlan_dead (s : State) (h : Nat) (hd : DeadAt s.dec h) :
    s.decodePlan h = .fault .deadHandle := by rw [State.decodePlan, nameOf_dead _ _ hd]

theorem encDestroy_dead (s : State) (h : Nat) (hd : DeadAt s.enc h) :
    s.encDestroy h = s.raise .deadHandle := by rw [State.encDestroy, nameOf_dead _ _ hd]

theorem decDestroy_dead (s : State) (h : Nat) (hd : DeadAt s.dec h) :
    s.decDestroy h = s.raise .deadHandle := by rw [State.decDestroy, nameOf_dead _ _ hd]

theorem encodePlan_null (s : State) : s.encodePlan 0 = .done minusOne := rfl

theorem decodePlan_null (s : State) : s.decodePlan 0 = .done minusOne := rfl

/-! ## The count and the buffers -/

/-- The checks of an encode that come after the handle and the arguments. -/
theorem encodePlan_good (s : State) (h : Nat) (x : EncSlot) (hx : LiveAt s.enc h x)
    (hg : GoodArguments s) :
    s.encodePlan h = s.planBuffers x (2 * encodeCount s) (encodeCount s) (encodeCount s)
      (BitVec.ofNat 32 (encodeCount s)) := by
  simp only [State.encodePlan, nameOf_live _ _ _ hx, badArguments_of_good s hg, Bool.false_eq_true,
    if_false, encodeCount]

/-- The checks of a decode that come after the handle and the arguments. -/
theorem decodePlan_good (s : State) (h : Nat) (x : DecSlot) (hx : LiveAt s.dec h x)
    (hg : GoodArguments s) :
    s.decodePlan h =
      if 0x3FFFFFFF < decodeCount x s then .fault .lengthOverflow
      else s.planBuffers x (decodeCount x s) (2 * decodeCount x s) (decodeCount x s)
        (BitVec.ofNat 32 (2 * decodeCount x s)) := by
  simp only [State.decodePlan, nameOf_live _ _ _ hx, badArguments_of_good s hg, Bool.false_eq_true,
    if_false]
  rfl

/-- The range check fails on either buffer. -/
theorem planBuffers_outOfRange {τ : Type} (s : State) (slot : Slot τ) (inBytes outBytes count : Nat)
    (r : Word) (h : (0 < inBytes ∧ ¬ BufferFits s s.inAddress inBytes) ∨
      (0 < outBytes ∧ ¬ BufferFits s s.outAddress outBytes)) :
    s.planBuffers slot inBytes outBytes count r = .fault .addressRange := by
  have refused (base bytes : Nat) (hpos : 0 < bytes) (hf : ¬ BufferFits s base bytes) :
      inRange s.params base bytes = false := by
    rw [← Bool.not_eq_true, inRange_iff]
    exact not_or.2 ⟨hpos.ne', hf⟩
  rcases h with ⟨hpos, hf⟩ | ⟨hpos, hf⟩
  · simp [State.planBuffers, refused _ _ hpos hf]
  · simp [State.planBuffers, refused _ _ hpos hf]

/-- A decode with valid arguments has at least one element. -/
theorem decodeCount_pos (x : DecSlot) (s : State) (hg : GoodArguments s) : 0 < decodeCount x s := by
  obtain ⟨_, _, hlen⟩ := hg
  have hone := (frameLen_bounds s.lengthOperand x.channels.toInt hlen).1
  rw [decodeCount]
  omega

end Sys2Proof.Machine
end

section
/-! PROOF (60_exceptions.md R202, R208, R211). The ends of a command at its checks: a dead handle, a buffer
out of range, a create that fails. -/

namespace Sys2Proof.Machine

/-- Settles O22: a dead handle is the first thing that each of the four commands checks. -/
theorem deadHandleFaults : Obligations.DeadHandleFaults := by
  refine ⟨fun s h hd => ⟨?_, ?_⟩, fun s h hd => ⟨?_, ?_⟩⟩
  · rw [exec_next_iff, afterCommand, encodePlan_dead s h hd]; rfl
  · rw [exec_next_iff, afterCommand, encDestroy_dead s h hd]; rfl
  · rw [exec_next_iff, afterCommand, decodePlan_dead s h hd]; rfl
  · rw [exec_next_iff, afterCommand, decDestroy_dead s h hd]; rfl

/-- Settles O33: with its count positive, a buffer whose last byte lies above the top does not fit. -/
theorem addressRangeIsCheckedBeforeAnyAccess : Obligations.AddressRangeIsCheckedBeforeAnyAccess := by
  refine ⟨fun s h x hx hg hpos hout => ?_, fun s h x hx hg hn hout => ?_⟩
  · rw [exec_next_iff, afterCommand, encodePlan_good s h x hx hg, planBuffers_outOfRange]
    · rfl
    · unfold BufferFits
      omega
  · have hpos := decodeCount_pos x s hg
    rw [exec_next_iff, afterCommand, decodePlan_good s h x hx hg, if_neg (not_lt.2 hn),
      planBuffers_outOfRange]
    · rfl
    · unfold BufferFits
      omega

theorem drawFails_of_mayFail (s : State) (h : s.params.createMayFail = true) :
    s.drawFails = Config.failDraw s.draws := by rw [State.drawFails, h, Bool.true_and]

theorem afterDraw_of_mayFail (s : State) (h : s.params.createMayFail = true) :
    s.afterDraw = { s with draws := s.draws + 1 } := if_pos h

/-- Settles O20: the three outcomes of a create, with the draw as `CREATE_MAY_FAIL` makes it, and the null
handle of a transform. -/
theorem createFailsWithResultZero : Obligations.CreateFailsWithResultZero := by
  refine ⟨fun s hfull => ?_, fun s hfull => ?_, fun s h hm hl => ?_, fun s h hm hl => ?_,
    fun s => ⟨rfl, rfl⟩⟩
  · rw [exec_next_iff, afterCommand, encCreate_full s ((firstFree_none_iff _).2 hfull)]; rfl
  · rw [exec_next_iff, afterCommand, decCreate_full s ((firstFree_none_iff _).2 hfull)]; rfl
  · obtain ⟨hpos, hf⟩ := hl.firstFree_eq
    have hdraw := drawFails_of_mayFail s hm
    rw [exec_next_iff, afterCommand]
    split
    · next hd =>
      rw [encCreate_draw_fails s _ hf (hdraw.trans hd), afterDraw_of_mayFail s hm]; rfl
    · next hd =>
      rw [encCreate_takes s _ hf (hdraw.trans (Bool.not_eq_true _ ▸ hd)), afterDraw_of_mayFail s hm,
        Nat.sub_add_cancel hpos]; rfl
  · obtain ⟨hpos, hf⟩ := hl.firstFree_eq
    have hdraw := drawFails_of_mayFail s hm
    rw [exec_next_iff, afterCommand]
    split
    · next hd =>
      rw [decCreate_draw_fails s _ hf (hdraw.trans hd), afterDraw_of_mayFail s hm]; rfl
    · next hd =>
      rw [decCreate_takes s _ hf (hdraw.trans (Bool.not_eq_true _ ▸ hd)), afterDraw_of_mayFail s hm,
        Nat.sub_add_cancel hpos]; rfl

end Sys2Proof.Machine
end

section
/-! PROOF (60_exceptions.md R203, R209). A transform stops at its first element with a refused access: the
loop runs up to that element, and the element raises `BUS_ERROR`. -/

namespace Sys2Proof.Machine

/-- A loop stops at the element that stops, whatever its count. -/
theorem runElements_stops_at (e : State → Progress) (j m : Nat) (s u t : State) (hj : j < m)
    (hrun : runElements e j s = .running u) (hstop : e u = .stopped t) :
    runElements e m s = .stopped t := by
  obtain ⟨d, rfl⟩ : ∃ d, m = j + 1 + d := ⟨m - (j + 1), by omega⟩
  refine runElements_stopped e (j + 1) s t ?_ d
  rw [runElements_succ, hrun, Progress.andThen_running, hstop]

/-- Settles O30: the elements before `j` are admitted (`runElements_encode`), and element `j` has no effect
but the fault. -/
theorem encodeBusErrorIsPrecise : Obligations.EncodeBusErrorIsPrecise := by
  intro s h x j hx hg hin hout hj hadm href
  have hrun := runElements_encode x { s with n := encodeCount s } j hadm
  rw [encodedUpTo_counters x.table s (encodeCount s) s.k j] at hrun
  rw [exec_next_iff, afterCommand, encodePlan_loop s h x hx hg (.inr hin) (.inr hout), runPlan,
    runElements_stops_at _ j _ _ _ _ hj hrun (encodeElement_refused x _ href)]
  rfl

/-- Settles O31: the elements before `j` are admitted (`runElements_decode`), and element `j` has no effect
but the fault and the first byte of its sample, where only the second is refused. -/
theorem decodeBusErrorIsPrecise : Obligations.DecodeBusErrorIsPrecise := by
  intro s h x j hx hg hn hin hout hj hadm href
  have hrun := runElements_decode x { s with n := decodeCount x s } j hadm
  rw [decodedUpTo_counters x.table s (decodeCount x s) s.k j] at hrun
  rw [exec_next_iff, afterCommand, decodePlan_loop s h x hx hg hn hin hout, runPlan,
    runElements_stops_at _ j _ _ _ _ hj hrun (decodeElement_not_admitted x _ href)]
  rfl

end Sys2Proof.Machine
end

section
/-! SUPPORT (60_exceptions.md R200, R203). How a command ends: idle, with a result that its checks or its
create chose, or with a fault of its own, which keeps `RESULT` and the slots. -/

namespace Sys2Proof.Machine

/-- The command is a decode whose count exceeds the greatest (60_exceptions.md R207). -/
def OverflowingDecode (i : Instr) (s : State) : Prop :=
  ∃ h x, i = .decDecode h ∧ LiveAt s.dec h x ∧ GoodArguments s ∧ 0x3FFFFFFF < decodeCount x s

/-- The faults a command can raise in a state. -/
def RaisedBy (i : Instr) (s : State) (c : Cause) : Prop :=
  c = .deadHandle ∨ c = .addressRange ∨ c = .busError ∨
    (c = .lengthOverflow ∧ OverflowingDecode i s)

theorem not_raisedBy_hostProtocol (i : Instr) (s : State) : ¬ RaisedBy i s .hostProtocol := by
  simp [RaisedBy]

theorem not_raisedBy_illegalCommand (i : Instr) (s : State) : ¬ RaisedBy i s .illegalCommand := by
  simp [RaisedBy]

theorem RaisedBy.overflowingDecode {i : Instr} {s : State} (h : RaisedBy i s .lengthOverflow) :
    OverflowingDecode i s := by simpa [RaisedBy] using h

/-- `t` is a fault state with the result and the slots of `s`. -/
structure FaultedFrom (s : State) (c : Cause) (t : State) : Prop where
  phase : t.phase = .faulted c
  result : t.result = s.result
  enc : t.enc = s.enc
  dec : t.dec = s.dec

theorem raise_faultedFrom (s : State) (c : Cause) : FaultedFrom s c (s.raise c) := ⟨rfl, rfl, rfl, rfl⟩

theorem ElementFrame.faultedFrom {s t : State} {c : Cause} (h : ElementFrame s t)
    (hc : t.phase = .faulted c) : FaultedFrom s c t := by
  unfold ElementFrame at h
  exact ⟨hc, by rw [h], by rw [h], by rw [h]⟩

/-- The result a transform returns where no access is refused. -/
def Plan.Returns {τ : Type} (p : Plan τ) (r : Word) : Prop :=
  p = .done r ∨ ∃ slot m, p = .loop slot m r

/-! ## Transforms -/

/-- A transform ends with its plan's result, with its plan's fault or with `BUS_ERROR`. -/
theorem runPlan_ends {τ : Type} {e : Slot τ → State → Progress}
    (hframe : ∀ slot s, ElementFrame s (e slot s).state)
    (hstop : ∀ slot s t, e slot s = .stopped t → t.phase = .faulted .busError) (p : Plan τ)
    (s : State) :
    ((runPlan e p s).phase = .idle ∧ p.Returns (runPlan e p s).result) ∨
      ∃ c, (p = .fault c ∨ c = .busError) ∧ FaultedFrom s c (runPlan e p s) := by
  cases p with
  | fault c => exact .inr ⟨c, .inl rfl, raise_faultedFrom s c⟩
  | done r => exact .inl ⟨rfl, .inl rfl⟩
  | loop slot m r =>
    have hf := runElements_frame (e slot) (hframe slot) m { s with n := m, k := 0 }
    rw [runPlan]
    cases hr : runElements (e slot) m { s with n := m, k := 0 } with
    | running t => exact .inl ⟨rfl, .inr ⟨slot, m, rfl⟩⟩
    | stopped t =>
      rw [hr] at hf
      have hc : t.phase = .faulted .busError := runElements_stopped_by (e slot)
        (fun t => t.phase = .faulted .busError) (hstop slot) m _ t hr
      obtain ⟨hp, hresult, henc, hdec⟩ := hf.faultedFrom hc
      exact .inr ⟨.busError, .inr rfl, hp, hresult, henc, hdec⟩

theorem encodePlan_raisedBy (h : Nat) (s : State) (c : Cause)
    (hp : s.encodePlan h = .fault c ∨ c = .busError) : RaisedBy (.encEncode h) s c := by
  rcases hp with hp | rfl
  · exact (encodePlan_fault s h c hp).imp_right .inl
  · exact .inr (.inr (.inl rfl))

theorem decodePlan_raisedBy (h : Nat) (s : State) (c : Cause)
    (hp : s.decodePlan h = .fault c ∨ c = .busError) : RaisedBy (.decDecode h) s c := by
  rcases hp with hp | rfl
  · rcases decodePlan_fault s h c hp with rfl | rfl | ⟨rfl, x, hx⟩
    · exact .inl rfl
    · exact .inr (.inl rfl)
    · exact .inr (.inr (.inr ⟨rfl, h, x, rfl, hx⟩))
  · exact .inr (.inr (.inl rfl))

/-! ## Destroys and creates -/

theorem encDestroy_ends (h : Nat) (s : State) :
    ((s.encDestroy h).phase = .idle ∧ (s.encDestroy h).result = 0) ∨
      s.encDestroy h = s.raise .deadHandle := by
  rcases handle_cases s.enc h with rfl | hd | ⟨x, hx⟩
  · exact .inl ⟨rfl, rfl⟩
  · exact .inr (encDestroy_dead s h hd)
  · rw [encDestroy_live s h x hx]; exact .inl ⟨rfl, rfl⟩

theorem decDestroy_ends (h : Nat) (s : State) :
    ((s.decDestroy h).phase = .idle ∧ (s.decDestroy h).result = 0) ∨
      s.decDestroy h = s.raise .deadHandle := by
  rcases handle_cases s.dec h with rfl | hd | ⟨x, hx⟩
  · exact .inl ⟨rfl, rfl⟩
  · exact .inr (decDestroy_dead s h hd)
  · rw [decDestroy_live s h x hx]; exact .inl ⟨rfl, rfl⟩

/-- The slot that `firstFree` finds is one of the unit's. -/
theorem firstFree_lt {τ : Type} (slots : List (Slot τ)) (i : Nat) (h : firstFree slots = some i) :
    i < slots.length := by
  obtain ⟨⟨x, hx, _⟩, _⟩ := lowest_of_firstFree slots i h
  exact (List.getElem?_eq_some_iff.1 hx).1

/-- A create returns 0 or the handle of one of the unit's slots. -/
theorem encCreate_result (s : State) :
    ∃ n, n ≤ s.enc.length ∧ s.encCreate.result = BitVec.ofNat 32 n := by
  cases hf : firstFree s.enc with
  | none => exact ⟨0, by omega, by rw [encCreate_full s hf]; rfl⟩
  | some i =>
    cases hd : s.drawFails with
    | true => exact ⟨0, by omega, by rw [encCreate_draw_fails s i hf hd]; rfl⟩
    | false => exact ⟨i + 1, firstFree_lt _ i hf, by rw [encCreate_takes s i hf hd]; rfl⟩

/-- A create returns 0 or the handle of one of the unit's slots. -/
theorem decCreate_result (s : State) :
    ∃ n, n ≤ s.dec.length ∧ s.decCreate.result = BitVec.ofNat 32 n := by
  cases hf : firstFree s.dec with
  | none => exact ⟨0, by omega, by rw [decCreate_full s hf]; rfl⟩
  | some i =>
    cases hd : s.drawFails with
    | true => exact ⟨0, by omega, by rw [decCreate_draw_fails s i hf hd]; rfl⟩
    | false => exact ⟨i + 1, firstFree_lt _ i hf, by rw [decCreate_takes s i hf hd]; rfl⟩

/-! ## Whole commands -/

/-- The two ends of a command. -/
theorem afterCommand_ends (i : Instr) (s : State) :
    (afterCommand i s).phase = .idle ∨
      ∃ c, RaisedBy i s c ∧ FaultedFrom s c (afterCommand i s) := by
  cases i with
  | encCreate => exact .inl (encCreate_idle s)
  | encEncode h =>
    exact (runPlan_ends encodeElement_frame encodeElement_stopped (s.encodePlan h) s).imp And.left
      fun ⟨c, hc, hf⟩ => ⟨c, encodePlan_raisedBy h s c hc, hf⟩
  | encDestroy h =>
    refine (encDestroy_ends h s).imp And.left fun hd => ⟨.deadHandle, .inl rfl, ?_⟩
    rw [afterCommand, hd]
    exact raise_faultedFrom s _
  | decCreate => exact .inl (decCreate_idle s)
  | decDecode h =>
    exact (runPlan_ends decodeElement_frame decodeElement_stopped (s.decodePlan h) s).imp And.left
      fun ⟨c, hc, hf⟩ => ⟨c, decodePlan_raisedBy h s c hc, hf⟩
  | decDestroy h =>
    refine (decDestroy_ends h s).imp And.left fun hd => ⟨.deadHandle, .inl rfl, ?_⟩
    rw [afterCommand, hd]
    exact raise_faultedFrom s _

theorem afterCommand_raisedBy (i : Instr) (s : State) (c : Cause)
    (h : (afterCommand i s).phase = .faulted c) : RaisedBy i s c := by
  rcases afterCommand_ends i s with hi | ⟨c', hc, hf⟩
  · rw [hi] at h; cases h
  · rw [hf.phase] at h; cases h; exact hc

end Sys2Proof.Machine
end

section
/-! PROOF (60_exceptions.md R200, R203). Every command ends, and the results it can return. -/

namespace Sys2Proof.Machine

/-- Settles O9: the two ends of a command (`afterCommand_ends`), and neither `HOST_PROTOCOL` nor
`ILLEGAL_COMMAND` is a command's own fault. -/
theorem commandEndsIdleOrFaulted : Obligations.CommandEndsIdleOrFaulted := by
  intro i s
  refine ⟨_, exec_eq i s, (afterCommand_ends i s).imp_right ?_⟩
  rintro ⟨c, hc, hphase, hresult, henc, hdec⟩
  refine ⟨c, hphase, ?_, ?_, hresult, henc, hdec⟩
  · rintro rfl; exact not_raisedBy_hostProtocol i s hc
  · rintro rfl; exact not_raisedBy_illegalCommand i s hc

/-! ## Results -/

/-- A count below `2^31` is not negative as an INT. -/
theorem toInt_ofNat_nonneg (n : Nat) (h : n < 2 ^ 31) : 0 ≤ (BitVec.ofNat 32 n).toInt := by
  rw [BitVec.toInt_ofNat', Int.bmod_eq_of_le (by omega) (by omega)]
  omega

theorem planBuffers_ne_done {τ : Type} (s : State) (slot : Slot τ) (inBytes outBytes count : Nat)
    (r r' : Word) : s.planBuffers slot inBytes outBytes count r ≠ .done r' := by
  unfold State.planBuffers
  split
  · nofun
  · split <;> nofun

/-- An encode that ends at its checks with a result returns `-1`. -/
theorem encodePlan_done (s : State) (h : Nat) (r : Word) (hp : s.encodePlan h = .done r) :
    r = minusOne := by
  rcases handle_cases s.enc h with rfl | hd | ⟨x, hx⟩
  · rw [encodePlan_null] at hp; cases hp; rfl
  · rw [encodePlan_dead s h hd] at hp; cases hp
  · by_cases hg : GoodArguments s
    · rw [encodePlan_good s h x hx hg] at hp
      exact (planBuffers_ne_done _ _ _ _ _ _ _ hp).elim
    · rw [encodePlan_not_good s h x hx hg] at hp; cases hp; rfl

/-- A decode that ends at its checks with a result returns `-1`. -/
theorem decodePlan_done (s : State) (h : Nat) (r : Word) (hp : s.decodePlan h = .done r) :
    r = minusOne := by
  rcases handle_cases s.dec h with rfl | hd | ⟨x, hx⟩
  · rw [decodePlan_null] at hp; cases hp; rfl
  · rw [decodePlan_dead s h hd] at hp; cases hp
  · by_cases hg : GoodArguments s
    · rw [decodePlan_good s h x hx hg] at hp
      split at hp
      · cases hp
      · exact (planBuffers_ne_done _ _ _ _ _ _ _ hp).elim
    · rw [decodePlan_not_good s h x hx hg] at hp; cases hp; rfl

/-- An encode returns `-1` or an element count. -/
theorem encodePlan_returns (s : State) (h : Nat) (r : Word) (hr : (s.encodePlan h).Returns r) :
    r = minusOne ∨ 0 ≤ r.toInt := by
  rcases hr with hr | ⟨slot, m, hr⟩
  · exact .inl (encodePlan_done s h r hr)
  · obtain ⟨_, _, rfl, rfl, _⟩ := encodePlan_loop_inv s h slot m r hr
    have hle := encodeCount_le s
    exact .inr (toInt_ofNat_nonneg _ (by omega))

/-- A decode returns `-1` or twice an element count, which its checks have held to the INT range. -/
theorem decodePlan_returns (s : State) (h : Nat) (r : Word) (hr : (s.decodePlan h).Returns r) :
    r = minusOne ∨ 0 ≤ r.toInt := by
  rcases hr with hr | ⟨slot, m, hr⟩
  · exact .inl (decodePlan_done s h r hr)
  · obtain ⟨_, _, _, rfl, hm, _⟩ := decodePlan_loop_inv s h slot m r hr
    exact .inr (toInt_ofNat_nonneg _ (by omega))

/-- What a command that completes can return: a transform `-1`, or a value that is not negative. The
invariant bounds the slot counts, and so the handles. -/
theorem afterCommand_result (i : Instr) (s : State) (hs : s.Inv)
    (hidle : (afterCommand i s).phase = .idle) :
    ((afterCommand i s).result = minusOne ∧ isTransform i = true) ∨
      0 ≤ (afterCommand i s).result.toInt := by
  obtain ⟨_, henc, hdec⟩ := hs.params
  simp only [slotCountFits, Bool.and_eq_true, decide_eq_true_eq] at henc hdec
  cases i with
  | encCreate =>
    obtain ⟨n, hn, hr⟩ := encCreate_result s
    exact .inr (by rw [afterCommand, hr]; exact toInt_ofNat_nonneg n (by omega))
  | encEncode h =>
    rcases runPlan_ends encodeElement_frame encodeElement_stopped (s.encodePlan h) s with
      ⟨_, hr⟩ | ⟨c, _, hf⟩
    · exact (encodePlan_returns s h _ hr).imp_left fun hm => ⟨hm, rfl⟩
    · rw [afterCommand, hf.phase] at hidle; cases hidle
  | encDestroy h =>
    rcases encDestroy_ends h s with ⟨_, hr⟩ | hd
    · exact .inr (by rw [afterCommand, hr]; decide)
    · rw [afterCommand, hd] at hidle; cases hidle
  | decCreate =>
    obtain ⟨n, hn, hr⟩ := decCreate_result s
    exact .inr (by rw [afterCommand, hr]; exact toInt_ofNat_nonneg n (by omega))
  | decDecode h =>
    rcases runPlan_ends decodeElement_frame decodeElement_stopped (s.decodePlan h) s with
      ⟨_, hr⟩ | ⟨c, _, hf⟩
    · exact (decodePlan_returns s h _ hr).imp_left fun hm => ⟨hm, rfl⟩
    · rw [afterCommand, hf.phase] at hidle; cases hidle
  | decDestroy h =>
    rcases decDestroy_ends h s with ⟨_, hr⟩ | hd
    · exact .inr (by rw [afterCommand, hr]; decide)
    · rw [afterCommand, hd] at hidle; cases hidle

/-- Settles O17: of the results of `afterCommand_result` only `-1` is negative. -/
theorem minusOneIsTheOnlyNegativeResult : Obligations.MinusOneIsTheOnlyNegativeResult := by
  intro i s t hs h hidle hneg
  obtain rfl := (exec_next_iff i s t).1 h
  exact (afterCommand_result i s hs hidle).resolve_right (not_le.2 hneg)

end Sys2Proof.Machine
end

section
/-! PROOF (60_exceptions.md R204). The fault state: no event but a reset changes the block. -/

namespace Sys2Proof.Machine

/-- What changes in a fault state: the port, the loaded value and, for a host's store to host memory,
memory. -/
def HostOnly (s t : State) : Prop :=
  t = { s with port := t.port, readData := t.readData, mem := t.mem } ∧
    ((∀ a v, s.port.head? ≠ some (.memWrite a v)) → t.mem = s.mem)

/-- A step that is no store to host memory and writes the port and the loaded value alone. -/
theorem HostOnly.of_eq {s t : State} (p : List Input) (v : Word)
    (h : t = { s with port := p, readData := v }) : HostOnly s t := by
  subst h
  exact ⟨rfl, fun _ => rfl⟩

theorem faulted_step_hostOnly (s t : State) (c : Cause) (hc : s.phase = .faulted c)
    (h : step s = .next t) (hr : s.port.head? ≠ some .reset) : HostOnly s t := by
  have hb : s.phase ≠ .busy := by simp [hc]
  have hi : s.phase ≠ .idle := by simp [hc]
  cases step_cases s t h with
  | quiet _ ht => exact .of_eq s.port s.readData (ht.trans (blockStep_still s hb))
  | turn rest _ ht =>
    exact .of_eq rest s.readData (ht.trans (blockStep_still { s with port := rest } hb))
  | store offset v rest _ _ ht =>
    exact .of_eq rest s.readData (ht.trans (storeReg_faulted _ v { s with port := rest } c hc))
  | load _ _ _ _ ht => exact .of_eq _ _ ht
  | odd _ rest _ _ _ _ ht =>
    exact .of_eq rest s.readData (ht.trans (protocolError_faulted { s with port := rest } c hc))
  | memWrite a v rest hp _ _ ht =>
    subst ht
    exact ⟨rfl, fun hne => absurd (by rw [hp]; rfl) (hne a v)⟩
  | memRead _ _ _ _ ht => exact .of_eq _ _ ht
  | waitIdle _ _ hs _ => exact absurd hs hi
  | waitBusy _ _ hs _ => exact absurd hs hb
  | waitFaulted _ _ _ _ ht => exact .of_eq _ _ ht
  | illegal _ _ _ hs _ _ _ => exact absurd hs hi
  | command _ _ _ _ hs _ _ => exact absurd hs hi
  | commandBusy _ _ _ hs _ => exact absurd hs hb
  | commandFaulted _ _ rest _ _ ht => exact .of_eq rest s.readData ht
  | reset rest hp _ => exact absurd (by rw [hp]; rfl) hr

/-- Settles O13: the step of each event in a fault state, a load of a register, and reset. -/
theorem faultStateIsSticky : Obligations.FaultStateIsSticky := by
  refine fun s c hc => ⟨fun t h hr => faulted_step_hostOnly s t c hc h hr,
    fun offset rest ho hp => step_load s offset rest hp ho, fun rest hp => ?_⟩
  exact ⟨State.applyReset { s with port := rest }, step_event s .reset rest hp, rfl⟩

end Sys2Proof.Machine
end

section
/-! PROOF (60_exceptions.md R206, R207, R210). Which step raises which fault: a protocol fault comes from a
host access that the window does not allow, and every other fault from the command that runs. -/

namespace Sys2Proof.Machine

/-! ## The faults of a step -/

/-- One step of a transform in flight raises its plan's fault or `BUS_ERROR`. -/
theorem stepPlan_fault {τ : Type} (e : Slot τ → State → Progress)
    (hrun : ∀ slot s t, e slot s = .running t → t.phase = s.phase)
    (hstop : ∀ slot s t, e slot s = .stopped t → t.phase = .faulted .busError) (p : Plan τ)
    (s : State) (hn : NotFaulted s) (c : Cause) (h : (stepPlan e p s).phase = .faulted c) :
    p = .fault c ∨ c = .busError := by
  rcases stepPlan_phase e hrun hstop p s with hs | hs | ⟨c', hp, hs⟩ | hs
  · exact absurd (hs.symm.trans h) (hn c)
  · rw [hs] at h; cases h
  · rw [hs] at h; cases h; exact .inl hp
  · rw [hs] at h; cases h; exact .inr rfl

theorem commandStep_raisedBy (i : Instr) (s : State) (hn : NotFaulted s) (c : Cause)
    (h : (commandStep i s).phase = .faulted c) : RaisedBy i s c := by
  cases i with
  | encCreate => exact afterCommand_raisedBy .encCreate s c h
  | encEncode a =>
    exact encodePlan_raisedBy a s c (stepPlan_fault encodeElement encodeElement_running_phase
      encodeElement_stopped _ s hn c h)
  | encDestroy a => exact afterCommand_raisedBy (.encDestroy a) s c h
  | decCreate => exact afterCommand_raisedBy .decCreate s c h
  | decDecode a =>
    exact decodePlan_raisedBy a s c (stepPlan_fault decodeElement decodeElement_running_phase
      decodeElement_stopped _ s hn c h)
  | decDestroy a => exact afterCommand_raisedBy (.decDestroy a) s c h

/-- The faults of the block's own: of a command that it is busy with, or of an illegal word. -/
def BlockFault (s : State) (c : Cause) : Prop :=
  c = .illegalCommand ∨ ∃ i u, RunsNow i s ∧ RaisedBy i u c

/-- A block step of the state with a host event done, which has changed neither the phase nor the latched
word, raises a fault of the block's own. -/
theorem blockStep_fault (s u : State) (hphase : u.phase = s.phase) (hl : u.lcmd = s.lcmd)
    (hn : NotFaulted s) (c : Cause) (h : u.blockStep.phase = .faulted c) : BlockFault s c := by
  have hnu : NotFaulted u := fun c' hc' => hn c' (hphase ▸ hc')
  rcases blockStep_cases u with ⟨_, hs⟩ | ⟨_, _, hs⟩ | ⟨i, hb, hd, hs⟩
  · rw [hs] at h; exact absurd h (hnu c)
  · rw [hs] at h; cases h; exact .inl rfl
  · rw [hs] at h
    exact .inr ⟨i, u, .inr ⟨hphase ▸ hb, hl ▸ hd⟩, commandStep_raisedBy i u hnu c h⟩

theorem regAt_low (offset : Fin 64) (ho : offset.val % 4 = 0) (hlo : offset.val < 0x10) :
    regAt offset = .cmd ∨ regAt offset = .arg0 ∨ regAt offset = .arg1 ∨ regAt offset = .arg2 := by
  revert offset
  decide

theorem regAt_high (offset : Fin 64) (ho : offset.val % 4 = 0) (hhi : ¬ offset.val < 0x10) :
    regAt offset = .result ∨ regAt offset = .status ∨ regAt offset = .reserved := by
  revert offset
  decide

/-- A store to `CMD` or an `ARG` register while `BUSY`. -/
theorem storeReg_busy_low (offset : Fin 64) (ho : offset.val % 4 = 0) (hlo : offset.val < 0x10)
    (v : Word) (s : State) (hb : s.phase = .busy) :
    s.storeReg (regAt offset) v = s.raise .hostProtocol := by
  rcases regAt_low offset ho hlo with hr | hr
  · rw [hr]; exact storeCmd_busy v s hb
  · exact storeReg_arg_busy _ v s hb hr

/-- Every other store to a register raises no fault. -/
theorem storeReg_notFaulted (offset : Fin 64) (ho : offset.val % 4 = 0) (v : Word) (s : State)
    (hn : NotFaulted s) (hv : ¬ (s.phase = .busy ∧ offset.val < 0x10)) :
    NotFaulted (s.storeReg (regAt offset) v) := by
  intro c hc
  by_cases hlo : offset.val < 0x10
  · obtain hs | hs | ⟨c', hs⟩ := phase_cases s
    · by_cases hr : regAt offset = .cmd
      · rw [hr, State.storeReg, storeCmd_idle v s hs] at hc; cases hc
      · rw [storeReg_idle_phase _ v s hs hr] at hc; cases hc
    · exact hv ⟨hs, hlo⟩
    · exact hn c' hs
  · refine hn c ?_
    rcases regAt_high offset ho hlo with hr | hr | hr <;> rwa [hr] at hc

/-- The faults of a step from a state with none recorded: `HOST_PROTOCOL` where the event violates the
protocol, and otherwise only a fault of the block's own. -/
theorem step_faults (s t : State) (hn : NotFaulted s) (h : step s = .next t) :
    (t.phase = .faulted .hostProtocol ∧ ViolatesProtocol s) ∨
      (¬ ViolatesProtocol s ∧ ∀ c, t.phase = .faulted c → BlockFault s c) := by
  have still (u : State) (ht : t = u) (hu : NotFaulted u) :
      ∀ c, t.phase = .faulted c → BlockFault s c := fun c hc => absurd (ht ▸ hc) (hu c)
  cases step_cases s t h with
  | quiet hp ht =>
    exact .inr ⟨by simp [ViolatesProtocol, hp], fun c hc => blockStep_fault s s rfl rfl hn c (ht ▸ hc)⟩
  | turn rest hp ht =>
    exact .inr ⟨by simp [ViolatesProtocol, hp], fun c hc =>
      blockStep_fault s { s with port := rest } rfl rfl hn c (ht ▸ hc)⟩
  | store offset v rest hp ho ht =>
    by_cases hv : s.phase = .busy ∧ offset.val < 0x10
    · refine .inl ⟨?_, by simp [ViolatesProtocol, hp, hv]⟩
      rw [ht, storeReg_busy_low offset ho hv.2 v { s with port := rest } hv.1]
      rfl
    · exact .inr ⟨by simpa [ViolatesProtocol, hp, ho] using hv,
        still _ ht (storeReg_notFaulted offset ho v { s with port := rest } hn hv)⟩
  | load _ _ hp ho ht =>
    exact .inr ⟨by simp [ViolatesProtocol, hp, ho], still _ ht hn⟩
  | odd _ rest _ hv _ _ ht =>
    exact .inl ⟨by rw [ht, protocolError_notFaulted { s with port := rest } hn]; rfl, hv⟩
  | memWrite _ _ _ hp _ hw ht =>
    exact .inr ⟨by simp [ViolatesProtocol, hp, hw], still _ ht hn⟩
  | memRead _ _ hp hw ht =>
    exact .inr ⟨by simp [ViolatesProtocol, hp, hw], still _ ht hn⟩
  | waitIdle _ hp _ ht =>
    exact .inr ⟨by simp [ViolatesProtocol, hp], still _ ht hn⟩
  | waitBusy _ hp _ ht =>
    exact .inr ⟨by simp [ViolatesProtocol, hp], fun c hc =>
      blockStep_fault s { s with readData := s.status } rfl rfl hn c (ht ▸ hc)⟩
  | waitFaulted c _ _ hs _ => exact absurd hs (hn c)
  | illegal _ _ hp hs _ _ ht =>
    refine .inr ⟨by simp [ViolatesProtocol, hp, hs], fun c hc => .inl ?_⟩
    rw [ht] at hc; cases hc; rfl
  | command w i rest hp hs hd ht =>
    have hruns : RunsNow i s := .inl ⟨w, by rw [hp]; rfl, hs, hd⟩
    exact .inr ⟨by simp [ViolatesProtocol, hp, hs], fun c hc =>
      .inr ⟨i, State.start w { s with port := rest }, hruns, afterCommand_raisedBy i _ c (ht ▸ hc)⟩⟩
  | commandBusy _ _ hp hs ht => exact .inl ⟨by rw [ht]; rfl, by simp [ViolatesProtocol, hp, hs]⟩
  | commandFaulted _ c _ _ hs _ => exact absurd hs (hn c)
  | reset _ hp ht => exact .inr ⟨by simp [ViolatesProtocol, hp], still _ ht fun _ => nofun⟩

/-! ## `HOST_PROTOCOL` and `LENGTH_OVERFLOW` -/

/-- Settles O54: no fault of the block's own is `HOST_PROTOCOL`. -/
theorem hostProtocolIsRaisedExactlyByItsAccesses :
    Obligations.HostProtocolIsRaisedExactlyByItsAccesses := by
  intro s t hn h
  rcases step_faults s t hn h with ⟨ht, hv⟩ | ⟨hv, hblock⟩
  · exact iff_of_true ht hv
  · refine iff_of_false (fun ht => ?_) hv
    obtain hc | ⟨i, u, _, hi⟩ := hblock _ ht
    · cases hc
    · exact not_raisedBy_hostProtocol i u hi

/-- Settles O34: the check of the count, the faults of a command and the faults of a step. -/
theorem lengthOverflowIsTheDecodersAlone : Obligations.LengthOverflowIsTheDecodersAlone := by
  refine ⟨fun s h x hx hg hn => ?_, fun i s t h ht => ?_, fun s t hn h ht => ?_⟩
  · rw [exec_next_iff, afterCommand, decodePlan_good s h x hx hg, if_pos hn]
    rfl
  · obtain rfl := (exec_next_iff i s t).1 h
    exact (afterCommand_raisedBy i s _ ht).overflowingDecode
  · rcases step_faults s t hn h with ⟨ht', _⟩ | ⟨_, hblock⟩
    · rw [ht'] at ht; cases ht
    · obtain hc | ⟨i, u, hrun, hi⟩ := hblock _ ht
      · cases hc
      · obtain ⟨h, _, rfl, _⟩ := hi.overflowingDecode
        exact ⟨h, hrun⟩

end Sys2Proof.Machine
end

section
/-! PROOF (70_reset_and_hazards.md R240, R241). The reset input: the registers and the fault state, and
the handles of both units. -/

namespace Sys2Proof.Machine

/-- Where every slot of a unit is free, every handle but the null one is dead. -/
theorem deadAt_of_all_free {τ : Type} {slots : List (Slot τ)} (hfree : ∀ x ∈ slots, x.live = false)
    {h : Nat} (h0 : h ≠ 0) : DeadAt slots h := by
  rcases handle_cases slots h with hz | hd | ⟨x, hx⟩
  · exact absurd hz h0
  · exact hd
  · have hl : x.live = true := hx.2
    rw [hfree x hx.mem] at hl
    cases hl

theorem applyReset_enc_dead (s : State) {h : Nat} (h0 : h ≠ 0) : DeadAt s.applyReset.enc h :=
  deadAt_of_all_free (afterReset_enc_live s.params s.enc.length s.dec.length) h0

theorem applyReset_dec_dead (s : State) {h : Nat} (h0 : h ≠ 0) : DeadAt s.applyReset.dec h :=
  deadAt_of_all_free (afterReset_dec_live s.params s.enc.length s.dec.length) h0

/-- Settles O57: the step is `applyReset`, whose fields give the registers, and all of whose slots are
free. -/
theorem resetInputFreesEverySlot : Obligations.ResetInputFreesEverySlot := by
  intro s rest hp
  refine ⟨State.applyReset { s with port := rest }, step_event s .reset rest hp, rfl,
    status_idle _ rfl, rfl, rfl, rfl, rfl, rfl, rfl, rfl, rfl, fun h h0 => ?_⟩
  exact ⟨applyReset_enc_dead _ h0, applyReset_dec_dead _ h0⟩

end Sys2Proof.Machine
end
